-- ==== Sys2Proof/Word.lean ====
section
/-! DEFINITION. The word types of the core (spec/00_scope.md rule R5, "Fixed widths"; rule R7). Bits are numbered from 0 at
the least significant bit, as rule R7 does. -/

namespace Sys2Proof

/-- A byte: a register value, a frame byte, a device-internal register address (R5). -/
abbrev Byte := BitVec 8

/-- A 16-bit logical address of the clock-distribution device ("the DPLL"), or a 16-bit frame field (R5, R91). -/
abbrev Addr := BitVec 16

/-- A bus device address: "a fixed 7-bit device address" (R5, R50). -/
abbrev DevAddr := BitVec 7

end Sys2Proof
end

