-- ==== Sys2Proof/Machine/Bytes.lean ====
section
/-! DEFINITION. Byte order and bit fields: the two bytes of a logical address (spec/20_memory.md rule R53), the 16-bit
assemblies of spec/00_scope.md rule R7 (`u16le`, `u16be`, `s16be`) and the byte orders of rule R56. -/

namespace Sys2Proof

/-- R53: `lower = addr & 0xFF`, that is `addr[7:0]`. -/
def lowerOf (addr : Addr) : Byte := addr.extractLsb' 0 8

/-- R53: `upper = (addr >> 8) & 0xFF`, that is `addr[15:8]`. -/
def upperOf (addr : Addr) : Byte := addr.extractLsb' 8 8

/-- R7: `u16le(lo, hi) = hi * 256 + lo`. -/
def u16le (lo hi : Byte) : Addr := hi ++ lo

/-- R7: `u16be(s, i) = s[i] * 256 + s[i+1]`, of the two bytes in the order they stand in the region (R56 (c)). -/
def u16be (first second : Byte) : BitVec 16 := first ++ second

/-- R7: `s16be(s, i)` is `u16be(s, i)` read as two's complement. -/
def s16be (first second : Byte) : Int := (u16be first second).toInt

/-- The two bytes of a 16-bit value, low byte first (R56 (e), R92). -/
def bytesLE (v : BitVec 16) : List Byte := [lowerOf v, upperOf v]

/-- Byte `i` of a byte sequence (R7, `s[i]`). Every caller reads an index below the length the bus primitive guarantees
(R51: "exactly `count` bytes"), where the value given for a missing byte is never used. -/
def byteAt (s : List Byte) (i : Nat) : Byte := s.getD i 0

/-- R7: `s[i..j]`, of `n` bytes from `i`. -/
def slice (s : List Byte) (i n : Nat) : List Byte := (s.drop i).take n

/-- The last byte of a byte sequence; as with `byteAt`, every caller has one. -/
def lastByte (s : List Byte) : Byte := s.getLastD 0

/-- R183 step 2: set or clear bit `k`. -/
def setBit (cur : Byte) (k : Nat) (value : Bool) : Byte :=
  if value then cur ||| (1#8 <<< k) else cur &&& ~~~(1#8 <<< k)

end Sys2Proof
end

