-- ==== Sys2Proof/Syntax.lean ====
section
/-! DEFINITION. The commands: one constructor per row of spec/opcode_table.json (spec/30_encoding.md rule R93). A
constructor's arguments are the fields `F.*` of its frame format (R91); `F.n` of the two block writes is the length of their
data. -/

namespace Sys2Proof

inductive Instr where
  /-- `MUX.SEL chan` (R131). -/
  | muxSel (chan : Byte)
  /-- `MUX.CLOSE` (R132). -/
  | muxClose
  /-- `INVAL mask` (R133): bit 0 is the page cache, bit 1 the mux cache. -/
  | inval (mask : BitVec 2)
  /-- `PRS.ENSURE` (R152). -/
  | prsEnsure
  /-- `PRS.WRB addr, val` (R154). -/
  | prsWrb (addr : Addr) (val : Byte)
  /-- `PRS.RDB addr` (R156). -/
  | prsRdb (addr : Addr)
  /-- `PRS.WRBLK addr, [bytes]` (R158). -/
  | prsWrblk (addr : Addr) (data : List Byte)
  /-- `PRS.RDBLK addr, cnt` (R160). -/
  | prsRdblk (addr : Addr) (cnt : Byte)
  /-- `PRS.WRBO base+off, val` (R155). -/
  | prsWrbo (base off : Addr) (val : Byte)
  /-- `PRS.RDBO base+off` (R157). -/
  | prsRdbo (base off : Addr)
  /-- `PRS.WRBLKO base+off, [bytes]` (R159). -/
  | prsWrblko (base off : Addr) (data : List Byte)
  /-- `PRS.RDBLKO base+off, cnt` (R161). -/
  | prsRdblko (base off : Addr) (cnt : Byte)
  /-- `GPIO.CFGIN pin[, value]` (R182); `value` is `ctl[0]`, legal and ignored (R94). -/
  | gpioCfgin (pin : Byte) (value : Bool)
  /-- `GPIO.CFGOUT pin, value` (R183). -/
  | gpioCfgout (pin : Byte) (value : Bool)
  /-- `GPIO.RDMODE pin` (R185). -/
  | gpioRdmode (pin : Byte)
  /-- `SFP.POLL slot` (R202); exists only when `HAS_SFP`. -/
  | sfpPoll (slot : Byte)
deriving DecidableEq, Repr

end Sys2Proof
end

