-- ==== Sys2Proof/WellFormed.lean ====
section
/-! DEFINITION. Which commands a frame can carry (spec/30_encoding.md rule R91, rule R93): the byte count `n` of a block
write is one byte of the frame, and `SFP.POLL` exists only when `HAS_SFP`. An argument out of its domain (R96 (4)) is a
well-formed command that answers `INVALID_ARGUMENT`; it is not checked here. -/

namespace Sys2Proof

/-- The check, one line per constructor of `Instr`. -/
def Instr.wf (hasSfp : Bool) : Instr → Bool
  | .muxSel _ => true
  | .muxClose => true
  | .inval _ => true
  | .prsEnsure => true
  | .prsWrb _ _ => true
  | .prsRdb _ => true
  | .prsWrblk _ data => decide (data.length ≤ 255)
  | .prsRdblk _ _ => true
  | .prsWrbo _ _ _ => true
  | .prsRdbo _ _ => true
  | .prsWrblko _ _ data => decide (data.length ≤ 255)
  | .prsRdblko _ _ _ => true
  | .gpioCfgin _ _ => true
  | .gpioCfgout _ _ => true
  | .gpioRdmode _ => true
  | .sfpPoll _ => hasSfp

end Sys2Proof
end

