-- ==== Sys2Proof/Decode.lean ====
section
/-! DEFINITION. From a command frame to a command, and back (spec/30_encoding.md rules R90 to R96 and section 5). The decoder
is total on byte sequences and checks in the order of R96: opcode, length, reserved bits. The fourth check of R96, the
argument domain, belongs to the commands (Machine/Operands.lean). -/

namespace Sys2Proof

/-- Why a byte sequence is not a command: the three kinds of illegal frame of R94, in the order R96 checks them. -/
inductive DecodeError where
  /-- No byte 0, or an opcode that R93 does not list (`0x30` too when `HAS_SFP` is false). -/
  | reservedOpcode
  /-- A length other than the one the format requires. -/
  | wrongLength
  /-- `INVAL` with `mask[7:2] != 0`; opcode `0x20` with `ctl[7:2] != 0`. -/
  | reservedBits
deriving DecidableEq, Repr

/-- The opcode bytes of R93. The two `GPIO.CFG*` rows share `0x20`. -/
inductive Opcode where
  | muxSel | muxClose | inval
  | prsEnsure | prsWrb | prsRdb | prsWrblk | prsRdblk
  | prsWrbo | prsRdbo | prsWrblko | prsRdblko
  | gpioCfg | gpioRdmode
  | sfpPoll
deriving DecidableEq, Repr

/-- R93: the byte of an opcode. -/
def Opcode.toByte : Opcode → Byte
  | .muxSel => 0x01
  | .muxClose => 0x02
  | .inval => 0x03
  | .prsEnsure => 0x10
  | .prsWrb => 0x11
  | .prsRdb => 0x12
  | .prsWrblk => 0x13
  | .prsRdblk => 0x14
  | .prsWrbo => 0x19
  | .prsRdbo => 0x1A
  | .prsWrblko => 0x1B
  | .prsRdblko => 0x1C
  | .gpioCfg => 0x20
  | .gpioRdmode => 0x22
  | .sfpPoll => 0x30

/-- R93, R94: the opcode of a frame's byte 0; every byte not listed is reserved. -/
def opcodeOf (hasSfp : Bool) (b : Byte) : Option Opcode :=
  match b.toNat with
  | 0x01 => some .muxSel
  | 0x02 => some .muxClose
  | 0x03 => some .inval
  | 0x10 => some .prsEnsure
  | 0x11 => some .prsWrb
  | 0x12 => some .prsRdb
  | 0x13 => some .prsWrblk
  | 0x14 => some .prsRdblk
  | 0x19 => some .prsWrbo
  | 0x1A => some .prsRdbo
  | 0x1B => some .prsWrblko
  | 0x1C => some .prsRdblko
  | 0x20 => some .gpioCfg
  | 0x22 => some .gpioRdmode
  | 0x30 => if hasSfp then some .sfpPoll else none
  | _ => none

/-- The length of the frame's fixed part, byte 0 included (R91; the two block writes add `n`). -/
def Opcode.headerLength : Opcode → Nat
  | .muxSel => 2
  | .muxClose => 1
  | .inval => 2
  | .prsEnsure => 1
  | .prsWrb => 4
  | .prsRdb => 3
  | .prsWrblk => 4
  | .prsRdblk => 4
  | .prsWrbo => 6
  | .prsRdbo => 5
  | .prsWrblko => 6
  | .prsRdblko => 6
  | .gpioCfg => 3
  | .gpioRdmode => 2
  | .sfpPoll => 2

/-- Format Z of R91: the opcode alone. -/
def formatZ (i : Instr) : List Byte → Except DecodeError Instr
  | [] => .ok i
  | _ => .error .wrongLength

/-- Format C of R91: `op, a`. -/
def formatC (f : Byte → Except DecodeError Instr) : List Byte → Except DecodeError Instr
  | [a] => f a
  | _ => .error .wrongLength

/-- Format A0 of R91: `op, addr_lo, addr_hi`. -/
def formatA0 (f : Addr → Instr) : List Byte → Except DecodeError Instr
  | [lo, hi] => .ok (f (u16le lo hi))
  | _ => .error .wrongLength

/-- Format A1 of R91: `op, addr_lo, addr_hi, d`. -/
def formatA1 (f : Addr → Byte → Instr) : List Byte → Except DecodeError Instr
  | [lo, hi, d] => .ok (f (u16le lo hi) d)
  | _ => .error .wrongLength

/-- Format AP of R91: `op, addr_lo, addr_hi, n, p[0], ..., p[n-1]`; a length other than `4 + n` is illegal (R94). -/
def formatAP (f : Addr → List Byte → Instr) : List Byte → Except DecodeError Instr
  | lo :: hi :: n :: data =>
    if data.length = n.toNat then .ok (f (u16le lo hi) data) else .error .wrongLength
  | _ => .error .wrongLength

/-- Format B0 of R91: `op, base_lo, base_hi, off_lo, off_hi`. -/
def formatB0 (f : Addr → Addr → Instr) : List Byte → Except DecodeError Instr
  | [baseLo, baseHi, offLo, offHi] => .ok (f (u16le baseLo baseHi) (u16le offLo offHi))
  | _ => .error .wrongLength

/-- Format B1 of R91: `op, base_lo, base_hi, off_lo, off_hi, d`. -/
def formatB1 (f : Addr → Addr → Byte → Instr) : List Byte → Except DecodeError Instr
  | [baseLo, baseHi, offLo, offHi, d] => .ok (f (u16le baseLo baseHi) (u16le offLo offHi) d)
  | _ => .error .wrongLength

/-- Format BP of R91: `op, base_lo, base_hi, off_lo, off_hi, n, p[0], ..., p[n-1]`. -/
def formatBP (f : Addr → Addr → List Byte → Instr) : List Byte → Except DecodeError Instr
  | baseLo :: baseHi :: offLo :: offHi :: n :: data =>
    if data.length = n.toNat then .ok (f (u16le baseLo baseHi) (u16le offLo offHi) data)
    else .error .wrongLength
  | _ => .error .wrongLength

/-- Format G of R91: `op, pin, ctl`. -/
def formatG (f : Byte → Byte → Except DecodeError Instr) : List Byte → Except DecodeError Instr
  | [pin, ctl] => f pin ctl
  | _ => .error .wrongLength

/-- R94: bits 7:2 of a byte, which are zero in a legal `mask` and a legal `ctl`. -/
def reservedClear (b : Byte) : Bool := b.extractLsb' 2 6 == 0

/-- `INVAL`'s operand (R133): bits 7:2 must be zero. -/
def decodeMask (m : Byte) : Except DecodeError Instr :=
  if reservedClear m then .ok (.inval (m.extractLsb' 0 2)) else .error .reservedBits

/-- Format G's operands (R91): `ctl[0]` is `value`, `ctl[1]` is `mode` (0 Input, 1 Output), `ctl[7:2]` must be zero. -/
def decodeConfigure (pin ctl : Byte) : Except DecodeError Instr :=
  if reservedClear ctl then
    if ctl.getLsbD 1 then .ok (.gpioCfgout pin (ctl.getLsbD 0)) else .ok (.gpioCfgin pin (ctl.getLsbD 0))
  else .error .reservedBits

/-- R93, R95: the operands after byte 0, in the format the opcode selects. -/
def decodeOperands : Opcode → List Byte → Except DecodeError Instr
  | .muxSel => formatC fun chan => .ok (.muxSel chan)
  | .muxClose => formatZ .muxClose
  | .inval => formatC decodeMask
  | .prsEnsure => formatZ .prsEnsure
  | .prsWrb => formatA1 .prsWrb
  | .prsRdb => formatA0 .prsRdb
  | .prsWrblk => formatAP .prsWrblk
  | .prsRdblk => formatA1 .prsRdblk
  | .prsWrbo => formatB1 .prsWrbo
  | .prsRdbo => formatB0 .prsRdbo
  | .prsWrblko => formatBP .prsWrblko
  | .prsRdblko => formatB1 .prsRdblko
  | .gpioCfg => formatG decodeConfigure
  | .gpioRdmode => formatC fun pin => .ok (.gpioRdmode pin)
  | .sfpPoll => formatC fun slot => .ok (.sfpPoll slot)

/-- R95, R96: "A decoder reads `b[0]`, looks up the format, and checks `L`". A sequence of no bytes is no frame (R90); it is
answered as one whose opcode is reserved (DEDUCED, notes/assumptions/5.md, safe). -/
def decodeFrame (hasSfp : Bool) : List Byte → Except DecodeError Instr
  | [] => .error .reservedOpcode
  | op :: operands =>
    match opcodeOf hasSfp op with
    | none => .error .reservedOpcode
    | some k => decodeOperands k operands

/-! ### The encoder -/

/-- The opcode of a command (R93). -/
def Instr.opcode : Instr → Opcode
  | .muxSel _ => .muxSel
  | .muxClose => .muxClose
  | .inval _ => .inval
  | .prsEnsure => .prsEnsure
  | .prsWrb _ _ => .prsWrb
  | .prsRdb _ => .prsRdb
  | .prsWrblk _ _ => .prsWrblk
  | .prsRdblk _ _ => .prsRdblk
  | .prsWrbo _ _ _ => .prsWrbo
  | .prsRdbo _ _ => .prsRdbo
  | .prsWrblko _ _ _ => .prsWrblko
  | .prsRdblko _ _ _ => .prsRdblko
  | .gpioCfgin _ _ => .gpioCfg
  | .gpioCfgout _ _ => .gpioCfg
  | .gpioRdmode _ => .gpioRdmode
  | .sfpPoll _ => .sfpPoll

/-- R91, R100: the `ctl` byte of format G, `mode` in bit 1 and `value` in bit 0. -/
def controlByte (output value : Bool) : Byte := (0 : BitVec 6) ++ BitVec.ofBool output ++ BitVec.ofBool value

/-- The byte count field `n` of a block write (R91). -/
def countByte (data : List Byte) : Byte := BitVec.ofNat 8 data.length

/-- R91: the bytes of a command after byte 0. -/
def encodeOperands : Instr → List Byte
  | .muxSel chan => [chan]
  | .muxClose => []
  | .inval mask => [(0 : BitVec 6) ++ mask]
  | .prsEnsure => []
  | .prsWrb addr val => bytesLE addr ++ [val]
  | .prsRdb addr => bytesLE addr
  | .prsWrblk addr data => bytesLE addr ++ countByte data :: data
  | .prsRdblk addr cnt => bytesLE addr ++ [cnt]
  | .prsWrbo base off val => bytesLE base ++ bytesLE off ++ [val]
  | .prsRdbo base off => bytesLE base ++ bytesLE off
  | .prsWrblko base off data => bytesLE base ++ bytesLE off ++ countByte data :: data
  | .prsRdblko base off cnt => bytesLE base ++ bytesLE off ++ [cnt]
  | .gpioCfgin pin value => [pin, controlByte false value]
  | .gpioCfgout pin value => [pin, controlByte true value]
  | .gpioRdmode pin => [pin]
  | .sfpPoll slot => [slot]

/-- The frame of a command, byte 0 first (R91, R93). -/
def encode (i : Instr) : List Byte := i.opcode.toByte :: encodeOperands i

/-! ### The machine-readable table (30_encoding.md section 5) -/

/-- A row of spec/opcode_table.json: `match` and `mask` "read that header as one big-endian number (byte 0 most
significant)"; `length` is the header's length. -/
structure OpcodeRow where
  mnemonic : String
  matchBits : Nat
  maskBits : Nat
  length : Nat
  /-- `payload_len_field`: the frame's length is `length + n`. -/
  payload : Bool
deriving DecidableEq, Repr

/-- spec/opcode_table.json, in its order. -/
def opcodeTable : List OpcodeRow :=
  [⟨"MUX.SEL", 0x0100, 0xFF00, 2, false⟩, ⟨"MUX.CLOSE", 0x02, 0xFF, 1, false⟩,
   ⟨"INVAL", 0x0300, 0xFFFC, 2, false⟩, ⟨"PRS.ENSURE", 0x10, 0xFF, 1, false⟩] ++
  [⟨"PRS.WRB", 0x11000000, 0xFF000000, 4, false⟩, ⟨"PRS.RDB", 0x120000, 0xFF0000, 3, false⟩,
   ⟨"PRS.WRBLK", 0x13000000, 0xFF000000, 4, true⟩, ⟨"PRS.RDBLK", 0x14000000, 0xFF000000, 4, false⟩] ++
  [⟨"PRS.WRBO", 0x190000000000, 0xFF0000000000, 6, false⟩, ⟨"PRS.RDBO", 0x1A00000000, 0xFF00000000, 5, false⟩,
   ⟨"PRS.WRBLKO", 0x1B0000000000, 0xFF0000000000, 6, true⟩, ⟨"PRS.RDBLKO", 0x1C0000000000, 0xFF0000000000, 6, false⟩] ++
  [⟨"GPIO.CFGIN", 0x200000, 0xFF00FE, 3, false⟩, ⟨"GPIO.CFGOUT", 0x200002, 0xFF00FE, 3, false⟩,
   ⟨"GPIO.RDMODE", 0x2200, 0xFF00, 2, false⟩, ⟨"SFP.POLL", 0x3000, 0xFF00, 2, false⟩]

/-- Bytes read as one big-endian number, byte 0 most significant (30_encoding.md section 5). -/
def bigEndian (bytes : List Byte) : Nat := bytes.foldl (fun acc b => acc * 256 + b.toNat) 0

/-- 30_encoding.md section 5: a frame matches a row when `(header & mask) == match` and its length is the row's (with the
payload length that the header's last byte names, where the row has one). -/
def OpcodeRow.matches (row : OpcodeRow) (frame : List Byte) : Bool :=
  let header := frame.take row.length
  (bigEndian header &&& row.maskBits == row.matchBits) &&
    (frame.length == row.length + if row.payload then (byteAt header (row.length - 1)).toNat else 0)

/-- The row of a command: its `mnemonic`. -/
def Instr.mnemonic : Instr → String
  | .muxSel _ => "MUX.SEL"
  | .muxClose => "MUX.CLOSE"
  | .inval _ => "INVAL"
  | .prsEnsure => "PRS.ENSURE"
  | .prsWrb _ _ => "PRS.WRB"
  | .prsRdb _ => "PRS.RDB"
  | .prsWrblk _ _ => "PRS.WRBLK"
  | .prsRdblk _ _ => "PRS.RDBLK"
  | .prsWrbo _ _ _ => "PRS.WRBO"
  | .prsRdbo _ _ => "PRS.RDBO"
  | .prsWrblko _ _ _ => "PRS.WRBLKO"
  | .prsRdblko _ _ _ => "PRS.RDBLKO"
  | .gpioCfgin _ _ => "GPIO.CFGIN"
  | .gpioCfgout _ _ => "GPIO.CFGOUT"
  | .gpioRdmode _ => "GPIO.RDMODE"
  | .sfpPoll _ => "SFP.POLL"

/-! ### Words of the table -/

/-- The `count` bytes of a number, most significant first. -/
def bigEndianBytes : Nat → Nat → List Byte
  | 0, _ => []
  | count + 1, w => BitVec.ofNat 8 (w >>> (8 * count)) :: bigEndianBytes count w

/-- The frame of a table word. The table numbers a header as ONE big-endian number, byte 0 in its most significant bits
(30_encoding.md section 5; its row for `MUX.SEL` has the opcode in bits 15 to 8), so that is how the bytes are laid out; a
header given fewer bits than its opcode requires goes on with zeros (notes/assumptions/6.md, DEDUCED, safe). -/
def tableFrame (nbits w : Nat) : List Byte :=
  let bytes := bigEndianBytes (nbits / 8) w
  match bytes with
  | [] => []
  | op :: _ =>
    match opcodeOf true op with
    | none => bytes
    | some k => bytes ++ List.replicate (k.headerLength - bytes.length) 0

/-- The command this decoder reads from a table word, for the configuration of `State.reset` (`HAS_SFP` true, R5's
default). -/
def decodeTableWord (nbits w : Nat) : Option Instr := (decodeFrame true (tableFrame nbits w)).toOption

end Sys2Proof
end

