-- ==== Sys2Proof/Machine/Port.lean ====
section
/-! DEFINITION. The records of the bus master port (spec/20_memory.md rule R51 and rule R52): a request, its completion, and
the two together as the environment sees them. Plain data; what they do is in Machine/Bus.lean. -/

namespace Sys2Proof

/-- R52: one request on the bus master port, `(kind, dev, reg, data)`. -/
inductive BusRequest where
  /-- `WB(dev, reg, byte)`: write one byte. -/
  | wb (dev : DevAddr) (reg : Byte) (value : Byte)
  /-- `WK(dev, reg, [bytes])`: write a block, byte `i` to register `reg + i` (R56 (b)). -/
  | wk (dev : DevAddr) (reg : Byte) (bytes : List Byte)
  /-- `RB(dev, reg)`: read one byte. -/
  | rb (dev : DevAddr) (reg : Byte)
  /-- `RK(dev, reg, n)`: read a block of `n` bytes. -/
  | rk (dev : DevAddr) (reg : Byte) (count : Nat)
deriving DecidableEq, Repr

/-- R51, R52: how a request ended. `ok` and `fail` are the two completions of R52; `never` is the transaction that the
environment never completes (R241); `abandoned` is the transaction in flight when the reset input is asserted (R260). -/
inductive BusCompletion where
  | ok (bytes : List Byte)
  | fail
  | never
  | abandoned
deriving DecidableEq, Repr

/-- R52: an element of a *trace*: "the ordered list of its requests with their completions". -/
structure BusRecord where
  request : BusRequest
  completion : BusCompletion
deriving DecidableEq, Repr

/-- R51, R241: the ways in which an environment that nothing constrains can end a transaction: success, the failure
`BusError`, or never. -/
inductive BusEnd where
  | success
  | failure
  | never
deriving DecidableEq, Repr, Inhabited

end Sys2Proof
end

