-- ==== Sys2Proof/Config.lean ====
section
/-! DEFINITION. What one implementation fixes (the parameters of spec/00_scope.md rule R5) and the free values: what the
environment answers is not in the spec, so it is the opaque constants below, with no body.

The parameters are a record that State holds and no command changes (R5: "They are constants of one configuration: no command
changes them"), so that a statement about every state is a statement about every parameter set ("OPEN" means the model takes
the value as an argument; DESIGN CHOICE, notes/assumptions/1.md, safe). -/

namespace Sys2Proof

/-- R5, R184: how the second group-register write of an output configure gets its value. -/
inductive Relatch where
  /-- `REREAD`: read the group register again and write that byte back. -/
  | reread
  /-- `REUSE`: write the modified byte a second time without reading. -/
  | reuse
deriving DecidableEq, Repr

/-- R5: the parameters. The names are the spec's in lower camel case. `SLOT_CHANNEL` and `NO_CHANNEL`, to which the source
gives values, are `slotChannel` and `noChannel` in Machine/Params.lean. -/
structure Params where
  muxAddr : DevAddr
  muxReg : Byte
  dpllAddr : DevAddr
  dpllChannel : Byte
  pageReg : Byte
  gpioBase : Vector Addr 16
  groupLo : Addr
  groupHi : Addr
  levelAddr : Addr
  sfpInfoAddr : DevAddr
  sfpDiagAddr : DevAddr
  hasSfp : Bool
  /-- 1 to 255 (the range is part of `Params.WellFormed`). -/
  maxBlock : Nat
  gpioRelatch : Relatch
  trimSet : List Byte
  singleOwner : Bool
deriving DecidableEq, Repr

/-- The synthetic test parameter set T0 of spec/95_test_vectors.md section 1, with the defaults R5 gives for `HAS_SFP`,
`MAX_BLOCK`, `GPIO_RELATCH`, `TRIM_SET` and `SINGLE_OWNER`. The source gives no address a value; T0 is what
`Machine.State.reset` holds only because a state is one value, and no statement rests on it (DESIGN CHOICE,
notes/assumptions/2.md, unsafe). -/
def Params.t0 : Params where
  muxAddr := 0x70
  muxReg := 0x00
  dpllAddr := 0x58
  dpllChannel := 0x08
  pageReg := 0xFC
  gpioBase := #v[0xC800, 0xC820, 0xC840, 0xC860, 0xC880, 0xC8A0, 0xC8C0, 0xC8E0,
                 0xC900, 0xC920, 0xC940, 0xC960, 0xC980, 0xC9A0, 0xC9C0, 0xC9E0]
  groupLo := 0xC160
  groupHi := 0xC161
  levelAddr := 0xC162
  sfpInfoAddr := 0x50
  sfpDiagAddr := 0x51
  hasSfp := true
  maxBlock := 32
  gpioRelatch := .reread
  trimSet := [0x00, 0x20]
  singleOwner := true

/-- FREE VALUE (notes/assumptions/3.md): how the environment ends a transaction, from everything the bus master port has
carried before it and the request itself (R51: "all may fail"; R241). -/
opaque Config.busEnd : List BusRecord → BusRequest → BusEnd

/-- FREE VALUE (notes/assumptions/3.md): byte `i` of what the environment answers to a read, from everything the bus master
port has carried before it and the request itself (R156: "whatever the bus environment answers"; U4, U13, U14). -/
opaque Config.busByte : List BusRecord → BusRequest → Nat → Byte

end Sys2Proof
end

