-- ==== Sys2Proof/Machine/State.lean ====
section
/-! DEFINITION. The state, as plain data: the core's own state (spec/10_state.md rules R20, R23, R24, R25), the four interfaces
of spec/00_scope.md rule R11, and the environment behind the bus master port (R9 (3), R9 (4), R34, R70). INVENTORY.md lists
every field with its rule and its reset value. -/

namespace Sys2Proof.Machine

/-- A byte memory: cells at strictly rising addresses, none of them holding `0x00`, which is what an unlisted address reads
as (spec/95_test_vectors.md section 1: "DPLL memory not yet written reads `0x00`"). The canonical form is `Memory.wf`. -/
abbrev Memory := List Host.Cell

/-- One SFP cage of the reference environment (R70): each of its two regions is "absent or 256 bytes". -/
structure Cage where
  info : Option Memory
  diag : Option Memory
deriving DecidableEq, Repr

/-- The devices of the reference environment (R70): the hidden state the caches stand for (R34) and the device-side
registers of R28 to R33. -/
structure Devices where
  /-- `dev_mux_sel` (R34). -/
  muxSel : Byte
  /-- `dev_win_upper` (R34). -/
  winUpper : Byte
  /-- `dpll_mem`, 65536 bytes (R70). -/
  dpllMem : Memory
  /-- `sfp_info[s]` and `sfp_diag[s]` of the four cages; cage of slot `s` at index `s - 1` (R70). -/
  cages : Vector Cage 4
  /-- The external input of each pin, bit `p` for pin `p` (R70). -/
  ext : BitVec 16
deriving DecidableEq, Repr

/-- What the environment does next. Every behaviour the spec allows it between two completions of the core's transactions is
one of these; a state holds the coming ones in order. `taken` says how many bytes of a write the device took although the
transaction did not succeed (U3 allows none, all, or any prefix of a block). -/
inductive BusEvent where
  /-- The next transaction succeeds; a read returns these bytes, the first `count` of them; bytes not given are free. -/
  | reply (bytes : List Byte)
  /-- The next transaction reports success, with these bytes for a read, and has no effect on the devices (R66 (c): "one that
  reported success did not take effect"). -/
  | lost (bytes : List Byte)
  /-- The next transaction fails with `BusError` (R51). -/
  | fail (taken : Nat)
  /-- The next transaction never completes (R241). -/
  | hang (taken : Nat)
  /-- The reset input is asserted while the next transaction is in flight (R260). -/
  | reset (taken : Nat)
  /-- The environment answers the next transaction by itself: the reference devices where there are any, else as nothing
  constrains it. A script that has run out goes on with this. -/
  | answer
  /-- Before the next transaction the pins' external inputs change. -/
  | pins (ext : BitVec 16)
  /-- Before the next transaction an external actor changes device-side state to this (R9 (4), U12); nothing happens under
  `SINGLE_OWNER`. -/
  | external (devices : Devices)
deriving DecidableEq, Repr

/-- The bus environment (R9 (3)). -/
structure BusEnv where
  script : List BusEvent
  /-- `some d`: the devices behind the bus are those of the reference environment, in state `d`. `none`: nothing is known of
  them, and what they answer is free (R70: "a model's claims must hold for every environment answer"; U10). -/
  devices : Option Devices
deriving DecidableEq, Repr

/-- The error that ends a command (R230, R231); `busError e` carries the `tix` that the response reports. -/
inductive CommandError where
  | busError (info : BitVec 8)
  | invalidArgument
  | illegalCommand
deriving DecidableEq, Repr

/-- A line of a command's procedure, with its operands: it issues at most one bus transaction. The lines that name a logical
address are those of a paged access (R153), whose data transaction goes to `DPLL_ADDR` at `reg = lower`. -/
inductive Line where
  /-- `MuxSelect(chan)` (R130). -/
  | muxSelect (chan : Byte)
  /-- `SelectSlot(chan)` (R208). -/
  | selectSlot (chan : Byte)
  /-- `CloseMux()` (R207), and the release attempt of R208. -/
  | closeMux
  /-- `PageSelect(upper, lower)` of an address (R151). -/
  | pageSelect (addr : Addr)
  /-- `BusWriteByte(DPLL_ADDR, lower, v)`. -/
  | writeByte (addr : Addr) (v : Byte)
  /-- `BusWriteBlock(DPLL_ADDR, lower, bytes)`. -/
  | writeBlock (addr : Addr) (bytes : List Byte)
  /-- `BusReadByte(DPLL_ADDR, lower)`. -/
  | readByte (addr : Addr)
  /-- `BusReadBlock(DPLL_ADDR, lower, n)`. -/
  | readBlock (addr : Addr) (n : Nat)
  /-- A byte write of the last byte read, with bit `k` set or cleared (R183 steps 2 and 3; step 4 where `GPIO_RELATCH` is
  `REUSE`). -/
  | writeModified (addr : Addr) (k : Nat) (value : Bool)
  /-- A byte write of the last byte read, as it is (R183 step 4). -/
  | writeBack (addr : Addr)
  /-- `BusReadBlock(SFP_INFO_ADDR, reg, 32)`, whose failure is tolerated (R203). -/
  | readInfo (reg : Byte)
  /-- `BusReadBlock(SFP_DIAG_ADDR, reg, 32)`, whose failure is tolerated (R205). -/
  | readDiag (reg : Byte)
  /-- `BusReadByte(SFP_DIAG_ADDR, 110)`, whose failure is tolerated (R206). -/
  | readStatus
  /-- The effect of `INVAL mask` (R133); it issues nothing. -/
  | invalidate (mask : BitVec 2)
deriving DecidableEq, Repr

/-- What the payload of an `OK` response is made of (R97). -/
inductive Reply where
  /-- Nothing. -/
  | empty
  /-- The bytes read (R156, R160). -/
  | bytesRead
  /-- The mode and the level of a pin in range (R185). -/
  | pinMode (p : Fin 16)
  /-- Mode Unknown, level 0, for an out-of-range pin (R181). -/
  | unknownPin
  /-- The 60 bytes of a poll (R214). -/
  | pollResult
deriving DecidableEq, Repr

/-- How a command ends when no line is left (R8): `respond OK(payload)`, or `raise`. -/
inductive Ending where
  | respond (reply : Reply)
  | raise (e : CommandError)
deriving DecidableEq, Repr

/-- The operand latches (R24): what the core holds of a command only while it executes it. -/
structure Work where
  /-- The lines still to be executed, with the fields `F.*` of the frame in them. -/
  todo : List Line
  /-- The bytes read from the bus during the command, in order. -/
  bytes : List Byte
  ending : Ending
deriving DecidableEq, Repr

/-- The sequencer (R23): "`seq`, one of `Idle` or `Busy`, and, while `Busy`, `tix`", with the command's latches (R24). Without
`work` the core is `Busy` with a transaction in flight that never completes (R241). -/
inductive Seq where
  | idle
  | busy (tix : BitVec 8) (work : Option Work)
deriving DecidableEq, Repr

structure State where
  /-- The parameters (R5); no command changes them. -/
  cfg : Params
  /-- `mux_valid` and `mux_chan` (R20): `none` is `mux_valid = 0`. -/
  mux : Option Byte
  /-- `page_valid` and `page_upper` (R20): `none` is `page_valid = 0`. -/
  page : Option Byte
  /-- `seq`, `tix` and the latches (R23, R24). -/
  seq : Seq
  /-- The command port (R11 (a)): the frames the host offers, the next one first; one waits here while the core is `Busy`. -/
  cmdPort : List (List Byte)
  /-- The reset input (R11 (d)) as the host will drive it: each step reads one element first, `true` when it is asserted; when
  none is left it is not asserted. -/
  resetIn : List Bool
  /-- The response port (R11 (b)): every response frame emitted, oldest first. -/
  respPort : List (List Byte)
  /-- The bus master port (R11 (c)): every request with its completion, oldest first (the traces of R52, one after
  another). -/
  busLog : List BusRecord
  /-- What stands behind the bus master port. -/
  env : BusEnv
deriving DecidableEq, Repr

/-- No step of this core ends in a fault: every error of the spec is reported in a response (R230) and a hung bus is a state
(R241), so there is no constructor. -/
inductive Fault where
deriving DecidableEq, Repr

/-- Why a step has no meaning. -/
inductive Refusal where
  /-- Raised by an arm of `exec` that has no meaning yet; safe. -/
  | notModelled (mnemonic : String)
  /-- Raised by every command and every step when the parameter set is not well-formed (R6: "a model should refuse any other
  set"; U16); safe. -/
  | illFormedParameters
deriving DecidableEq, Repr

/-- R35: the state after the reset input is asserted and released, at the parameter set that the log names
(notes/assumptions/2.md), with nothing offered, nothing emitted, and an environment of which nothing is known (R262: "A model
starts the environment in an arbitrary state"). -/
def State.reset : State where
  cfg := Params.t0
  mux := none
  page := none
  seq := .idle
  cmdPort := []
  resetIn := []
  respPort := []
  busLog := []
  env := { script := [], devices := none }

end Sys2Proof.Machine
end

