-- ==== Sys2Proof/Machine/Memory.lean ====
section
/-! DEFINITION. Byte memories of the reference environment (spec/20_memory.md rule R70): reading, writing and the canonical
form. -/

namespace Sys2Proof.Machine

/-- The canonical form: addresses strictly rising, no cell holding the byte an unlisted address reads as. -/
abbrev Memory.wf (m : Memory) : Prop := (m.map (·.1)).Pairwise (· < ·) ∧ ∀ c ∈ m, c.2 ≠ 0

/-- What an unlisted address reads as: "DPLL memory not yet written reads `0x00`" (spec/95_test_vectors.md section 1;
notes/assumptions/12.md). -/
def Memory.unlisted : Byte := 0x00

/-- Read one byte. -/
def Memory.read : Memory → Nat → Byte
  | [], _ => Memory.unlisted
  | (k, v) :: m, a => if a = k then v else Memory.read m a

/-- Write one byte and keep the canonical form: writing what an unlisted address reads as removes the entry. -/
def Memory.write : Memory → Nat → Byte → Memory
  | [], a, b => if b = Memory.unlisted then [] else [(a, b)]
  | (k, v) :: m, a, b =>
    if a < k then (if b = Memory.unlisted then (k, v) :: m else (a, b) :: (k, v) :: m)
    else if a = k then (if b = Memory.unlisted then m else (a, b) :: m)
    else (k, v) :: Memory.write m a b

end Sys2Proof.Machine
end

