-- ==== Sys2Proof/Machine/Params.lean ====
section
/-! DEFINITION. The parameters that have values in the source, and which parameter sets are well-formed (spec/00_scope.md rule
R5 and rule R6). -/

namespace Sys2Proof

/-- R5, R132: `NO_CHANNEL`, the "no channel" mux value. -/
def noChannel : Byte := 0x00

/-- R201: `SLOT_CHANNEL`, by slot index 0 to 3 for the slots 1 to 4. -/
def slotChannel (slot : Fin 4) : Byte :=
  match slot with
  | 0 => 0x01
  | 1 => 0x02
  | 2 => 0x20
  | 3 => 0x40

/-- R30, R180: the logical address of pin `p`'s control register, `GPIO_BASE[p] + 0x10`. -/
def Params.pinControl (c : Params) (p : Fin 16) : Addr := c.gpioBase.get p + 0x10#16

/-- R180: `G(p)`, the group register of pin `p`: `GROUP_LO` when `p <= 7`, `GROUP_HI` when `p >= 8`. -/
def Params.groupOf (c : Params) (p : Fin 16) : Addr := if p.val ≤ 7 then c.groupLo else c.groupHi

/-- R180: `k(p) = p mod 8`, the pin's bit in its group register. -/
def groupBit (p : Fin 16) : Nat := p.val % 8

/-- R63: whether a device register address lies in `PAGE_REG .. PAGE_REG+3`, a range of numbers, which does not wrap (DEDUCED,
notes/assumptions/25.md). -/
abbrev Params.InPagingRegister (c : Params) (reg : Byte) : Prop :=
  c.pageReg.toNat ≤ reg.toNat ∧ reg.toNat ≤ c.pageReg.toNat + 3

/-- R6: a parameter set is well-formed. (e)'s "are device addresses" is the type of the four addresses. The last line is
the range R5 gives `MAX_BLOCK`. -/
abbrev Params.WellFormed (c : Params) : Prop :=
  -- (a)
  c.dpllChannel ≠ noChannel ∧ (c.hasSfp = true → ∀ s : Fin 4, c.dpllChannel ≠ slotChannel s) ∧
  -- (b)
  (∀ p : Fin 16, (c.gpioBase.get p).toNat + 0x10 ≤ 0xFFFF) ∧
  -- (c)
  (lowerOf c.levelAddr).toNat ≤ 0xFE ∧
  -- (d)
  ((∀ p : Fin 16, ¬ c.InPagingRegister (lowerOf (c.pinControl p))) ∧
    ¬ c.InPagingRegister (lowerOf c.groupLo) ∧ ¬ c.InPagingRegister (lowerOf c.groupHi) ∧
    ¬ c.InPagingRegister (lowerOf c.levelAddr) ∧ ¬ c.InPagingRegister (lowerOf (c.levelAddr + 1))) ∧
  -- (e)
  c.sfpInfoAddr ≠ c.sfpDiagAddr ∧
  -- R5
  1 ≤ c.maxBlock ∧ c.maxBlock ≤ 255

/-- R57, R63: `n` bytes from register `reg` are in-page and clear of the paging register. -/
abbrev Params.BlockClear (c : Params) (reg : Byte) (n : Nat) : Prop :=
  reg.toNat + n ≤ 256 ∧ (reg.toNat + n ≤ c.pageReg.toNat ∨ c.pageReg.toNat + 3 < reg.toNat)

/-- R32: a logical address of the level-readback register: `LEVEL_ADDR` or `LEVEL_ADDR + 1`. -/
abbrev Params.IsLevelAddr (c : Params) (a : Nat) : Prop := a = c.levelAddr.toNat ∨ a = c.levelAddr.toNat + 1

/-- R58: a block count from 1 to `MAX_BLOCK`. -/
abbrev Params.BlockCount (c : Params) (n : Nat) : Prop := n ≠ 0 ∧ n ≤ c.maxBlock

end Sys2Proof
end

