-- ==== Sys2Proof/Machine/Devices.lean ====
section
/-! DEFINITION. The reference environment (spec/20_memory.md rule R70): what the multiplexer, the DPLL and the SFP cages do
with a transaction. "It is not a fact about the hardware": a state has these devices only where `BusEnv.devices` says so, and
an access whose device effect the spec leaves undefined (U1, U2) leaves the environment unknown. -/

namespace Sys2Proof.Machine

/-- The canonical form of the device memories, inside their address ranges (R70). -/
abbrev Cage.wf (c : Cage) : Prop :=
  (∀ m ∈ c.info, Memory.wf m ∧ ∀ x ∈ m, x.1 < 256) ∧ (∀ m ∈ c.diag, Memory.wf m ∧ ∀ x ∈ m, x.1 < 256)

/-- The form of a reference environment's data: every memory canonical and inside its address range. -/
abbrev Devices.wf (d : Devices) : Prop :=
  Memory.wf d.dpllMem ∧ (∀ x ∈ d.dpllMem, x.1 < 65536) ∧ ∀ s : Fin 4, (d.cages.get s).wf

/-- What a request means to the devices. -/
inductive DeviceAccess where
  /-- The mux control write (R28). -/
  | muxSelect (chan : Byte)
  /-- The window write (R29): `upper` is byte 1. -/
  | window (upper : Byte)
  /-- A write of DPLL memory from a logical address on (R53). -/
  | dpllWrite (at_ : Nat) (bytes : List Byte)
  /-- A read of DPLL memory from a logical address on (R53). -/
  | dpllRead (at_ : Nat) (count : Nat)
  /-- A read of a present SFP region from an offset on (R69). -/
  | sfpRead (region : Memory) (offset : Nat) (count : Nat)
  /-- The spec leaves the device effect undefined (U1, U2) or does not state it. -/
  | undefinedEffect
  /-- Nobody answers: the transaction fails. -/
  | nobody
deriving DecidableEq, Repr

/-- R53: the logical address that register `reg` stands for. -/
def Devices.logical (d : Devices) (reg : Byte) : Nat := d.winUpper.toNat * 256 + reg.toNat

/-- An access of `n` bytes at register `reg` of the connected DPLL, other than a window write (U1, U2). -/
def Devices.dpllAccess (c : Params) (reg : Byte) (n : Nat) (defined : DeviceAccess) : DeviceAccess :=
  if c.BlockClear reg n then defined else .undefinedEffect

/-- R70: the cage of the slot whose channel the multiplexer has selected. -/
def Devices.selectedCage (d : Devices) : Option Cage :=
  if d.muxSel = slotChannel 0 then some (d.cages.get 0)
  else if d.muxSel = slotChannel 1 then some (d.cages.get 1)
  else if d.muxSel = slotChannel 2 then some (d.cages.get 2)
  else if d.muxSel = slotChannel 3 then some (d.cages.get 3)
  else none

/-- R62: whether a request to `dev` reaches the DPLL: it stands at `DPLL_ADDR` on the sub-bus of `DPLL_CHANNEL`. -/
abbrev Devices.ReachesDpll (c : Params) (d : Devices) (dev : DevAddr) : Prop := dev = c.dpllAddr ∧ d.muxSel = c.dpllChannel

/-- R33, R62, R70: the region that a request to `dev` reaches, in the cage on the sub-bus that the multiplexer connects, if it is
present. The regions are there "only with `HAS_SFP`", where no cage has the DPLL's channel (R6 (a)). -/
def Devices.cageRegion (c : Params) (d : Devices) (dev : DevAddr) : Option Memory :=
  if c.hasSfp = false then none
  else if dev = c.sfpInfoAddr then d.selectedCage.bind (·.info)
  else if dev = c.sfpDiagAddr then d.selectedCage.bind (·.diag)
  else none

/-- R70: a read of a region: it answers only when the region is present. -/
def regionRead (region : Option Memory) (reg : Byte) (n : Nat) : DeviceAccess :=
  match region with
  | none => .nobody
  | some m => if reg.toNat + n ≤ 256 then .sfpRead m reg.toNat n else .undefinedEffect

/-- A write that reaches a region: "The core only reads these regions" (R33), and what a write does there is not said. It can only
be one made for the DPLL, at an address that is both `DPLL_ADDR` and an SFP address, with a stale mux cache. -/
def regionWrite (region : Option Memory) : DeviceAccess :=
  match region with
  | none => .nobody
  | some _ => .undefinedEffect

/-- R62, R70: a read of `n` bytes, of the device on the connected sub-bus that stands at the address: where R6 lets addresses
coincide, the channel decides. -/
def Devices.classifyRead (c : Params) (d : Devices) (dev : DevAddr) (reg : Byte) (n : Nat) : DeviceAccess :=
  if d.ReachesDpll c dev then Devices.dpllAccess c reg n (.dpllRead (d.logical reg) n)
  else regionRead (d.cageRegion c dev) reg n

/-- R70: what a request means to the devices. The multiplexer is "reachable whatever is selected" (R62); where R6 lets `MUX_ADDR`
be the address of a downstream device too, the mux control write goes to the multiplexer alone (DESIGN CHOICE: the spec does not
say what the other device makes of it, notes/assumptions/21.md). `window` says that the request is the window write of a
`PageSelect` (R29), which moves the window at every `PAGE_REG`, also above 0xFC, where its bytes run past register 0xFF (DESIGN
CHOICE between R29, R70 and R57, U1, notes/assumptions/25.md); the same request made by a host's block write at
`lower = PAGE_REG` has no meaning (R63, U2; notes/assumptions/11.md). -/
def Devices.classify (c : Params) (d : Devices) (window : Bool) : BusRequest → DeviceAccess
  | .wb dev reg value =>
    if dev = c.muxAddr ∧ reg = c.muxReg then .muxSelect value
    else if d.ReachesDpll c dev then Devices.dpllAccess c reg 1 (.dpllWrite (d.logical reg) [value])
    else regionWrite (d.cageRegion c dev)
  | .wk dev reg bytes =>
    if d.ReachesDpll c dev then
      if window ∧ reg = c.pageReg ∧ bytes.length = 4 then .window (byteAt bytes 1)
      else Devices.dpllAccess c reg bytes.length (.dpllWrite (d.logical reg) bytes)
    else regionWrite (d.cageRegion c dev)
  | .rb dev reg => Devices.classifyRead c d dev reg 1
  | .rk dev reg count => Devices.classifyRead c d dev reg count

/-- R70: the level bit of pin `p`: "when the control byte of `p` has bit 2 = 1 and bit 0 = 0 the level bit is bit `p mod 8`
of the pin's group register, otherwise it is an external input". -/
def Devices.levelBit (c : Params) (d : Devices) (p : Fin 16) : Bool :=
  let ctl := Memory.read d.dpllMem (c.pinControl p).toNat
  if ctl.getLsbD 2 && !ctl.getLsbD 0 then (Memory.read d.dpllMem (c.groupOf p).toNat).getLsbD (groupBit p)
  else d.ext.getLsbD p.val

/-- R32: the byte at `LEVEL_ADDR`, pin `p` at bit `p`. -/
def Devices.levelLow (c : Params) (d : Devices) : Byte :=
  BitVec.ofBoolListLE [d.levelBit c 0, d.levelBit c 1, d.levelBit c 2, d.levelBit c 3,
    d.levelBit c 4, d.levelBit c 5, d.levelBit c 6, d.levelBit c 7]

/-- R32: the byte at `LEVEL_ADDR + 1`, pin `p` at bit `p - 8`. -/
def Devices.levelHigh (c : Params) (d : Devices) : Byte :=
  BitVec.ofBoolListLE [d.levelBit c 8, d.levelBit c 9, d.levelBit c 10, d.levelBit c 11,
    d.levelBit c 12, d.levelBit c 13, d.levelBit c 14, d.levelBit c 15]

/-- R70: what a logical address of the DPLL reads as; "the level-readback bytes are not stored but computed on each
read". -/
def Devices.dpllByte (c : Params) (d : Devices) (a : Nat) : Byte :=
  if a = c.levelAddr.toNat then d.levelLow c
  else if a = c.levelAddr.toNat + 1 then d.levelHigh c
  else Memory.read d.dpllMem a

/-- `count` bytes from `a` on, lowest address first (R56 (b)), each read by `f`. -/
def bytesFrom (f : Nat → Byte) : Nat → Nat → List Byte
  | _, 0 => []
  | a, count + 1 => f a :: bytesFrom f (a + 1) count

/-- R56 (b), R70: write bytes at ascending addresses; the level-readback bytes are not stored, whatever else stands at their
addresses (DESIGN CHOICE where a pin control register does, notes/assumptions/23.md). -/
def storeBytes (c : Params) (m : Memory) (a : Nat) : List Byte → Memory
  | [] => m
  | b :: bytes => storeBytes c (if c.IsLevelAddr a then m else Memory.write m a b) (a + 1) bytes

/-- More bytes than any request of the core writes: the device took the whole transaction. -/
def wholeExtent : Nat := 256

/-- The devices after they took `extent` bytes of a request (R70; U3 for an extent that is not the whole). Reads have no
effect on the reference devices. A mux write selects the byte whatever it is (R70), also one that is none of the known channels,
where U9 refuses to say what the device does (DESIGN CHOICE between R70 and U9, notes/assumptions/24.md). A window write of
which a part was taken, and an access whose effect is undefined, leave the environment unknown. -/
def Devices.take (c : Params) (window : Bool) (r : BusRequest) (extent : Nat) (d : Devices) : Option Devices :=
  match d.classify c window r with
  | .muxSelect chan => some (if extent = 0 then d else { d with muxSel := chan })
  | .window upper => if extent = 0 then some d else if 4 ≤ extent then some { d with winUpper := upper } else none
  | .dpllWrite a bytes => some { d with dpllMem := storeBytes c d.dpllMem a (bytes.take extent) }
  | .dpllRead _ _ => some d
  | .sfpRead _ _ _ => some d
  | .undefinedEffect => if extent = 0 then some d else none
  | .nobody => some d

end Sys2Proof.Machine
end

