-- ==== Sys2Proof/Machine/Bus.lean ====
section
/-! DEFINITION. The bus environment (spec/00_scope.md rule R9 (3), (4); spec/20_memory.md rule R51): how the next transaction
ends and what it leaves behind the bus master port. -/

namespace Sys2Proof.Machine

/-- R51: how many bytes a successful request answers: one for `readByte`, exactly `count` for `readBlock`. -/
def readLength : BusRequest → Nat
  | .wb _ _ _ => 0
  | .wk _ _ _ => 0
  | .rb _ _ => 1
  | .rk _ _ count => count

/-- R51: exactly the number of bytes the request answers, the given ones first, the others free. -/
def fillBytes (log : List BusRecord) (r : BusRequest) (given : List Byte) : List Byte :=
  (List.range (readLength r)).map fun i => (given[i]?).getD (Config.busByte log r i)

/-- The completion of a transaction whose answer nothing constrains (R70, U4, U13, U14; FREE VALUE,
notes/assumptions/3.md). -/
def freeCompletion (log : List BusRecord) (r : BusRequest) : BusCompletion :=
  match Config.busEnd log r with
  | .success => .ok (fillBytes log r [])
  | .failure => .fail
  | .never => .never

/-- The completion the reference devices give (R70). -/
def Devices.completion (c : Params) (log : List BusRecord) (window : Bool) (r : BusRequest) (d : Devices) : BusCompletion :=
  match d.classify c window r with
  | .muxSelect _ => .ok []
  | .window _ => .ok []
  | .dpllWrite _ _ => .ok []
  | .dpllRead a count => .ok (bytesFrom (d.dpllByte c) a count)
  | .sfpRead region offset count => .ok (bytesFrom (Memory.read region) offset count)
  | .undefinedEffect => freeCompletion log r
  | .nobody => .fail

/-- What the environment has in store for the next transaction, after everything that happens before it. -/
structure Arrival where
  event : BusEvent
  rest : List BusEvent
  devices : Option Devices
deriving DecidableEq, Repr

/-- The next event that ends a transaction. Changes of the pins happen on the way, and changes by an external actor where
`SINGLE_OWNER` is false (R9 (4), R10: "must let the environment change device-side state between any two bus
transactions"). -/
def arrive (singleOwner : Bool) : List BusEvent → Option Devices → Arrival
  | [], devices => ⟨.answer, [], devices⟩
  | .pins ext :: rest, devices => arrive singleOwner rest (devices.map fun d => { d with ext := ext })
  | .external x :: rest, devices => arrive singleOwner rest (if singleOwner then devices else devices.map fun _ => x)
  | .reply bytes :: rest, devices => ⟨.reply bytes, rest, devices⟩
  | .lost bytes :: rest, devices => ⟨.lost bytes, rest, devices⟩
  | .fail taken :: rest, devices => ⟨.fail taken, rest, devices⟩
  | .hang taken :: rest, devices => ⟨.hang taken, rest, devices⟩
  | .reset taken :: rest, devices => ⟨.reset taken, rest, devices⟩
  | .answer :: rest, devices => ⟨.answer, rest, devices⟩

/-- The completion the environment gives by itself. -/
def ownCompletion (c : Params) (log : List BusRecord) (window : Bool) (r : BusRequest) (devices : Option Devices) :
    BusCompletion :=
  match devices with
  | none => freeCompletion log r
  | some d => d.completion c log window r

/-- The completion of the next transaction. -/
def Arrival.completion (c : Params) (log : List BusRecord) (window : Bool) (r : BusRequest) (a : Arrival) : BusCompletion :=
  match a.event with
  | .reply bytes => .ok (fillBytes log r bytes)
  | .lost bytes => .ok (fillBytes log r bytes)
  | .fail _ => .fail
  | .hang _ => .never
  | .reset _ => .abandoned
  | .answer => ownCompletion c log window r a.devices
  | .pins _ => ownCompletion c log window r a.devices
  | .external _ => ownCompletion c log window r a.devices

/-- How much of the next transaction the devices take. -/
def Arrival.extent (a : Arrival) : Nat :=
  match a.event with
  | .reply _ => wholeExtent
  | .lost _ => 0
  | .fail taken => taken
  | .hang taken => taken
  | .reset taken => taken
  | .answer => wholeExtent
  | .pins _ => wholeExtent
  | .external _ => wholeExtent

/-- The environment after the next transaction. -/
def Arrival.after (c : Params) (window : Bool) (r : BusRequest) (a : Arrival) : BusEnv :=
  { script := a.rest, devices := a.devices.bind (Devices.take c window r a.extent) }

/-- What arrives for the next transaction in an environment. -/
def BusEnv.arrival (c : Params) (env : BusEnv) : Arrival := arrive c.singleOwner env.script env.devices

end Sys2Proof.Machine
end

