-- ==== Sys2Proof/Machine/Flags.lean ====
section
/-! DEFINITION. The only status flags of the core, the valid bits of the two soft-state caches (spec/10_state.md rule R25):
everything that sets them, clears them and reads them. -/

namespace Sys2Proof.Machine

/-- `mux_valid` (R20). -/
def State.muxValid (s : State) : Bool := s.mux.isSome

/-- `page_valid` (R20). -/
def State.pageValid (s : State) : Bool := s.page.isSome

/-- R130: a committed channel change: `mux_valid <- 1; mux_chan <- c; page_valid <- 0`. -/
def State.commitMux (chan : Byte) (s : State) : State := { s with mux := some chan, page := none }

/-- R151: a successful window write: `page_valid <- 1; page_upper <- upper`. -/
def State.commitPage (upper : Byte) (s : State) : State := { s with page := some upper }

/-- R133: mask bit 0 clears `page_valid`, mask bit 1 clears `mux_valid`. -/
def State.invalidate (mask : BitVec 2) (s : State) : State :=
  { s with
    page := if mask.getLsbD 0 then none else s.page
    mux := if mask.getLsbD 1 then none else s.mux }

/-- R35: both caches unknown, the sequencer idle. R260: nothing else of the block changes; frames not yet taken stay offered
(R23), and the devices are not reset (R262). -/
def State.coreReset (s : State) : State := { s with mux := none, page := none, seq := .idle }

end Sys2Proof.Machine
end

