-- ==== Sys2Proof/Machine/Operands.lean ====
section
/-! DEFINITION. The operand forms and their domains: the base-and-offset address (spec/20_memory.md rule R54), the block count
(R58), the pin index (spec/42_gpio.md rule R181) and the slot (spec/43_sfp.md rule R201). -/

namespace Sys2Proof.Machine

/-- R54: `addr = base + offset`, computed on naturals; a sum above `0xFFFF` is not a logical address. -/
def effectiveAddr (base off : Addr) : Option Addr :=
  if base.toNat + off.toNat ≤ 0xFFFF then some (base + off) else none

/-- R181: a pin index in range, 0 to 15. -/
def pinOf (pin : Byte) : Option (Fin 16) := if h : pin.toNat < 16 then some ⟨pin.toNat, h⟩ else none

/-- R201, R202: a slot in range, 1 to 4, as the index 0 to 3 of its cage. -/
def slotOf (slot : Byte) : Option (Fin 4) :=
  if h : 1 ≤ slot.toNat ∧ slot.toNat ≤ 4 then some ⟨slot.toNat - 1, by omega⟩ else none

end Sys2Proof.Machine
end

