-- ==== Sys2Proof/Machine/Results.lean ====
section
/-! DEFINITION. What the payload of a response says (spec/30_encoding.md rule R97): the mode and level of a pin
(spec/42_gpio.md), the result of a poll (spec/43_sfp.md), and the payload that the latches of a command give. -/

namespace Sys2Proof.Machine

/-! ### Pins -/

/-- The mode of a pin (R99, R187); `unknown` appears only in the response for an out-of-range pin (R181). -/
inductive PinMode where
  | input
  | output
  | function
  | unknown
deriving DecidableEq, Repr

/-- R99: the mode codes. -/
def PinMode.code : PinMode → Byte
  | .input => 0
  | .output => 1
  | .function => 2
  | .unknown => 3

/-- R186: `DecodeMode(ctl)`, priority Function > Output > Input. -/
def decodeMode (ctl : Byte) : PinMode :=
  if ctl.getLsbD 0 then .function else if ctl.getLsbD 2 then .output else .input

/-- R99: `level` is `0x00` or `0x01`. -/
def levelByte (level : Bool) : Byte := if level then 0x01 else 0x00

/-- R185: the level of a pin, `lvl[p]` with `lvl = u16le(lv[0], lv[1])`. -/
def levelOf (lv : List Byte) (p : Fin 16) : Bool := (u16le (byteAt lv 0) (byteAt lv 1)).getLsbD p.val

/-- R26: `GpioPin`, the source's result record; the core stores none. -/
structure GpioPin where
  index : Fin 16
  baseAddress : Addr
  mode : PinMode
  level : Bool
deriving DecidableEq, Repr

/-- R26: the record of one `GPIO.RDMODE` of a pin in range: `baseAddress` is the parameter `GPIO_BASE[index]`, `mode` and
`level` are only in the response. -/
def gpioPinOf (c : Params) (p : Fin 16) (ctl : Byte) (lv : List Byte) : GpioPin :=
  { index := p, baseAddress := c.gpioBase.get p, mode := decodeMode ctl, level := levelOf lv p }

/-! ### SFP modules -/

/-- R209: the vendor fields: `module_type` and the three 16-byte texts, raw. -/
structure VendorFields where
  moduleType : Byte
  vendor : List Byte
  part : List Byte
  serial : List Byte
deriving DecidableEq, Repr

/-- R210: the raw diagnostic integers. -/
structure DiagFields where
  tempRaw : BitVec 16
  txRaw : BitVec 16
  rxRaw : BitVec 16
deriving DecidableEq, Repr

/-- R214, R216: the result of a poll, an explicit partial-result type at the granularity of the three flag bits. -/
structure PollResult where
  /-- `present`. -/
  vendor : Option VendorFields
  /-- `diag_valid`. -/
  diag : Option DiagFields
  /-- `stat_valid` and `status110`. -/
  status : Option Byte
deriving DecidableEq, Repr

/-- R209: `TrimLen(f)`: the length without the bytes of `TRIM_SET` at the end; only trailing bytes are removed. -/
def trimLen (trimSet : List Byte) : List Byte → Nat
  | [] => 0
  | b :: rest => if trimLen trimSet rest = 0 ∧ b ∈ trimSet then 0 else trimLen trimSet rest + 1

/-- R209: `DecodeVendor(info, R)`. -/
def decodeVendor (info : List Byte) : VendorFields where
  moduleType := byteAt info 0
  vendor := slice info 20 16
  part := slice info 40 16
  serial := slice info 68 16

/-- R210: `DecodeDiag(diag, R)`; big-endian in the region (R56 (c)). -/
def decodeDiag (diag : List Byte) : DiagFields where
  tempRaw := u16be (byteAt diag 96) (byteAt diag 97)
  txRaw := u16be (byteAt diag 102) (byteAt diag 103)
  rxRaw := u16be (byteAt diag 104) (byteAt diag 105)

/-- R214: byte 0 of the payload: bit 0 `present`, bit 1 `diag_valid`, bit 2 `stat_valid`, bits 7:3 zero. -/
def PollResult.flags (r : PollResult) : Byte :=
  (0 : BitVec 5) ++ BitVec.ofBool r.status.isSome ++ BitVec.ofBool r.diag.isSome ++ BitVec.ofBool r.vendor.isSome

/-- R214: a text and its trimmed length, 17 bytes. -/
def textField (trimSet text : List Byte) : List Byte := text ++ [BitVec.ofNat 8 (trimLen trimSet text)]

/-- R214: payload bytes 1 to 52; zero bytes when the module is absent. -/
def vendorPayload (trimSet : List Byte) : Option VendorFields → List Byte
  | none => List.replicate 52 0
  | some v => v.moduleType :: (textField trimSet v.vendor ++ textField trimSet v.part ++ textField trimSet v.serial)

/-- R214: payload bytes 53 to 58, "Multi-byte integers little-endian"; zero bytes when absent. -/
def diagPayload : Option DiagFields → List Byte
  | none => List.replicate 6 0
  | some d => bytesLE d.tempRaw ++ bytesLE d.txRaw ++ bytesLE d.rxRaw

/-- R214: payload byte 59; zero when absent. -/
def statusPayload : Option Byte → List Byte
  | none => [0]
  | some b => [b]

/-- R214: the 60 bytes of the response payload. -/
def PollResult.payload (trimSet : List Byte) (r : PollResult) : List Byte :=
  r.flags :: (vendorPayload trimSet r.vendor ++ diagPayload r.diag ++ statusPayload r.status)

/-- A valid bit of the payload's flags selects a field (R214: "a field whose flag is 0 is transmitted as zero bytes and must
be ignored"). -/
def whenFlag {α : Type} (flags : Byte) (bit : Nat) (field : α) : Option α := if flags.getLsbD bit then some field else none

/-- R214: the result a payload of 60 bytes stands for, as the host reads it. -/
def PollResult.ofPayload (payload : List Byte) : PollResult :=
  let flags := byteAt payload 0
  { vendor := whenFlag flags 0
      { moduleType := byteAt payload 1, vendor := slice payload 2 16, part := slice payload 19 16, serial := slice payload 36 16 }
    diag := whenFlag flags 1
      { tempRaw := u16le (byteAt payload 53) (byteAt payload 54), txRaw := u16le (byteAt payload 55) (byteAt payload 56),
        rxRaw := u16le (byteAt payload 57) (byteAt payload 58) }
    status := whenFlag flags 2 (byteAt payload 59) }

/-- R202 to R206: the result that the bytes read in a poll stand for, the three vendor-info reads first (96 bytes), then the four
diagnostics reads (128 bytes), then the status byte. A failed read ends the reads of its group, and none of a later group
follows, so a group is valid when all its bytes are there. -/
def pollResultOf (bytes : List Byte) : PollResult where
  vendor := if 96 ≤ bytes.length then some (decodeVendor (slice bytes 0 96)) else none
  diag := if 224 ≤ bytes.length then some (decodeDiag (slice bytes 96 128)) else none
  status := if 225 ≤ bytes.length then some (byteAt bytes 224) else none

/-! ### The payload of a command -/

/-- R97: the payload of an `OK` response, of the bytes read. -/
def Reply.payload (c : Params) (bytes : List Byte) : Reply → List Byte
  | .empty => []
  | .bytesRead => bytes
  | .pinMode p => [(decodeMode (byteAt bytes 0)).code, levelByte (levelOf (bytes.drop 1) p)]
  | .unknownPin => [PinMode.unknown.code, levelByte false]
  | .pollResult => (pollResultOf bytes).payload c.trimSet

end Sys2Proof.Machine
end

