-- ==== Sys2Proof/Machine/Ops.lean ====
section
/-! DEFINITION. The shared operations: what each line of a procedure issues and does (spec/00_scope.md rule R8, `MuxSelect` R130,
`PageSelect` R151, the data transactions of R153), one bus transaction, responding and raising (R97, R231), the core's own step
(R9), and a command from its acceptance to its end (R23). -/

namespace Sys2Proof.Machine

/-! ### What a line issues -/

/-- R151: the bytes of a window write, `[lower, upper, 0x10, 0x20]`. -/
def windowBytes (upper lower : Byte) : List Byte := [lower, upper, 0x10, 0x20]

/-- R130: `MuxSelect(chan)` issues its write only when the cache does not hold the channel. -/
def selectRequest (c : Params) (mux : Option Byte) (chan : Byte) : Option BusRequest :=
  if mux = some chan then none else some (.wb c.muxAddr c.muxReg chan)

/-- R151: `PageSelect(upper, lower)` issues the window write only when the cache does not hold the upper byte. -/
def windowRequest (c : Params) (page : Option Byte) (addr : Addr) : Option BusRequest :=
  if page = some (upperOf addr) then none else some (.wk c.dpllAddr c.pageReg (windowBytes (upperOf addr) (lowerOf addr)))

/-- The transaction a line issues, if it issues one, under the caches `mux` and `page` and with the bytes read so far. -/
def Line.request (c : Params) (mux page : Option Byte) (bytes : List Byte) : Line → Option BusRequest
  | .muxSelect chan => selectRequest c mux chan
  | .selectSlot chan => selectRequest c mux chan
  | .closeMux => selectRequest c mux noChannel
  | .pageSelect addr => windowRequest c page addr
  | .writeByte addr v => some (.wb c.dpllAddr (lowerOf addr) v)
  | .writeBlock addr data => some (.wk c.dpllAddr (lowerOf addr) data)
  | .readByte addr => some (.rb c.dpllAddr (lowerOf addr))
  | .readBlock addr n => some (.rk c.dpllAddr (lowerOf addr) n)
  | .writeModified addr k value => some (.wb c.dpllAddr (lowerOf addr) (setBit (lastByte bytes) k value))
  | .writeBack addr => some (.wb c.dpllAddr (lowerOf addr) (lastByte bytes))
  | .readInfo reg => some (.rk c.sfpInfoAddr reg 32)
  | .readDiag reg => some (.rk c.sfpDiagAddr reg 32)
  | .readStatus => some (.rb c.sfpDiagAddr 110)
  | .invalidate _ => none

/-- Whether a line's transaction is the window write of a `PageSelect` (R29). -/
def Line.isWindow : Line → Bool
  | .muxSelect _ => false
  | .selectSlot _ => false
  | .closeMux => false
  | .pageSelect _ => true
  | .writeByte _ _ => false
  | .writeBlock _ _ => false
  | .readByte _ => false
  | .readBlock _ _ => false
  | .writeModified _ _ _ => false
  | .writeBack _ => false
  | .readInfo _ => false
  | .readDiag _ => false
  | .readStatus => false
  | .invalidate _ => false

/-! ### What a line does -/

/-- R130, R151: the caches after a line whose transaction succeeded. -/
def Line.commit (s : State) : Line → State
  | .muxSelect chan => s.commitMux chan
  | .selectSlot chan => s.commitMux chan
  | .closeMux => s.commitMux noChannel
  | .pageSelect addr => s.commitPage (upperOf addr)
  | .writeByte _ _ => s
  | .writeBlock _ _ => s
  | .readByte _ => s
  | .readBlock _ _ => s
  | .writeModified _ _ _ => s
  | .writeBack _ => s
  | .readInfo _ => s
  | .readDiag _ => s
  | .readStatus => s
  | .invalidate _ => s

/-- A line that issues nothing: a select whose cache holds the wanted value does nothing; `INVAL` clears (R133). -/
def Line.pass (s : State) : Line → State
  | .muxSelect _ => s
  | .selectSlot _ => s
  | .closeMux => s
  | .pageSelect _ => s
  | .writeByte _ _ => s
  | .writeBlock _ _ => s
  | .readByte _ => s
  | .readBlock _ _ => s
  | .writeModified _ _ _ => s
  | .writeBack _ => s
  | .readInfo _ => s
  | .readDiag _ => s
  | .readStatus => s
  | .invalidate mask => s.invalidate mask

/-- R8, R231: the command is to end at once with an error; no later line runs. -/
def Work.raise (w : Work) (e : CommandError) : Work := { w with todo := [], ending := .raise e }

/-- R203 to R206, R208: of the lines left, only `CloseMux` is still executed. -/
def Work.toClose (w : Work) : Work := { w with todo := w.todo.filter (· = .closeMux) }

/-- R207: a failed close raises, and the result is lost; R208: after a failed slot select the failure of the release is
ignored. -/
def Work.closeFailed (w : Work) (tix : BitVec 8) : Work :=
  match w.ending with
  | .respond _ => w.raise (.busError tix)
  | .raise e => w.raise e

/-- What is left of a command after the transaction of a line failed; `w` holds the lines after it. R8: "`raise BusError(tix)`,
unless the calling rule says in a comment that the failure is tolerated (only 43_sfp.md does)". -/
def Line.failed (w : Work) (tix : BitVec 8) : Line → Work
  | .muxSelect _ => w.raise (.busError tix)
  | .selectSlot _ => { w.toClose with ending := .raise (.busError tix) }
  | .closeMux => w.closeFailed tix
  | .pageSelect _ => w.raise (.busError tix)
  | .writeByte _ _ => w.raise (.busError tix)
  | .writeBlock _ _ => w.raise (.busError tix)
  | .readByte _ => w.raise (.busError tix)
  | .readBlock _ _ => w.raise (.busError tix)
  | .writeModified _ _ _ => w.raise (.busError tix)
  | .writeBack _ => w.raise (.busError tix)
  | .readInfo _ => w.toClose
  | .readDiag _ => w.toClose
  | .readStatus => w.toClose
  | .invalidate _ => w

/-! ### The sequencer -/

/-- R23: "On accepting a frame: `seq <- Busy; tix <- 0`"; the latches hold the command. -/
def State.accept (w : Work) (s : State) : State := { s with seq := .busy 0 (some w) }

/-- The command goes on with these latches. -/
def State.goOn (tix : BitVec 8) (w : Work) (s : State) : State := { s with seq := .busy tix (some w) }

/-- R241: the transaction in flight never completes. -/
def State.hang (tix : BitVec 8) (s : State) : State := { s with seq := .busy tix none }

/-- A request has been on the bus master port, with its completion, and the environment has moved on. -/
def State.observe (r : BusRequest) (completion : BusCompletion) (env : BusEnv) (s : State) : State :=
  { s with busLog := s.busLog ++ [⟨r, completion⟩], env := env }

/-- R8, R23, R51: the one bus transaction of a line; `w` holds the lines after it. Success increments `tix`, keeps the bytes
read and commits the caches; failure does not increment `tix`; a transaction that never completes leaves the core `Busy`
(R241); the reset input abandons the command with its transaction in flight (R260). -/
def State.transact (line : Line) (r : BusRequest) (tix : BitVec 8) (w : Work) (s : State) : State :=
  let a := s.env.arrival s.cfg
  let completion := a.completion s.cfg s.busLog line.isWindow r
  let s' := s.observe r completion (a.after s.cfg line.isWindow r)
  match completion with
  | .ok bytes => line.commit (s'.goOn (tix + 1) { w with bytes := w.bytes ++ bytes })
  | .fail => s'.goOn tix (line.failed w tix)
  | .never => s'.hang tix
  | .abandoned => s'.coreReset

/-! ### Responding and raising -/

/-- R98: the status codes. -/
inductive Status where
  | ok
  | busError
  | invalidArgument
  | illegalCommand
deriving DecidableEq, Repr

/-- R98: the byte of a status. -/
def Status.code : Status → Byte
  | .ok => 0x00
  | .busError => 0x01
  | .invalidArgument => 0x02
  | .illegalCommand => 0x03

/-- R23, R97: the response `status, info, payload...` is emitted and the core is `Idle`. -/
def State.respond (status : Status) (info : Byte) (payload : List Byte) (s : State) : State :=
  { s with respPort := s.respPort ++ [status.code :: info :: payload], seq := .idle }

/-- R231: what `raise` does. This is the core's taking of an exception; R239: there is no return from it. -/
def State.raiseError (e : CommandError) (s : State) : State :=
  match e with
  | .busError info => s.respond .busError info []
  | .invalidArgument => s.respond .invalidArgument 0 []
  | .illegalCommand => s.respond .illegalCommand 0 []

/-- R8, R97: the end of a command: `respond OK(payload)`, whose `info` is the final `tix`, or the error raised. -/
def State.endCommand (tix : BitVec 8) (w : Work) (s : State) : State :=
  match w.ending with
  | .respond reply => s.respond .ok tix (reply.payload s.cfg w.bytes)
  | .raise e => s.raiseError e

/-! ### Executing -/

/-- The core executes its next line, or ends the command where none is left. An idle core, and one whose transaction never
completes, does nothing. -/
def State.execLine (s : State) : State :=
  match s.seq with
  | .idle => s
  | .busy _ none => s
  | .busy tix (some w) =>
    match w.todo with
    | [] => s.endCommand tix w
    | line :: rest =>
      match line.request s.cfg s.mux s.page w.bytes with
      | none => (line.pass s).goOn tix { w with todo := rest }
      | some r => s.transact line r tix { w with todo := rest }

/-- `n` lines, the end of the command counting as one. -/
def State.execLines : Nat → State → State
  | 0, s => s
  | n + 1, s => State.execLines n s.execLine

/-- The lines left, the end of the command counting as one. -/
def State.linesLeft (s : State) : Nat :=
  match s.seq with
  | .idle => 0
  | .busy _ none => 0
  | .busy _ (some w) => w.todo.length + 1

/-- Whether the next line issues a transaction. -/
def State.issuesNext (s : State) : Bool :=
  match s.seq with
  | .idle => false
  | .busy _ none => false
  | .busy _ (some w) =>
    match w.todo with
    | [] => false
    | line :: _ => (line.request s.cfg s.mux s.page w.bytes).isSome

/-- At most `n` lines, up to the next one that issues a transaction. -/
def State.settleFor : Nat → State → State
  | 0, s => s
  | n + 1, s => if s.issuesNext then s else State.settleFor n s.execLine

/-- Everything the core does without a transaction. -/
def State.settle (s : State) : State := State.settleFor s.linesLeft s

/-- R9: "The core's own step is one bus transaction (or the zero-transaction completion of a command that needs none)". What
needs no transaction before it and after it belongs to the same step, so a command's response comes with its last
transaction. -/
def State.coreStep (s : State) : State := s.settle.execLine.settle

/-! ### A whole command -/

/-- The latches of a command that has these lines and answers `OK`. -/
def Work.answering (reply : Reply) (lines : List Line) : Work := { todo := lines, bytes := [], ending := .respond reply }

/-- The latches of a command that raises at once, before any bus traffic (R233, R234). -/
def Work.raising (e : CommandError) : Work := { todo := [], bytes := [], ending := .raise e }

/-- A command from its acceptance to its response, or to where it stops without one (R241, R260). R6, U16: no command has a
meaning under a parameter set that is not well-formed. -/
def runCommand (w : Work) (s : State) : Host.Outcome State Fault Refusal :=
  if s.cfg.WellFormed then .next ((s.accept w).execLines (w.todo.length + 1)) else .refused .illFormedParameters

end Sys2Proof.Machine
end

