-- ==== Sys2Proof/Machine/Paged.lean ====
section
/-! DEFINITION. The PagedRegisterSpace commands (spec/41_paged.md section 2): the procedure of each, and its meaning. -/

namespace Sys2Proof.Machine

/-- R150: `EnsureChannel()`, which is `MuxSelect(DPLL_CHANNEL)`. -/
def ensureChannel (c : Params) : Line := .muxSelect c.dpllChannel

/-- R55, R153: "every paged access runs, in this order, `EnsureChannel()`, then `PageSelect(upper, lower)`, then its data
transaction at `reg = lower`". -/
def pagedLines (c : Params) (addr : Addr) (data : Line) : List Line := [ensureChannel c, .pageSelect addr, data]

/-- R54, R233: the procedure of a base-and-offset form, at the resolved address. -/
def withEffective (base off : Addr) (work : Addr → Work) : Work :=
  match effectiveAddr base off with
  | some addr => work addr
  | none => .raising .invalidArgument

/-- R58, R233: the procedure of a block command, whose count must be 1 to `MAX_BLOCK`. -/
def withBlockCount (c : Params) (n : Nat) (work : Work) : Work :=
  if c.BlockCount n then work else .raising .invalidArgument

/-- The procedure of `PRS.ENSURE` (R152). -/
def prsEnsureWork (c : Params) : Work := .answering .empty [ensureChannel c]

/-- The procedure of R154 and R155. -/
def writeByteWork (c : Params) (val : Byte) (addr : Addr) : Work := .answering .empty (pagedLines c addr (.writeByte addr val))

/-- The procedure of R156 and R157. -/
def readByteWork (c : Params) (addr : Addr) : Work := .answering .bytesRead (pagedLines c addr (.readByte addr))

/-- The procedure of R158 and R159 after the count check; "one transaction; never split". -/
def writeBlockWork (c : Params) (data : List Byte) (addr : Addr) : Work :=
  .answering .empty (pagedLines c addr (.writeBlock addr data))

/-- The procedure of R160 and R161 after the count check; "one transaction; never split". -/
def readBlockWork (c : Params) (cnt : Byte) (addr : Addr) : Work :=
  .answering .bytesRead (pagedLines c addr (.readBlock addr cnt.toNat))

/-- `PRS.ENSURE` (R152). -/
def execPrsEnsure (s : State) : Host.Outcome State Fault Refusal := runCommand (prsEnsureWork s.cfg) s

/-- `PRS.WRB addr, val` (R154). -/
def execPrsWrb (addr : Addr) (val : Byte) (s : State) : Host.Outcome State Fault Refusal :=
  runCommand (writeByteWork s.cfg val addr) s

/-- `PRS.WRBO base+off, val` (R155). -/
def execPrsWrbo (base off : Addr) (val : Byte) (s : State) : Host.Outcome State Fault Refusal :=
  runCommand (withEffective base off (writeByteWork s.cfg val)) s

/-- `PRS.RDB addr` (R156). -/
def execPrsRdb (addr : Addr) (s : State) : Host.Outcome State Fault Refusal := runCommand (readByteWork s.cfg addr) s

/-- `PRS.RDBO base+off` (R157). -/
def execPrsRdbo (base off : Addr) (s : State) : Host.Outcome State Fault Refusal :=
  runCommand (withEffective base off (readByteWork s.cfg)) s

/-- `PRS.WRBLK addr, [bytes]` (R158). -/
def execPrsWrblk (addr : Addr) (data : List Byte) (s : State) : Host.Outcome State Fault Refusal :=
  runCommand (withBlockCount s.cfg data.length (writeBlockWork s.cfg data addr)) s

/-- `PRS.WRBLKO base+off, [bytes]` (R159). -/
def execPrsWrblko (base off : Addr) (data : List Byte) (s : State) : Host.Outcome State Fault Refusal :=
  runCommand (withBlockCount s.cfg data.length (withEffective base off (writeBlockWork s.cfg data))) s

/-- `PRS.RDBLK addr, cnt` (R160). -/
def execPrsRdblk (addr : Addr) (cnt : Byte) (s : State) : Host.Outcome State Fault Refusal :=
  runCommand (withBlockCount s.cfg cnt.toNat (readBlockWork s.cfg cnt addr)) s

/-- `PRS.RDBLKO base+off, cnt` (R161). -/
def execPrsRdblko (base off : Addr) (cnt : Byte) (s : State) : Host.Outcome State Fault Refusal :=
  runCommand (withBlockCount s.cfg cnt.toNat (withEffective base off (readBlockWork s.cfg cnt))) s

end Sys2Proof.Machine
end

