-- ==== Sys2Proof/Machine/Gpio.lean ====
section
/-! DEFINITION. The GpioController commands (spec/42_gpio.md): the procedure of each, and its meaning. -/

namespace Sys2Proof.Machine

/-- R182: the trigger value that selects Input. -/
def inputTrigger : Byte := 0x00

/-- R183: the trigger value that commits Output. -/
def outputTrigger : Byte := 0x04

/-- The lines of R182 for a pin in range. -/
def configureInputLines (c : Params) (p : Fin 16) : List Line :=
  pagedLines c (c.pinControl p) (.writeByte (c.pinControl p) inputTrigger)

/-- R183 step 4, R184: the second write of the group register, of the byte read again (`REREAD`) or of the modified byte
(`REUSE`). -/
def relatchLines (c : Params) (group : Addr) (k : Nat) (value : Bool) : List Line :=
  match c.gpioRelatch with
  | .reread => pagedLines c group (.readByte group) ++ pagedLines c group (.writeBack group)
  | .reuse => pagedLines c group (.writeModified group k value)

/-- The lines of R183 for a pin in range: read, modify, write back, re-latch, commit. -/
def configureOutputLines (c : Params) (p : Fin 16) (value : Bool) : List Line :=
  pagedLines c (c.groupOf p) (.readByte (c.groupOf p)) ++
  pagedLines c (c.groupOf p) (.writeModified (c.groupOf p) (groupBit p) value) ++
  relatchLines c (c.groupOf p) (groupBit p) value ++
  pagedLines c (c.pinControl p) (.writeByte (c.pinControl p) outputTrigger)

/-- The lines of R185 for a pin in range: the control register first, the level register second. The level read is of 2 bytes
whatever `MAX_BLOCK` is (DESIGN CHOICE between R52 and R58, notes/assumptions/22.md). -/
def readModeLines (c : Params) (p : Fin 16) : List Line :=
  pagedLines c (c.pinControl p) (.readByte (c.pinControl p)) ++ pagedLines c c.levelAddr (.readBlock c.levelAddr 2)

/-- R181: the procedure of a pin in range; an out-of-range pin causes no traffic, changes nothing, and answers `OK`. -/
def withPin (pin : Byte) (outOfRange : Reply) (work : Fin 16 → Work) : Work :=
  match pinOf pin with
  | none => .answering outOfRange []
  | some p => work p

/-- The procedure of `GPIO.CFGIN` (R182). -/
def gpioCfginWork (c : Params) (pin : Byte) : Work :=
  withPin pin .empty fun p => .answering .empty (configureInputLines c p)

/-- The procedure of `GPIO.CFGOUT` (R183). -/
def gpioCfgoutWork (c : Params) (pin : Byte) (value : Bool) : Work :=
  withPin pin .empty fun p => .answering .empty (configureOutputLines c p value)

/-- The procedure of `GPIO.RDMODE` (R185). -/
def gpioRdmodeWork (c : Params) (pin : Byte) : Work :=
  withPin pin .unknownPin fun p => .answering (.pinMode p) (readModeLines c p)

/-- `GPIO.CFGIN pin[, value]` (R182); `value` is ignored; an out-of-range pin is a no-op (R181). -/
def execGpioCfgin (pin : Byte) (_value : Bool) (s : State) : Host.Outcome State Fault Refusal :=
  runCommand (gpioCfginWork s.cfg pin) s

/-- `GPIO.CFGOUT pin, value` (R183); an out-of-range pin is a no-op (R181). -/
def execGpioCfgout (pin : Byte) (value : Bool) (s : State) : Host.Outcome State Fault Refusal :=
  runCommand (gpioCfgoutWork s.cfg pin value) s

/-- `GPIO.RDMODE pin` (R185); an out-of-range pin reads as mode Unknown, level 0 (R181). -/
def execGpioRdmode (pin : Byte) (s : State) : Host.Outcome State Fault Refusal :=
  runCommand (gpioRdmodeWork s.cfg pin) s

end Sys2Proof.Machine
end

