-- ==== Sys2Proof/Machine/Mux.lean ====
section
/-! DEFINITION. The MuxController commands (spec/40_mux.md): the procedure of each, and its meaning. -/

namespace Sys2Proof.Machine

/-- The procedure of `MUX.SEL` (R131). -/
def muxSelWork (chan : Byte) : Work := .answering .empty [.muxSelect chan]

/-- The procedure of `MUX.CLOSE` (R132). -/
def muxCloseWork : Work := .answering .empty [.muxSelect noChannel]

/-- The procedure of `INVAL` (R133). -/
def invalWork (mask : BitVec 2) : Work := .answering .empty [.invalidate mask]

/-- `MUX.SEL chan` (R131). -/
def execMuxSel (chan : Byte) (s : State) : Host.Outcome State Fault Refusal := runCommand (muxSelWork chan) s

/-- `MUX.CLOSE` (R132). -/
def execMuxClose (s : State) : Host.Outcome State Fault Refusal := runCommand muxCloseWork s

/-- `INVAL mask` (R133). -/
def execInval (mask : BitVec 2) (s : State) : Host.Outcome State Fault Refusal := runCommand (invalWork mask) s

end Sys2Proof.Machine
end

