-- ==== Sys2Proof/Machine/Sfp.lean ====
section
/-! DEFINITION. The SfpDiagnostics command (spec/43_sfp.md), which exists only when `HAS_SFP`: its procedure, and its meaning. -/

namespace Sys2Proof.Machine

/-- R203: `ReadVendorInfo()`: 96 bytes in three reads. Each is of 32 bytes whatever `MAX_BLOCK` is (DESIGN CHOICE between R52 and
R58, notes/assumptions/22.md). -/
def readVendorInfo : List Line := [.readInfo 0x00, .readInfo 0x20, .readInfo 0x40]

/-- R205: `ReadDiagnostics()`: 128 bytes in four reads, of 32 bytes each as in `readVendorInfo`. -/
def readDiagnostics : List Line := [.readDiag 0x00, .readDiag 0x20, .readDiag 0x40, .readDiag 0x60]

/-- The lines of R202 for a slot in range: select, read, close. -/
def pollLines (slot : Fin 4) : List Line :=
  .selectSlot (slotChannel slot) :: (readVendorInfo ++ readDiagnostics ++ [.readStatus, .closeMux])

/-- R201, R202: the procedure of a slot in range; any other is `INVALID_ARGUMENT`. -/
def withSlot (slot : Byte) (work : Fin 4 → Work) : Work :=
  match slotOf slot with
  | none => .raising .invalidArgument
  | some i => work i

/-- R94, R202: a command that exists only when `HAS_SFP`; else its opcode is reserved. -/
def whenHasSfp (c : Params) (work : Work) : Work := if c.hasSfp then work else .raising .illegalCommand

/-- The procedure of `SFP.POLL` (R202). -/
def sfpPollWork (c : Params) (slot : Byte) : Work :=
  whenHasSfp c (withSlot slot fun i => .answering .pollResult (pollLines i))

/-- `SFP.POLL slot` (R202). -/
def execSfpPoll (slot : Byte) (s : State) : Host.Outcome State Fault Refusal := runCommand (sfpPollWork s.cfg slot) s

end Sys2Proof.Machine
end

