-- ==== Sys2Proof/Machine/Dispatch.lean ====
section
/-! DEFINITION. One arm per command, each a direct call of its meaning. -/

namespace Sys2Proof.Machine

def exec (i : Instr) (s : State) : Host.Outcome State Fault Refusal :=
  match i with
  | .muxSel chan => Sys2Proof.Machine.execMuxSel chan s
  | .muxClose => Sys2Proof.Machine.execMuxClose s
  | .inval mask => Sys2Proof.Machine.execInval mask s
  | .prsEnsure => Sys2Proof.Machine.execPrsEnsure s
  | .prsWrb addr val => Sys2Proof.Machine.execPrsWrb addr val s
  | .prsRdb addr => Sys2Proof.Machine.execPrsRdb addr s
  | .prsWrblk addr data => Sys2Proof.Machine.execPrsWrblk addr data s
  | .prsRdblk addr cnt => Sys2Proof.Machine.execPrsRdblk addr cnt s
  | .prsWrbo base off val => Sys2Proof.Machine.execPrsWrbo base off val s
  | .prsRdbo base off => Sys2Proof.Machine.execPrsRdbo base off s
  | .prsWrblko base off data => Sys2Proof.Machine.execPrsWrblko base off data s
  | .prsRdblko base off cnt => Sys2Proof.Machine.execPrsRdblko base off cnt s
  | .gpioCfgin pin value => Sys2Proof.Machine.execGpioCfgin pin value s
  | .gpioCfgout pin value => Sys2Proof.Machine.execGpioCfgout pin value s
  | .gpioRdmode pin => Sys2Proof.Machine.execGpioRdmode pin s
  | .sfpPoll slot => Sys2Proof.Machine.execSfpPoll slot s

end Sys2Proof.Machine
end

