-- ==== Sys2Proof/Machine/Sequencer.lean ====
section
/-! DEFINITION. What one step of the block does (spec/00_scope.md rule R9, spec/10_state.md rule R23, spec/60_exceptions.md rule
R243, spec/70_reset_and_hazards.md rule R260): the reset input first; then an idle core takes the frame the host offers, and a
busy core makes its own step. -/

namespace Sys2Proof.Machine

/-- The procedure of a command. -/
def workOf (c : Params) : Instr → Work
  | .muxSel chan => muxSelWork chan
  | .muxClose => muxCloseWork
  | .inval mask => invalWork mask
  | .prsEnsure => prsEnsureWork c
  | .prsWrb addr val => writeByteWork c val addr
  | .prsRdb addr => readByteWork c addr
  | .prsWrblk addr data => withBlockCount c data.length (writeBlockWork c data addr)
  | .prsRdblk addr cnt => withBlockCount c cnt.toNat (readBlockWork c cnt addr)
  | .prsWrbo base off val => withEffective base off (writeByteWork c val)
  | .prsRdbo base off => withEffective base off (readByteWork c)
  | .prsWrblko base off data => withBlockCount c data.length (withEffective base off (writeBlockWork c data))
  | .prsRdblko base off cnt => withBlockCount c cnt.toNat (withEffective base off (readBlockWork c cnt))
  | .gpioCfgin pin _ => gpioCfginWork c pin
  | .gpioCfgout pin value => gpioCfgoutWork c pin value
  | .gpioRdmode pin => gpioRdmodeWork c pin
  | .sfpPoll slot => sfpPollWork c slot

/-- What the core does with a frame: a command (R95) is executed; an illegal frame "gets the response `ILLEGAL_COMMAND`, causes
no bus transaction and changes no state" (R94). -/
def frameWork (c : Params) (frame : List Byte) : Work :=
  match decodeFrame c.hasSfp frame with
  | .ok i => workOf c i
  | .error _ => .raising .illegalCommand

/-- R9 (1), R23: an idle core accepts the frame at the head of the command port. With none offered nothing changes. -/
def State.takeFrame (s : State) : State :=
  match s.cmdPort with
  | [] => s
  | frame :: later => ({ s with cmdPort := later }).accept (frameWork s.cfg frame)

/-- R23: "The core accepts a frame only when `seq = Idle`"; a frame offered while `Busy` waits. -/
def State.advance (s : State) : State :=
  match s.seq with
  | .idle => s.takeFrame
  | .busy _ _ => s.coreStep

/-- R260: the reset input, "at any time and whatever `seq` is", has priority over every other event. -/
def State.blockStep (s : State) : State :=
  match s.resetIn with
  | [] => s.advance
  | false :: rest => ({ s with resetIn := rest }).advance
  | true :: rest => ({ s with resetIn := rest }).coreReset

/-- R6, U16: no step has a meaning under a parameter set that is not well-formed. -/
def stepBlock (s : State) : Host.Outcome State Fault Refusal :=
  if s.cfg.WellFormed then .next s.blockStep else .refused .illFormedParameters

end Sys2Proof.Machine
end

