-- ==== Sys2Proof/Machine/Step.lean ====
section
/-! DEFINITION. The step, and placing a command where the next step executes it. -/

namespace Sys2Proof.Machine

/-- One step of the block. -/
def step (s : State) : Host.Outcome State Fault Refusal := stepBlock s

/-- The frame of a table word, just accepted, with the reset input not asserted, so that the very next step executes it. The host
delivers commands on the command port and the core loads none (R68; notes/assumptions/7.md). -/
def State.withFetchWord (s : State) (nbits w : Nat) : State :=
  ({ s with resetIn := [] }).accept (frameWork s.cfg (tableFrame nbits w))

end Sys2Proof.Machine
end

