-- ==== Sys2Proof/Machine/Assembler.lean ====
section
/-! DEFINITION. The text form of a command (spec/30_encoding.md rule R100) and the pseudo-instructions (rule R101): from one
line of text to the frame it stands for. The step does not use it. A number too large for its field, and a line that has
none of the forms, assemble to nothing (DESIGN CHOICE, notes/assumptions/18.md, safe). -/

namespace Sys2Proof

/-- A piece of a line: a name or a number, or one of the four marks. -/
inductive Token where
  | word (w : String)
  | comma
  | leftBracket
  | rightBracket
  | plus
deriving DecidableEq, Repr

/-- The characters of names and numbers. -/
def isWordChar (c : Char) : Bool := c.isAlphanum || c == '.' || c == '|'

/-- The four marks. -/
def markOf (c : Char) : Option Token :=
  if c = ',' then some .comma else if c = '[' then some .leftBracket else if c = ']' then some .rightBracket
  else if c = '+' then some .plus else none

/-- The word read so far, if there is one. -/
def endWord (w : List Char) : List Token := if w = [] then [] else [.word (String.ofList w)]

/-- The tokens of a line; `w` is the word read so far. Spaces and tabs separate. -/
def lexFrom : List Char → List Char → Option (List Token)
  | w, [] => some (endWord w)
  | w, c :: rest =>
    if isWordChar c then lexFrom (w ++ [c]) rest
    else
      match markOf c with
      | some t => (lexFrom [] rest).map fun ts => endWord w ++ t :: ts
      | none => if c = ' ' ∨ c = '\t' then (lexFrom [] rest).map fun ts => endWord w ++ ts else none

/-- R100: "`;` starts a comment". -/
def lexLine (line : String) : Option (List Token) := lexFrom [] (line.toList.takeWhile (· ≠ ';'))

/-- A digit's value, below the base. -/
def digitValue (base : Nat) (c : Char) : Option Nat :=
  let v := if c.isDigit then c.toNat - '0'.toNat else if 'a' ≤ c ∧ c ≤ 'f' then c.toNat - 'a'.toNat + 10
    else if 'A' ≤ c ∧ c ≤ 'F' then c.toNat - 'A'.toNat + 10 else base
  if v < base then some v else none

/-- The value of a sequence of digits, most significant first; `acc` is the value so far. -/
def digitsValue (base : Nat) : Nat → List Char → Option Nat
  | acc, [] => some acc
  | acc, c :: rest => (digitValue base c).bind fun v => digitsValue base (acc * base + v) rest

/-- R100: "Numbers are decimal or `0x` hexadecimal." -/
def numberOf (w : String) : Option Nat :=
  match w.toList with
  | [] => none
  | '0' :: 'x' :: [] => none
  | '0' :: 'x' :: ds => digitsValue 16 0 ds
  | ds => digitsValue 10 0 ds

/-- A number that fits 8 bits. -/
def byteOf (w : String) : Option Byte :=
  (numberOf w).bind fun n => if n < 256 then some (BitVec.ofNat 8 n) else none

/-- A number that fits 16 bits, little-endian (R92). -/
def wordBytes (w : String) : Option (List Byte) :=
  (numberOf w).bind fun n => if n < 65536 then some (bytesLE (BitVec.ofNat 16 n)) else none

/-- R100: the elements of `[p0, p1, ...]` after the left bracket. -/
def listBytes : List Token → Option (List Byte)
  | [.rightBracket] => some []
  | [.word w, .rightBracket] => (byteOf w).map fun b => [b]
  | .word w :: .comma :: .word v :: rest => (byteOf w).bind fun b => (listBytes (.word v :: rest)).map fun bs => b :: bs
  | _ => none

/-- R100: the assembler computes `n`. -/
def payloadBytes (ts : List Token) : Option (List Byte) :=
  (listBytes ts).bind fun bs => if bs.length < 256 then some (BitVec.ofNat 8 bs.length :: bs) else none

/-- R100: `INVAL` takes a number or one of three names. -/
def maskOf (w : String) : Option Byte :=
  if w = "PAGE" then some 1 else if w = "MUX" then some 2 else if w = "PAGE|MUX" then some 3 else byteOf w

/-- Format Z: no operand. -/
def textZ (op : Byte) : List Token → Option (List Byte)
  | [] => some [op]
  | _ => none

/-- Format C: one number. -/
def textC (op : Byte) : List Token → Option (List Byte)
  | [.word a] => (byteOf a).map fun b => [op, b]
  | _ => none

/-- `INVAL`. -/
def textInval : List Token → Option (List Byte)
  | [.word a] => (maskOf a).map fun b => [Opcode.inval.toByte, b]
  | _ => none

/-- Format A0: `addr`. -/
def textA0 (op : Byte) : List Token → Option (List Byte)
  | [.word a] => (wordBytes a).map fun bs => op :: bs
  | _ => none

/-- Format A1: `addr, d`. -/
def textA1 (op : Byte) : List Token → Option (List Byte)
  | [.word a, .comma, .word d] => (wordBytes a).bind fun bs => (byteOf d).map fun b => op :: (bs ++ [b])
  | _ => none

/-- Format AP: `addr, [p0, p1, ...]`. -/
def textAP (op : Byte) : List Token → Option (List Byte)
  | .word a :: .comma :: .leftBracket :: rest =>
    (wordBytes a).bind fun bs => (payloadBytes rest).map fun ps => op :: (bs ++ ps)
  | _ => none

/-- The two fields of `base+off`: "the assembler does not add the two numbers". -/
def baseOffBytes (base off : String) : Option (List Byte) :=
  (wordBytes base).bind fun bs => (wordBytes off).map fun os => bs ++ os

/-- Format B0: `base+off`. -/
def textB0 (op : Byte) : List Token → Option (List Byte)
  | [.word b, .plus, .word o] => (baseOffBytes b o).map fun bs => op :: bs
  | _ => none

/-- Format B1: `base+off, d`. -/
def textB1 (op : Byte) : List Token → Option (List Byte)
  | [.word b, .plus, .word o, .comma, .word d] => (baseOffBytes b o).bind fun bs => (byteOf d).map fun v => op :: (bs ++ [v])
  | _ => none

/-- Format BP: `base+off, [p0, p1, ...]`. -/
def textBP (op : Byte) : List Token → Option (List Byte)
  | .word b :: .plus :: .word o :: .comma :: .leftBracket :: rest =>
    (baseOffBytes b o).bind fun bs => (payloadBytes rest).map fun ps => op :: (bs ++ ps)
  | _ => none

/-- The operand `value` of the G format, 0 or 1: `F.value` is one bit (R91). -/
def bitOf (w : String) : Option Byte := (byteOf w).bind fun b => if b.toNat < 2 then some b else none

/-- `GPIO.CFGIN pin` with `ctl = 0x00`, or `GPIO.CFGIN pin, value` with `ctl = value`. A `value` other than 0 or 1 is too
large for its field (DESIGN CHOICE, notes/assumptions/18.md). -/
def textConfigureIn : List Token → Option (List Byte)
  | [.word p] => (byteOf p).map fun pin => [Opcode.gpioCfg.toByte, pin, 0x00]
  | [.word p, .comma, .word v] =>
    (byteOf p).bind fun pin => (bitOf v).map fun value => [Opcode.gpioCfg.toByte, pin, value]
  | _ => none

/-- `GPIO.CFGOUT pin, value` with `ctl = 0x02 | value`; `value` as in `GPIO.CFGIN`. -/
def textConfigureOut : List Token → Option (List Byte)
  | [.word p, .comma, .word v] =>
    (byteOf p).bind fun pin => (bitOf v).map fun value => [Opcode.gpioCfg.toByte, pin, 0x02 ||| value]
  | _ => none

/-- R101: the pseudo-instructions and their expansions, in the forms R101 writes; `GPIO.CFG pin, IN` without a value is none of
them (notes/assumptions/18.md). -/
def expand : List Token → List Token
  | [.word "GPIO.CFG", p, .comma, .word "IN", .comma, v] => [.word "GPIO.CFGIN", p, .comma, v]
  | [.word "GPIO.CFG", p, .comma, .word "OUT", .comma, v] => [.word "GPIO.CFGOUT", p, .comma, v]
  | [.word "INVAL.PAGE"] => [.word "INVAL", .word "1"]
  | [.word "INVAL.MUX"] => [.word "INVAL", .word "2"]
  | [.word "INVAL.ALL"] => [.word "INVAL", .word "3"]
  | ts => ts

/-- R100: the operands of a mnemonic (R93), in the text form of its format. -/
def assembleOperands (mnemonic : String) (operands : List Token) : Option (List Byte) :=
  if mnemonic = "MUX.SEL" then textC Opcode.muxSel.toByte operands
  else if mnemonic = "MUX.CLOSE" then textZ Opcode.muxClose.toByte operands
  else if mnemonic = "INVAL" then textInval operands
  else if mnemonic = "PRS.ENSURE" then textZ Opcode.prsEnsure.toByte operands
  else if mnemonic = "PRS.WRB" then textA1 Opcode.prsWrb.toByte operands
  else if mnemonic = "PRS.RDB" then textA0 Opcode.prsRdb.toByte operands
  else if mnemonic = "PRS.WRBLK" then textAP Opcode.prsWrblk.toByte operands
  else if mnemonic = "PRS.RDBLK" then textA1 Opcode.prsRdblk.toByte operands
  else if mnemonic = "PRS.WRBO" then textB1 Opcode.prsWrbo.toByte operands
  else if mnemonic = "PRS.RDBO" then textB0 Opcode.prsRdbo.toByte operands
  else if mnemonic = "PRS.WRBLKO" then textBP Opcode.prsWrblko.toByte operands
  else if mnemonic = "PRS.RDBLKO" then textB1 Opcode.prsRdblko.toByte operands
  else if mnemonic = "GPIO.CFGIN" then textConfigureIn operands
  else if mnemonic = "GPIO.CFGOUT" then textConfigureOut operands
  else if mnemonic = "GPIO.RDMODE" then textC Opcode.gpioRdmode.toByte operands
  else if mnemonic = "SFP.POLL" then textC Opcode.sfpPoll.toByte operands
  else none

/-- The frame of a line's tokens. -/
def assembleTokens (ts : List Token) : Option (List Byte) :=
  match expand ts with
  | .word m :: operands => assembleOperands m operands
  | _ => none

/-- R100: the frame of one line: `MNEMONIC operand, operand, ...`. -/
def assemble (line : String) : Option (List Byte) := (lexLine line).bind assembleTokens

end Sys2Proof
end

