-- ==== Sys2Proof/Machine/SfpUnits.lean ====
section
/-! DEFINITION. What the raw integers of a poll mean (spec/43_sfp.md rules R211 to R213): exact functions of the raw integers,
rational where the rule is rational and real where it takes a logarithm; no floating-point format (spec/92_eei_decisions.md
D34). The step does not use them: "The hardware returns raw integers". -/

namespace Sys2Proof.Machine

/-- R211: `temperatureC = temp_raw / 256`, an exact rational. -/
def temperatureC (tempRaw : BitVec 16) : ℚ := tempRaw.toInt / 256

/-- R212, R213: micro-watts, `raw × 0.1`, exact. -/
def microWatts (raw : BitVec 16) : ℚ := raw.toNat / 10

/-- R212: `10 × log10(uW / 1000)`, a real number. -/
noncomputable def dbmOf (uW : ℚ) : ℝ := 10 * Real.logb 10 ((uW : ℝ) / 1000)

/-- R212, U5: `txPowerDbm`; absent for `tx_raw = 0`, where the logarithm has no value. -/
noncomputable def txPowerDbm (txRaw : BitVec 16) : Option ℝ := if txRaw = 0 then none else some (dbmOf (microWatts txRaw))

/-- R213: `rxPowerDbm`, with the floor of -40 at exactly 0 µW. -/
noncomputable def rxPowerDbm (rxRaw : BitVec 16) : ℝ := if rxRaw = 0 then -40 else dbmOf (microWatts rxRaw)

/-- R27: `SfpModule`, the source's result record; the core stores none. A field is absent where its flag is 0 (R216); a text
is `field[0..len-1]` (R209), as bytes (U8). -/
structure SfpModule where
  /-- The slot, as the index 0 to 3 for the slots 1 to 4. -/
  slot : Fin 4
  present : Bool
  moduleType : Option Byte
  vendorName : Option (List Byte)
  partNumber : Option (List Byte)
  serialNumber : Option (List Byte)
  temperatureC : Option ℚ
  txPowerDbm : Option ℝ
  rxPowerDbm : Option ℝ

/-- R209: the text of a field: the field without its trailing padding. -/
def trimmed (trimSet text : List Byte) : List Byte := text.take (trimLen trimSet text)

/-- R27, R204, R214: the record of a poll's result: with `present = false` "no other fields populated". -/
noncomputable def sfpModuleOf (trimSet : List Byte) (slot : Fin 4) (r : PollResult) : SfpModule where
  slot := slot
  present := r.vendor.isSome
  moduleType := r.vendor.map (·.moduleType)
  vendorName := r.vendor.map fun v => trimmed trimSet v.vendor
  partNumber := r.vendor.map fun v => trimmed trimSet v.part
  serialNumber := r.vendor.map fun v => trimmed trimSet v.serial
  temperatureC := r.diag.map fun d => Sys2Proof.Machine.temperatureC d.tempRaw
  txPowerDbm := r.diag.bind fun d => Sys2Proof.Machine.txPowerDbm d.txRaw
  rxPowerDbm := r.diag.map fun d => Sys2Proof.Machine.rxPowerDbm d.rxRaw

end Sys2Proof.Machine
end

