-- ==== Sys2Proof/Safety.lean ====
section
/-! DEFINITION. The terms in which claims are made: the transactions a command issues, a completed and a failed command, the form
every state keeps, the coherence of the caches with the reference devices, and the host's duties. -/

namespace Sys2Proof.Machine

/-! ### Traffic -/

/-- A transaction that succeeds: its request, and the bytes the environment answers. -/
abbrev Exchange := BusRequest × List Byte

/-- R130: the mux write of a `MuxSelect`, issued "if and only if `channel != currentChannel`". -/
def selectTraffic (c : Params) (mux : Option Byte) (chan : Byte) : List Exchange :=
  if mux = some chan then [] else [(.wb c.muxAddr c.muxReg chan, [])]

/-- R151: the window write that an access to `addr` needs. -/
def windowTraffic (c : Params) (page : Option Byte) (addr : Addr) : List Exchange :=
  if page = some (upperOf addr) then [] else [(.wk c.dpllAddr c.pageReg [lowerOf addr, upperOf addr, 0x10, 0x20], [])]

/-- R130: the page cache after an `EnsureChannel`: a committed mux change clears it. -/
def pageAfterEnsure (c : Params) (mux page : Option Byte) : Option Byte := if mux = some c.dpllChannel then page else none

/-- R153: the transactions of one paged access, "mux, window, data". -/
def pagedTraffic (c : Params) (mux page : Option Byte) (addr : Addr) (data : Exchange) : List Exchange :=
  selectTraffic c mux c.dpllChannel ++ windowTraffic c (pageAfterEnsure c mux page) addr ++ [data]

/-- R183: the transactions of an output configure of pin `p`, the group register reading `cur` and, where it is read again,
`again`. -/
def configureTraffic (c : Params) (mux page : Option Byte) (p : Fin 16) (cur new again : Byte) : List Exchange :=
  let dev := c.dpllAddr
  let group := lowerOf (c.groupOf p)
  pagedTraffic c mux page (c.groupOf p) (.rb dev group, [cur]) ++ [(.wb dev group new, [])] ++
  (match c.gpioRelatch with
    | .reread => [(.rb dev group, [again]), (.wb dev group again, [])]
    | .reuse => [(.wb dev group new, [])]) ++
  windowTraffic c (some (upperOf (c.groupOf p))) (c.pinControl p) ++
  [(.wb dev (lowerOf (c.pinControl p)) 0x04, [])]

/-- R203: the reads of the vendor-info region. -/
def infoReads (c : Params) (b0 b1 b2 : List Byte) : List Exchange :=
  [(.rk c.sfpInfoAddr 0x00 32, b0), (.rk c.sfpInfoAddr 0x20 32, b1), (.rk c.sfpInfoAddr 0x40 32, b2)]

/-- R205: the reads of the diagnostics region. -/
def diagReads (c : Params) (b0 b1 b2 b3 : List Byte) : List Exchange :=
  [(.rk c.sfpDiagAddr 0x00 32, b0), (.rk c.sfpDiagAddr 0x20 32, b1), (.rk c.sfpDiagAddr 0x40 32, b2),
    (.rk c.sfpDiagAddr 0x60 32, b3)]

/-- Every answer has the length the primitive guarantees (R51). -/
def Exact (x : List Exchange) : Prop := ∀ e ∈ x, e.2.length = readLength e.1

/-- The environment's part of successful transactions: it replies with their answers, in order. -/
def repliesOf (x : List Exchange) : List BusEvent := x.map fun e => .reply e.2

/-- The trace of successful transactions (R52). -/
def recordsOf (x : List Exchange) : List BusRecord := x.map fun e => ⟨e.1, .ok e.2⟩

/-- A command has run from `s` to `t` with the transactions `x`, all successful, and answered `OK` with `payload`: `info` is
their number (R97), and nothing is left of the command but the caches, its trace and its response (R24). -/
structure Completed (s t : State) (x : List Exchange) (rest : List BusEvent) (mux page : Option Byte)
    (payload : List Byte) : Prop where
  cfg : t.cfg = s.cfg
  cmdPort : t.cmdPort = s.cmdPort
  resetIn : t.resetIn = s.resetIn
  mux : t.mux = mux
  page : t.page = page
  seq : t.seq = .idle
  respPort : t.respPort = s.respPort ++ [0x00 :: BitVec.ofNat 8 x.length :: payload]
  busLog : t.busLog = s.busLog ++ recordsOf x
  script : t.env.script = rest

/-- R231: a command has run from `s` to `t` with the successful transactions `x`, then `request` failed, and the command
answered `BUS_ERROR` with their number. -/
structure Failed (s t : State) (x : List Exchange) (request : BusRequest) (rest : List BusEvent)
    (mux page : Option Byte) : Prop where
  cfg : t.cfg = s.cfg
  cmdPort : t.cmdPort = s.cmdPort
  resetIn : t.resetIn = s.resetIn
  mux : t.mux = mux
  page : t.page = page
  seq : t.seq = .idle
  respPort : t.respPort = s.respPort ++ [[0x01, BitVec.ofNat 8 x.length]]
  busLog : t.busLog = s.busLog ++ recordsOf x ++ [⟨request, .fail⟩]
  script : t.env.script = rest

/-- The transactions of a trace that completed successfully. -/
def okCount (log : List BusRecord) : Nat :=
  log.countP fun r => match r.completion with
    | .ok _ => true
    | .fail => false
    | .never => false
    | .abandoned => false

/-- R202: a poll has run from `s` to `t` with the trace `log`, has closed the multiplexer and answered `OK` with `payload`. -/
structure Polled (s t : State) (log : List BusRecord) (rest : List BusEvent) (payload : List Byte) : Prop where
  cfg : t.cfg = s.cfg
  cmdPort : t.cmdPort = s.cmdPort
  resetIn : t.resetIn = s.resetIn
  mux : t.mux = some 0x00
  page : t.page = none
  seq : t.seq = .idle
  respPort : t.respPort = s.respPort ++ [0x00 :: BitVec.ofNat 8 (okCount log) :: payload]
  busLog : t.busLog = s.busLog ++ log
  script : t.env.script = rest

/-- R207: the write that closes the multiplexer. -/
def closeWrite (c : Params) : BusRequest := .wb c.muxAddr c.muxReg 0x00

/-- R207: a poll of a slot with the channel `chan` has run from `s` to `t` with the trace `log` up to its close, the closing write
has failed, and the result is lost: the answer is `BUS_ERROR` without payload, and the cache still holds the channel. -/
structure CloseFailed (s t : State) (chan : Byte) (log : List BusRecord) (rest : List BusEvent) : Prop where
  cfg : t.cfg = s.cfg
  cmdPort : t.cmdPort = s.cmdPort
  resetIn : t.resetIn = s.resetIn
  mux : t.mux = some chan
  page : t.page = if s.mux = some chan then s.page else none
  seq : t.seq = .idle
  respPort : t.respPort = s.respPort ++ [[0x01, BitVec.ofNat 8 (okCount log)]]
  busLog : t.busLog = s.busLog ++ log ++ [⟨closeWrite s.cfg, .fail⟩]
  script : t.env.script = rest

/-- R231, R238: where the environment replies to the transactions `before` of the command `i` and fails the next one, that one is
`request`, the command answers `BUS_ERROR` with the number of the transactions before, and the caches are left as `mux` and
`page`. -/
def FailsAt (i : Instr) (s : State) (before : List Exchange) (request : BusRequest) (mux page : Option Byte) : Prop :=
  ∀ (taken : Nat) (rest : List BusEvent), s.env.script = repliesOf before ++ .fail taken :: rest →
    ∃ t, exec i s = .next t ∧ Failed s t before request rest mux page

end Sys2Proof.Machine

namespace Sys2Proof
open Sys2Proof.Machine

/-! ### Frames -/

/-- R95: "The length of a frame is fixed by its opcode, except the two block-write formats, whose length is `4 + n` (AP) or
`6 + n` (BP) with `n` taken from byte 3 or byte 5." -/
def Opcode.requiredLength (k : Opcode) (frame : List Byte) : Nat :=
  k.headerLength +
    match k with
    | .prsWrblk => (byteAt frame 3).toNat
    | .prsWrblko => (byteAt frame 5).toNat
    | _ => 0

/-- R93: `op` is a listed opcode; `0x30` only when `HAS_SFP`. -/
abbrev Opcode.Listed (hasSfp : Bool) (op : Byte) (k : Opcode) : Prop := k.toByte = op ∧ (k = .sfpPoll → hasSfp = true)

/-- R94: non-zero reserved bits: `mask[7:2]` of `INVAL`, `ctl[7:2]` of opcode `0x20`. -/
abbrev Opcode.ReservedBits (k : Opcode) (frame : List Byte) : Prop :=
  (k = .inval ∧ 4 ≤ (byteAt frame 1).toNat) ∨ (k = .gpioCfg ∧ 4 ≤ (byteAt frame 2).toNat)

/-- R94: an illegal frame. -/
def IllegalFrame (hasSfp : Bool) (frame : List Byte) : Prop :=
  frame ≠ [] ∧ ∀ k, Opcode.Listed hasSfp (byteAt frame 0) k →
    frame.length ≠ k.requiredLength frame ∨ k.ReservedBits frame

/-- R54, R58, R153: the logical address and the data transaction of a command that is one paged access with its arguments in
their domain. -/
def Instr.access (c : Params) : Instr → Option (Addr × BusRequest)
  | .muxSel _ => none
  | .muxClose => none
  | .inval _ => none
  | .prsEnsure => none
  | .prsWrb addr val => some (addr, .wb c.dpllAddr (lowerOf addr) val)
  | .prsRdb addr => some (addr, .rb c.dpllAddr (lowerOf addr))
  | .prsWrblk addr data => if c.BlockCount data.length then some (addr, .wk c.dpllAddr (lowerOf addr) data) else none
  | .prsRdblk addr cnt =>
    if c.BlockCount cnt.toNat then some (addr, .rk c.dpllAddr (lowerOf addr) cnt.toNat) else none
  | .prsWrbo base off val => (effectiveAddr base off).map fun addr => (addr, .wb c.dpllAddr (lowerOf addr) val)
  | .prsRdbo base off => (effectiveAddr base off).map fun addr => (addr, .rb c.dpllAddr (lowerOf addr))
  | .prsWrblko base off data =>
    if c.BlockCount data.length then
      (effectiveAddr base off).map fun addr => (addr, .wk c.dpllAddr (lowerOf addr) data)
    else none
  | .prsRdblko base off cnt =>
    if c.BlockCount cnt.toNat then
      (effectiveAddr base off).map fun addr => (addr, .rk c.dpllAddr (lowerOf addr) cnt.toNat)
    else none
  | .gpioCfgin _ _ => none
  | .gpioCfgout _ _ => none
  | .gpioRdmode _ => none
  | .sfpPoll _ => none

/-- The bytes a request writes, byte `i` to register `reg + i` (R56 (b)). -/
def BusRequest.written : BusRequest → List Byte
  | .wb _ _ value => [value]
  | .wk _ _ bytes => bytes
  | .rb _ _ => []
  | .rk _ _ _ => []

/-- The commands that store nothing in DPLL memory, whatever their operands. -/
def Instr.StoresNothing : Instr → Prop
  | .muxSel _ => True
  | .muxClose => True
  | .inval _ => True
  | .prsEnsure => True
  | .prsWrb _ _ => False
  | .prsRdb _ => True
  | .prsWrblk _ _ => False
  | .prsRdblk _ _ => True
  | .prsWrbo _ _ _ => False
  | .prsRdbo _ _ => True
  | .prsWrblko _ _ _ => False
  | .prsRdblko _ _ _ => True
  | .gpioCfgin _ _ => False
  | .gpioCfgout _ _ => False
  | .gpioRdmode _ => True
  | .sfpPoll _ => True

/-! ### Which requests a command can issue -/

/-- The mux write of a channel (R28). -/
abbrev Params.MuxWrite (c : Params) (chan : Byte) (r : BusRequest) : Prop := r = .wb c.muxAddr c.muxReg chan

/-- The window write that an access to `addr` can need (R29, R151). -/
abbrev Params.WindowWrite (c : Params) (addr : Addr) (r : BusRequest) : Prop :=
  r = .wk c.dpllAddr c.pageReg [lowerOf addr, upperOf addr, 0x10, 0x20]

/-- The requests of one paged access whose data transaction is `data` (R153). -/
abbrev Params.PagedRequest (c : Params) (addr : Addr) (data r : BusRequest) : Prop :=
  c.MuxWrite c.dpllChannel r ∨ c.WindowWrite addr r ∨ r = data

/-- The requests of R183 for pin `p`. -/
def Params.ConfigureRequest (c : Params) (p : Fin 16) (r : BusRequest) : Prop :=
  c.MuxWrite c.dpllChannel r ∨ c.WindowWrite (c.groupOf p) r ∨ c.WindowWrite (c.pinControl p) r ∨
  r = .rb c.dpllAddr (lowerOf (c.groupOf p)) ∨ (∃ v, r = .wb c.dpllAddr (lowerOf (c.groupOf p)) v) ∨
  r = .wb c.dpllAddr (lowerOf (c.pinControl p)) 0x04

/-- The requests of R202 for the slot of index `i`. -/
def Params.PollRequest (c : Params) (i : Fin 4) (r : BusRequest) : Prop :=
  c.MuxWrite (slotChannel i) r ∨ c.MuxWrite noChannel r ∨
  (∃ reg ∈ [0x00, 0x20, 0x40], r = .rk c.sfpInfoAddr reg 32) ∨
  (∃ reg ∈ [0x00, 0x20, 0x40, 0x60], r = .rk c.sfpDiagAddr reg 32) ∨ r = .rb c.sfpDiagAddr 110

/-- The requests a command can issue, whatever the environment answers; one line per command. -/
def Instr.Issues (c : Params) (r : BusRequest) : Instr → Prop
  | .muxSel chan => c.MuxWrite chan r
  | .muxClose => c.MuxWrite noChannel r
  | .inval _ => False
  | .prsEnsure => c.MuxWrite c.dpllChannel r
  | .prsWrb addr val => c.PagedRequest addr (.wb c.dpllAddr (lowerOf addr) val) r
  | .prsRdb addr => c.PagedRequest addr (.rb c.dpllAddr (lowerOf addr)) r
  | .prsWrblk addr data => c.BlockCount data.length ∧ c.PagedRequest addr (.wk c.dpllAddr (lowerOf addr) data) r
  | .prsRdblk addr cnt => c.BlockCount cnt.toNat ∧ c.PagedRequest addr (.rk c.dpllAddr (lowerOf addr) cnt.toNat) r
  | .prsWrbo base off val =>
    base.toNat + off.toNat ≤ 0xFFFF ∧ c.PagedRequest (base + off) (.wb c.dpllAddr (lowerOf (base + off)) val) r
  | .prsRdbo base off =>
    base.toNat + off.toNat ≤ 0xFFFF ∧ c.PagedRequest (base + off) (.rb c.dpllAddr (lowerOf (base + off))) r
  | .prsWrblko base off data =>
    base.toNat + off.toNat ≤ 0xFFFF ∧ c.BlockCount data.length ∧
      c.PagedRequest (base + off) (.wk c.dpllAddr (lowerOf (base + off)) data) r
  | .prsRdblko base off cnt =>
    base.toNat + off.toNat ≤ 0xFFFF ∧ c.BlockCount cnt.toNat ∧
      c.PagedRequest (base + off) (.rk c.dpllAddr (lowerOf (base + off)) cnt.toNat) r
  | .gpioCfgin pin _ =>
    ∃ p, pinOf pin = some p ∧ c.PagedRequest (c.pinControl p) (.wb c.dpllAddr (lowerOf (c.pinControl p)) 0x00) r
  | .gpioCfgout pin _ => ∃ p, pinOf pin = some p ∧ c.ConfigureRequest p r
  | .gpioRdmode pin =>
    ∃ p, pinOf pin = some p ∧ (c.PagedRequest (c.pinControl p) (.rb c.dpllAddr (lowerOf (c.pinControl p))) r ∨
      c.PagedRequest c.levelAddr (.rk c.dpllAddr (lowerOf c.levelAddr) 2) r)
  | .sfpPoll slot => ∃ i, slotOf slot = some i ∧ c.PollRequest i r

end Sys2Proof

namespace Sys2Proof.Machine

/-- A request that some command can issue. -/
def FromCore (c : Params) (r : BusRequest) : Prop := ∃ i : Instr, i.Issues c r

/-! ### The form every state keeps -/

/-- R97, R231: the form of a response frame: a status, an `info` of at most 10 (R23), a payload only with `OK`, and `info` 0
with `INVALID_ARGUMENT` and `ILLEGAL_COMMAND`. -/
def ResponseForm (frame : List Byte) : Prop :=
  ∃ (status : Status) (info : Byte) (payload : List Byte), frame = status.code :: info :: payload ∧ info.toNat ≤ 10 ∧
    (status ≠ .ok → payload = []) ∧ (status = .invalidArgument ∨ status = .illegalCommand → info = 0)

/-- R23: how many transactions the lines can still issue, each of them succeeding, under the caches of `s`. -/
def State.mostTransactions : List Line → State → Nat
  | [], _ => 0
  | line :: rest, s =>
    match line.request s.cfg s.mux s.page [] with
    | none => State.mostTransactions rest (line.pass s)
    | some _ => State.mostTransactions rest (line.commit s) + 1

/-- The form of what the core holds of a command under way: no more than 10 transactions in all (R23), only lines of a command's
procedure, and an `info` of at most 10 where it is to raise `BusError`. -/
structure Work.Inv (s : State) (tix : BitVec 8) (w : Work) : Prop where
  transactions : tix.toNat + s.mostTransactions w.todo ≤ 10
  lines : ∀ line ∈ w.todo, ∃ i, line ∈ (workOf s.cfg i).todo
  ending : ∀ info, w.ending = .raise (.busError info) → info.toNat ≤ 10

/-- The form of a state. -/
structure State.Inv (s : State) : Prop where
  /-- The memories of the reference devices are canonical and inside their address ranges (R70). -/
  devices : ∀ d ∈ s.env.devices, d.wf
  /-- So are those an external actor brings. -/
  actors : ∀ d, BusEvent.external d ∈ s.env.script → d.wf
  /-- R23: "`tix` never wraps: no command issues more than 10 transactions". -/
  tix : ∀ tix work, s.seq = .busy tix work → tix.toNat ≤ 10
  work : ∀ tix w, s.seq = .busy tix (some w) → w.Inv s tix
  /-- R50: "no command lets the host name any other" device; every request is one that some command issues. -/
  requests : ∀ r ∈ s.busLog, FromCore s.cfg r.request
  responses : ∀ f ∈ s.respPort, ResponseForm f

/-! ### Coherence -/

/-- R34, R66: the caches equal the hidden device state, where there are reference devices. -/
def Coherent (s : State) : Prop :=
  ∀ d ∈ s.env.devices, (∀ c, s.mux = some c → d.muxSel = c) ∧ ∀ u, s.page = some u → d.winUpper = u

/-- R66 (c): an event that does not break coherence: a transaction has its effect on the device exactly when it
succeeds. That nothing but the core changes the devices' registers is `SINGLE_OWNER` (R10), a premise of its own. -/
def BusEvent.Faithful : BusEvent → Prop
  | .reply _ => True
  | .lost _ => False
  | .fail taken => taken = 0
  | .hang taken => taken = 0
  | .reset taken => taken = 0
  | .answer => True
  | .pins _ => True
  | .external _ => True

/-- R151, R153: the lines select the DPLL before each window write they issue, under the caches of `s`. -/
def State.SelectsBeforeWindows : List Line → State → Prop
  | [], _ => True
  | line :: rest, s =>
    match line.request s.cfg s.mux s.page [] with
    | none => State.SelectsBeforeWindows rest (line.pass s)
    | some _ =>
      (line.isWindow = true → s.mux = some s.cfg.dpllChannel) ∧ State.SelectsBeforeWindows rest (line.commit s)

/-- The caches are coherent, also in the middle of a command, and the environment is faithful. -/
structure Synchronised (s : State) : Prop where
  coherent : Coherent s
  faithful : ∀ e ∈ s.env.script, e.Faithful
  windows : ∀ tix w, s.seq = .busy tix (some w) → s.SelectsBeforeWindows w.todo

end Sys2Proof.Machine

namespace Sys2Proof
open Sys2Proof.Machine

/-- R267: the host's duty: a paged access is in-page and keeps clear of `PAGE_REG .. PAGE_REG+3`. The other commands make no
access of the host's choosing. -/
def Instr.KeepsDuty (c : Params) : Instr → Prop
  | .muxSel _ => True
  | .muxClose => True
  | .inval _ => True
  | .prsEnsure => True
  | .prsWrb addr _ => c.BlockClear (lowerOf addr) 1
  | .prsRdb addr => c.BlockClear (lowerOf addr) 1
  | .prsWrblk addr data => c.BlockClear (lowerOf addr) data.length
  | .prsRdblk addr cnt => c.BlockClear (lowerOf addr) cnt.toNat
  | .prsWrbo base off _ => c.BlockClear (lowerOf (base + off)) 1
  | .prsRdbo base off => c.BlockClear (lowerOf (base + off)) 1
  | .prsWrblko base off data => c.BlockClear (lowerOf (base + off)) data.length
  | .prsRdblko base off cnt => c.BlockClear (lowerOf (base + off)) cnt.toNat
  | .gpioCfgin _ _ => True
  | .gpioCfgout _ _ => True
  | .gpioRdmode _ => True
  | .sfpPoll _ => True

/-! ### Argument domains -/

/-- R233: the commands that answer `INVALID_ARGUMENT`; never for a pin and never for a channel. -/
def Instr.OutOfDomain (c : Params) : Instr → Prop
  | .muxSel _ => False
  | .muxClose => False
  | .inval _ => False
  | .prsEnsure => False
  | .prsWrb _ _ => False
  | .prsRdb _ => False
  | .prsWrblk _ data => data.length = 0 ∨ c.maxBlock < data.length
  | .prsRdblk _ cnt => cnt.toNat = 0 ∨ c.maxBlock < cnt.toNat
  | .prsWrbo base off _ => 0xFFFF < base.toNat + off.toNat
  | .prsRdbo base off => 0xFFFF < base.toNat + off.toNat
  | .prsWrblko base off data => 0xFFFF < base.toNat + off.toNat ∨ data.length = 0 ∨ c.maxBlock < data.length
  | .prsRdblko base off cnt => 0xFFFF < base.toNat + off.toNat ∨ cnt.toNat = 0 ∨ c.maxBlock < cnt.toNat
  | .gpioCfgin _ _ => False
  | .gpioCfgout _ _ => False
  | .gpioRdmode _ => False
  | .sfpPoll slot => slot.toNat < 1 ∨ 4 < slot.toNat

end Sys2Proof

namespace Sys2Proof.Machine

/-! ### Sequences of commands -/

/-- Commands executed one after another (R64), for claims about sequences. -/
def execAll : List Instr → State → Host.Outcome State Fault Refusal
  | [], s => .next s
  | i :: rest, s =>
    match exec i s with
    | .next t => execAll rest t
    | .fault f => .fault f
    | .refused r => .refused r

/-- R163: the number of `i >= 2` with `upper_i != upper_(i-1)`. -/
def upperTransitions : List Byte → Nat
  | [] => 0
  | [_] => 0
  | u :: v :: rest => (if u = v then 0 else 1) + upperTransitions (v :: rest)

/-- The window writes of a trace (R29). -/
def windowWrites (c : Params) (log : List BusRecord) : Nat :=
  log.countP fun r => match r.request with
    | .wk dev reg bytes => dev = c.dpllAddr ∧ reg = c.pageReg ∧ bytes.length = 4
    | _ => false

/-- `n` steps of the block. -/
def stepN : Nat → State → Host.Outcome State Fault Refusal
  | 0, s => .next s
  | n + 1, s =>
    match step s with
    | .next t => stepN n t
    | .fault f => .fault f
    | .refused r => .refused r

end Sys2Proof.Machine
end

