-- ==== Sys2Proof/Certificates/Slice0/Obligations.lean ====
section
/-! DEFINITION. The statements for the provers. Each holds for every parameter set, every state and every environment that its
hypotheses admit; none rests on the values of `Params.t0`, on the free values of Config, or on which value a state's script
holds beyond the hypotheses. -/

section
open Sys2Proof Sys2Proof.Machine

/-! ### Encoding -/

/-- R91, R93: no bit of a frame is dropped. -/
def Obligations.DecodeOfEncodeGivesTheCommand : Prop :=
  ∀ (hasSfp : Bool) (i : Instr), i.wf hasSfp = true → decodeFrame hasSfp (encode i) = .ok i

/-- R91, R93, R95: every frame that is accepted is the one frame of its command, and the command is well-formed. -/
def Obligations.EncodeOfDecodeGivesTheFrame : Prop :=
  ∀ (hasSfp : Bool) (frame : List Byte) (i : Instr), decodeFrame hasSfp frame = .ok i →
    encode i = frame ∧ i.wf hasSfp = true

/-- 30_encoding.md section 5: a frame that is a command matches its command's row of the opcode table and no other; a frame
that is not a command matches none. The row of `SFP.POLL` has the condition `HAS_SFP`. -/
def Obligations.DecoderAgreesWithTheOpcodeTable : Prop :=
  ∀ (hasSfp : Bool) (frame : List Byte),
    let rows := opcodeTable.filter fun row => hasSfp || row.mnemonic != "SFP.POLL"
    (∀ i, decodeFrame hasSfp frame = .ok i →
      (rows.filter fun row => row.matches frame).map (·.mnemonic) = [i.mnemonic]) ∧
    (∀ e, decodeFrame hasSfp frame = .error e → rows.filter (fun row => row.matches frame) = [])

/-- R94, R95, R96: the first three checks, in their order: opcode, length, reserved bits. -/
def Obligations.ChecksComeInTheFixedOrder : Prop :=
  ∀ (hasSfp : Bool) (frame : List Byte), frame ≠ [] →
    ((∀ k, ¬ Opcode.Listed hasSfp (byteAt frame 0) k) → decodeFrame hasSfp frame = .error .reservedOpcode) ∧
    ∀ k, Opcode.Listed hasSfp (byteAt frame 0) k →
      (frame.length ≠ k.requiredLength frame → decodeFrame hasSfp frame = .error .wrongLength) ∧
      (frame.length = k.requiredLength frame → k.ReservedBits frame → decodeFrame hasSfp frame = .error .reservedBits) ∧
      (frame.length = k.requiredLength frame → ¬ k.ReservedBits frame →
        ∃ i, decodeFrame hasSfp frame = .ok i ∧ i.opcode = k)

/-- 30_encoding.md section 4: six frames written out byte by byte there, of the formats C, A1, BP and G. -/
def Obligations.DecodesTheWorkedEncodings : Prop :=
  decodeFrame true [0x01, 0x20] = .ok (.muxSel 0x20) ∧
  decodeFrame true [0x03, 0x03] = .ok (.inval 3) ∧
  decodeFrame true [0x11, 0x24, 0xC0, 0x5A] = .ok (.prsWrb 0xC024 0x5A) ∧
  decodeFrame true [0x1B, 0x00, 0xC0, 0xF0, 0x00, 0x03, 0x01, 0x02, 0x03] = .ok (.prsWrblko 0xC000 0x00F0 [1, 2, 3]) ∧
  decodeFrame true [0x20, 0x0B, 0x03] = .ok (.gpioCfgout 11 true) ∧
  decodeFrame true [0x30, 0x03] = .ok (.sfpPoll 3)

/-- R100: texts and frames of 30_encoding.md section 4. -/
def Obligations.AssemblesTheWorkedTexts : Prop :=
  assemble "MUX.SEL 0x20" = some [0x01, 0x20] ∧
  assemble "INVAL PAGE|MUX" = some [0x03, 0x03] ∧
  assemble "PRS.WRB 0xC024, 0x5A" = some [0x11, 0x24, 0xC0, 0x5A] ∧
  assemble "PRS.WRBLK 0xC0F0, [1, 2, 3]" = some [0x13, 0xF0, 0xC0, 0x03, 0x01, 0x02, 0x03] ∧
  assemble "PRS.RDBO 0xC8C0+0x10" = some [0x1A, 0xC0, 0xC8, 0x10, 0x00] ∧
  assemble "GPIO.CFGOUT 11, 1 ; pin 11 high" = some [0x20, 0x0B, 0x03]

/-- R101, whole. -/
def Obligations.PseudoInstructionsExpand : Prop :=
  (∀ p v : String,
    assembleTokens [.word "GPIO.CFG", .word p, .comma, .word "IN", .comma, .word v] =
      assembleTokens [.word "GPIO.CFGIN", .word p, .comma, .word v] ∧
    assembleTokens [.word "GPIO.CFG", .word p, .comma, .word "OUT", .comma, .word v] =
      assembleTokens [.word "GPIO.CFGOUT", .word p, .comma, .word v]) ∧
  assembleTokens [.word "INVAL.PAGE"] = assembleTokens [.word "INVAL", .word "1"] ∧
  assembleTokens [.word "INVAL.MUX"] = assembleTokens [.word "INVAL", .word "2"] ∧
  assembleTokens [.word "INVAL.ALL"] = assembleTokens [.word "INVAL", .word "3"] ∧
  assembleTokens [.word "MUX.CLOSE"] = some [0x02] ∧
  ∀ s : State, exec .muxClose s = exec (.muxSel 0x00) s

/-! ### The sequencer and the reset input -/

/-- R9, R23, R90: when the core is idle and the reset input is not asserted, a step accepts the frame at the head of the command
port: the core is busy with `tix = 0` and the latches of the command it carries. The core's own steps, at least one and at most
ten, then do exactly what `exec` says of the command. With no frame offered nothing changes. That acceptance is a step of its
own, and what belongs to one step, is the model's reading of R9 (notes/assumptions/4.md); that frames still offered stay offered
where the command is reset with a transaction in flight, and that the script says when it is, is its reading of R260
(notes/assumptions/9.md). -/
def Obligations.StepRunsTheDecodedCommand : Prop :=
  ∀ s : State, s.cfg.WellFormed → s.seq = .idle → (∀ b ∈ s.resetIn.take 11, b = false) →
    (∀ (frame : List Byte) (later : List (List Byte)) (i : Instr), s.cmdPort = frame :: later →
      decodeFrame s.cfg.hasSfp frame = .ok i →
      step s = .next { s with
        cmdPort := later, resetIn := s.resetIn.tail, seq := .busy 0 (some (workOf s.cfg i)) } ∧
      ∃ n t, 1 ≤ n ∧ n ≤ 10 ∧ exec i { s with cmdPort := later } = .next t ∧
        stepN (n + 1) s = .next { t with resetIn := s.resetIn.drop (n + 1) }) ∧
    (s.cmdPort = [] → step s = .next { s with resetIn := s.resetIn.tail })

/-- R9, R23, R59: one step of a busy core, with the reset input not asserted, takes no frame and issues at most one bus
transaction; if it issues none the command needed none, and ends with its response. That what needs no transaction belongs to the
step of the transaction beside it is the model's reading of R9 (notes/assumptions/4.md); that offered frames stay offered also
through a step whose transaction the reset input abandons, as the script says, is its reading of R260 (notes/assumptions/9.md). -/
def Obligations.EachStepIsAtMostOneTransaction : Prop :=
  ∀ (s t : State) (tix : BitVec 8) (w : Work), s.seq = .busy tix (some w) → s.resetIn.head? ≠ some true →
    step s = .next t →
    t.cmdPort = s.cmdPort ∧ t.resetIn = s.resetIn.tail ∧
    ((∃ r, t.busLog = s.busLog ++ [r]) ∨
      (t.busLog = s.busLog ∧ t.env = s.env ∧ t.seq = .idle ∧ ∃ frame, t.respPort = s.respPort ++ [frame]))

/-- R234: the three causes, no bus traffic, no state change. That the answer comes with the second step, the first one accepting
the frame, is the model's choice (notes/assumptions/4.md); that an empty frame is answered so is its reading of R90 and R94
(notes/assumptions/5.md). -/
def Obligations.IllegalFramesGetIllegalCommand : Prop :=
  ∀ (s : State) (frame : List Byte) (later : List (List Byte)), s.cfg.WellFormed → s.seq = .idle →
    (∀ b ∈ s.resetIn.take 2, b = false) → s.cmdPort = frame :: later →
    IllegalFrame s.cfg.hasSfp frame ∨ frame = [] →
    stepN 2 s = .next { s with
      cmdPort := later, resetIn := s.resetIn.drop 2, respPort := s.respPort ++ [[0x03, 0x00]] }

/-- R35, R260, R261: at any time, whatever the sequencer is and whatever the core has left to do, the reset input makes both caches
unknown and the sequencer idle; a command under way is abandoned without a response, and nothing else changes. Asserted before a
transaction, there is none; asserted while the next one is in flight, that one is abandoned, and the devices took of it what the
environment says. That frames already offered stay offered, and that the script says when reset comes in flight, is the model's
reading (notes/assumptions/9.md). -/
def Obligations.ResetInputForgetsTheCaches : Prop :=
  ∀ s : State, s.cfg.WellFormed →
    (∀ later, s.resetIn = true :: later →
      step s = .next { s with resetIn := later, mux := none, page := none, seq := .idle }) ∧
    (∀ taken, s.resetIn.head? ≠ some true → s.settle.issuesNext = true → (s.env.arrival s.cfg).event = .reset taken →
      ∃ r window, step s = .next { s with
        resetIn := s.resetIn.tail, mux := none, page := none, seq := .idle, busLog := s.busLog ++ [⟨r, .abandoned⟩],
        env := (s.env.arrival s.cfg).after s.cfg window r })

/-- R23, R24, R241, R260: every command of a well-formed configuration has a next state. Either it responds once and the core is
idle; or a transaction never completes and the core is busy without a response; or the reset input, asserted while a transaction
is in flight, abandons that transaction and the command without a response, and nothing is known of the caches. That the frames
offered stay offered through such a reset (DEDUCED), and that an event of the environment's script says when it comes (DESIGN
CHOICE), is the model's reading (notes/assumptions/9.md). -/
def Obligations.EveryCommandRespondsOnceOrHangsOrIsReset : Prop :=
  ∀ (i : Instr) (s : State), s.cfg.WellFormed →
    ∃ (t : State) (log : List BusRecord), exec i s = .next t ∧ t.busLog = s.busLog ++ log ∧
      t.cfg = s.cfg ∧ t.cmdPort = s.cmdPort ∧ t.resetIn = s.resetIn ∧
      ((t.seq = .idle ∧ (∃ frame, t.respPort = s.respPort ++ [frame]) ∧
          ∀ x ∈ log, x.completion ≠ .never ∧ x.completion ≠ .abandoned) ∨
        ((∃ k, t.seq = .busy k none) ∧ t.respPort = s.respPort ∧
          ∃ before r, log = before ++ [⟨r, .never⟩] ∧ ∀ x ∈ before, x.completion ≠ .never ∧ x.completion ≠ .abandoned) ∨
        (t.seq = .idle ∧ t.mux = none ∧ t.page = none ∧ t.respPort = s.respPort ∧ (∃ taken, .reset taken ∈ s.env.script) ∧
          ∃ before r, log = before ++ [⟨r, .abandoned⟩] ∧ ∀ x ∈ before, x.completion ≠ .never ∧ x.completion ≠ .abandoned))

/-- R23, R241: a core whose transaction never completes is busy: it takes no frame, sends no response and stays as it is for ever,
unless reset is asserted (notes/assumptions/10.md). -/
def Obligations.BusyCoreWaitsForReset : Prop :=
  ∀ (n : Nat) (s : State) (k : BitVec 8), s.cfg.WellFormed → s.seq = .busy k none → (∀ b ∈ s.resetIn.take n, b = false) →
    stepN n s = .next { s with resetIn := s.resetIn.drop n }

/-! ### Invariants of every step -/

/-- Every step keeps the form of the state, idle or in the middle of a command: canonical device memories (R70), no more than 10
transactions made and still to come (R23), every request one that a command issues (R50), every response of the form of R97. -/
def Obligations.StepKeepsInv : Prop :=
  ∀ s t : State, s.Inv → step s = .next t → t.Inv

/-- R35: the state after reset knows nothing of the devices, and has the form; the parameter values in it are the model's choice
(notes/assumptions/2.md), on which this does not rest. -/
def Obligations.ResetSatisfiesInv : Prop :=
  State.reset.Inv ∧ State.reset.mux = none ∧ State.reset.page = none ∧ State.reset.seq = .idle

/-- R5: no step changes a parameter. R6: under a set that is not well-formed neither a step nor a command has a meaning. That
nothing sent on the response port or the bus master port is unsent is the model's choice, which keeps both ports as histories
(notes/assumptions/15.md). -/
def Obligations.ParametersNeverChange : Prop :=
  (∀ s t : State, step s = .next t → t.cfg = s.cfg ∧ s.respPort <+: t.respPort ∧ s.busLog <+: t.busLog) ∧
  ∀ s : State, ¬ s.cfg.WellFormed →
    step s = .refused .illFormedParameters ∧ ∀ i, exec i s = .refused .illFormedParameters

/-- R34, R66: under single ownership, with transactions that have their effect exactly when they succeed, the caches stay equal to
what the devices hold, through every transaction of every command. An access at the paging register (R63, U2) leaves nothing
known of the devices (notes/assumptions/11.md), so nothing is said of them after it. That the multiplexer takes a channel of no
known device too (notes/assumptions/24.md), and that a mux write at an SFP address goes to it alone (notes/assumptions/21.md), are
the model's choices. So is that a window write moves the window also where `PAGE_REG` is above 0xFC (notes/assumptions/25.md). -/
def Obligations.CachesStayCoherent : Prop :=
  ∀ s t : State, s.cfg.singleOwner = true → s.cfg.muxAddr ≠ s.cfg.dpllAddr → Synchronised s → step s = .next t →
    Synchronised t

/-- R268, R66 (c): a mux write that fails after the multiplexer took it leaves the cache at the old channel, a select of that
channel then issues nothing, and `INVAL MUX` repairs it. That the multiplexer takes a channel of no known device too
(notes/assumptions/24.md), and that a mux write at the address of a downstream device goes to it alone
(notes/assumptions/21.md), are the model's choices. -/
def Obligations.FailedMuxWriteLeavesTheCacheStale : Prop :=
  ∀ (chan old : Byte) (s : State) (d : Devices) (taken : Nat) (rest : List BusEvent), s.cfg.WellFormed →
    s.mux = some old → old ≠ chan → s.env.devices = some d → 0 < taken → s.env.script = .fail taken :: rest →
    ∃ t u v, exec (.muxSel chan) s = .next t ∧ t.mux = some old ∧
      (∃ d', t.env.devices = some d' ∧ d'.muxSel = chan) ∧
      exec (.muxSel old) t = .next u ∧ u.busLog = t.busLog ∧ u.respPort = t.respPort ++ [[0x00, 0x00]] ∧ ¬ Coherent u ∧
      exec (.inval 2) t = .next v ∧ v.mux = none

/-! ### The multiplexer -/

/-- R130, R131: one write when the cache does not hold the channel, none when it does; a committed change clears the page cache;
a failed write changes no state. -/
def Obligations.MuxSelWritesOnlyOnChange : Prop :=
  ∀ (chan : Byte) (s : State) (rest : List BusEvent), s.cfg.WellFormed →
    (s.env.script = repliesOf (selectTraffic s.cfg s.mux chan) ++ rest →
      ∃ t, exec (.muxSel chan) s = .next t ∧
        Completed s t (selectTraffic s.cfg s.mux chan) rest (some chan) (if s.mux = some chan then s.page else none) []) ∧
    (∀ taken, s.mux ≠ some chan → s.env.script = .fail taken :: rest →
      ∃ t, exec (.muxSel chan) s = .next t ∧ Failed s t [] (.wb s.cfg.muxAddr s.cfg.muxReg chan) rest s.mux s.page)

/-- R132: the same for the channel `0x00`. -/
def Obligations.MuxCloseSelectsNoChannel : Prop :=
  ∀ (s : State) (rest : List BusEvent), s.cfg.WellFormed →
    (s.env.script = repliesOf (selectTraffic s.cfg s.mux 0x00) ++ rest →
      ∃ t, exec .muxClose s = .next t ∧
        Completed s t (selectTraffic s.cfg s.mux 0x00) rest (some 0x00) (if s.mux = some 0x00 then s.page else none) []) ∧
    (∀ taken, s.mux ≠ some 0x00 → s.env.script = .fail taken :: rest →
      ∃ t, exec .muxClose s = .next t ∧ Failed s t [] (.wb s.cfg.muxAddr s.cfg.muxReg 0x00) rest s.mux s.page)

/-- R135: whole. -/
def Obligations.RepeatedSelectWritesOnce : Prop :=
  ∀ (chan : Byte) (s : State) (rest : List BusEvent), s.cfg.WellFormed → s.mux ≠ some chan →
    (s.env.script = .reply [] :: rest →
      ∃ t u, exec (.muxSel chan) s = .next t ∧ exec (.muxSel chan) t = .next u ∧
        t.busLog = s.busLog ++ [⟨.wb s.cfg.muxAddr s.cfg.muxReg chan, .ok []⟩] ∧
        t.respPort = s.respPort ++ [[0x00, 0x01]] ∧ u.busLog = t.busLog ∧ u.respPort = t.respPort ++ [[0x00, 0x00]]) ∧
    (∀ taken, s.env.script = .fail taken :: .reply [] :: rest →
      ∃ t u, exec (.muxSel chan) s = .next t ∧ exec (.muxSel chan) t = .next u ∧
        t.busLog = s.busLog ++ [⟨.wb s.cfg.muxAddr s.cfg.muxReg chan, .fail⟩] ∧
        u.busLog = t.busLog ++ [⟨.wb s.cfg.muxAddr s.cfg.muxReg chan, .ok []⟩])

/-- R133: `INVAL` clears the named valid bits, causes no bus traffic, changes nothing else and answers `OK`. -/
def Obligations.InvalClearsTheNamedCaches : Prop :=
  ∀ (mask : BitVec 2) (s : State), s.cfg.WellFormed →
    exec (.inval mask) s = .next { s with
      page := if mask.getLsbD 0 then none else s.page
      mux := if mask.getLsbD 1 then none else s.mux
      seq := .idle
      respPort := s.respPort ++ [[0x00, 0x00]] }

/-- R67: after `INVAL` with mask bit 0 the next paged access, whichever command makes it, issues a window write whatever its upper
byte; after mask bit 1 it issues a mux write too, which clears the page cache and so forces the window write; and after mask bit
1 the next `MUX.SEL` issues a mux write whatever its channel, which clears the page cache. -/
def Obligations.InvalForcesTheNextWrites : Prop :=
  ∀ (mask : BitVec 2) (s : State) (rest : List BusEvent), s.cfg.WellFormed →
    let mux := if mask.getLsbD 1 then none else s.mux
    let page := if mask.getLsbD 0 then none else s.page
    (∀ (i : Instr) (addr : Addr) (r : BusRequest) (bytes : List Byte), i.access s.cfg = some (addr, r) →
      bytes.length = readLength r → mask ≠ 0 →
      let window : Exchange := (.wk s.cfg.dpllAddr s.cfg.pageReg [lowerOf addr, upperOf addr, 0x10, 0x20], [])
      let x := selectTraffic s.cfg mux s.cfg.dpllChannel ++ [window, (r, bytes)]
      (mask.getLsbD 1 = true → selectTraffic s.cfg mux s.cfg.dpllChannel =
        [(.wb s.cfg.muxAddr s.cfg.muxReg s.cfg.dpllChannel, [])]) ∧
      (s.env.script = repliesOf x ++ rest →
        ∃ t u, exec (.inval mask) s = .next t ∧ t.mux = mux ∧ t.page = page ∧ exec i t = .next u ∧
          Completed t u x rest (some s.cfg.dpllChannel) (some (upperOf addr)) bytes)) ∧
    ∀ chan : Byte, mask.getLsbD 1 = true → s.env.script = .reply [] :: rest →
      ∃ t u, exec (.inval mask) s = .next t ∧ exec (.muxSel chan) t = .next u ∧
        Completed t u [(.wb s.cfg.muxAddr s.cfg.muxReg chan, [])] rest (some chan) none []

/-! ### Paged accesses -/

/-- R150, R152. -/
def Obligations.PrsEnsureSelectsTheDpll : Prop :=
  ∀ (s : State) (rest : List BusEvent), s.cfg.WellFormed →
    (s.env.script = repliesOf (selectTraffic s.cfg s.mux s.cfg.dpllChannel) ++ rest →
      ∃ t, exec .prsEnsure s = .next t ∧
        Completed s t (selectTraffic s.cfg s.mux s.cfg.dpllChannel) rest (some s.cfg.dpllChannel)
          (if s.mux = some s.cfg.dpllChannel then s.page else none) []) ∧
    (∀ taken, s.mux ≠ some s.cfg.dpllChannel → s.env.script = .fail taken :: rest →
      ∃ t, exec .prsEnsure s = .next t ∧
        Failed s t [] (.wb s.cfg.muxAddr s.cfg.muxReg s.cfg.dpllChannel) rest s.mux s.page)

/-- R151, R153, R154, R155: the traffic of a byte write, "mux, window, data", each of the first two only where its cache misses,
and the caches it leaves; both address forms. -/
def Obligations.ByteWritesComplete : Prop :=
  ∀ (val : Byte) (s : State) (rest : List BusEvent), s.cfg.WellFormed →
    (∀ addr : Addr,
      let x := pagedTraffic s.cfg s.mux s.page addr (.wb s.cfg.dpllAddr (lowerOf addr) val, [])
      s.env.script = repliesOf x ++ rest →
      ∃ t, exec (.prsWrb addr val) s = .next t ∧
        Completed s t x rest (some s.cfg.dpllChannel) (some (upperOf addr)) []) ∧
    (∀ base off : Addr, base.toNat + off.toNat ≤ 0xFFFF →
      let x := pagedTraffic s.cfg s.mux s.page (base + off) (.wb s.cfg.dpllAddr (lowerOf (base + off)) val, [])
      s.env.script = repliesOf x ++ rest →
      ∃ t, exec (.prsWrbo base off val) s = .next t ∧
        Completed s t x rest (some s.cfg.dpllChannel) (some (upperOf (base + off))) [])

/-- R151, R153, R156, R157: the same for a byte read, whose payload is the byte the environment answers. -/
def Obligations.ByteReadsComplete : Prop :=
  ∀ (v : Byte) (s : State) (rest : List BusEvent), s.cfg.WellFormed →
    (∀ addr : Addr,
      let x := pagedTraffic s.cfg s.mux s.page addr (.rb s.cfg.dpllAddr (lowerOf addr), [v])
      s.env.script = repliesOf x ++ rest →
      ∃ t, exec (.prsRdb addr) s = .next t ∧
        Completed s t x rest (some s.cfg.dpllChannel) (some (upperOf addr)) [v]) ∧
    (∀ base off : Addr, base.toNat + off.toNat ≤ 0xFFFF →
      let x := pagedTraffic s.cfg s.mux s.page (base + off) (.rb s.cfg.dpllAddr (lowerOf (base + off)), [v])
      s.env.script = repliesOf x ++ rest →
      ∃ t, exec (.prsRdbo base off) s = .next t ∧
        Completed s t x rest (some s.cfg.dpllChannel) (some (upperOf (base + off))) [v])

/-- R57, R58, R158, R159, R164: a block write of 1 to `MAX_BLOCK` bytes is one transaction with all its bytes, wherever it
starts. -/
def Obligations.BlockWritesComplete : Prop :=
  ∀ (data : List Byte) (s : State) (rest : List BusEvent), s.cfg.WellFormed → 1 ≤ data.length →
    data.length ≤ s.cfg.maxBlock →
    (∀ addr : Addr,
      let x := pagedTraffic s.cfg s.mux s.page addr (.wk s.cfg.dpllAddr (lowerOf addr) data, [])
      s.env.script = repliesOf x ++ rest →
      ∃ t, exec (.prsWrblk addr data) s = .next t ∧
        Completed s t x rest (some s.cfg.dpllChannel) (some (upperOf addr)) []) ∧
    (∀ base off : Addr, base.toNat + off.toNat ≤ 0xFFFF →
      let x := pagedTraffic s.cfg s.mux s.page (base + off) (.wk s.cfg.dpllAddr (lowerOf (base + off)) data, [])
      s.env.script = repliesOf x ++ rest →
      ∃ t, exec (.prsWrblko base off data) s = .next t ∧
        Completed s t x rest (some s.cfg.dpllChannel) (some (upperOf (base + off))) [])

/-- R58, R160, R161: a block read is one transaction, and its payload is the bytes the environment answers, in order. -/
def Obligations.BlockReadsComplete : Prop :=
  ∀ (cnt : Byte) (bytes : List Byte) (s : State) (rest : List BusEvent), s.cfg.WellFormed → 1 ≤ cnt.toNat →
    cnt.toNat ≤ s.cfg.maxBlock → bytes.length = cnt.toNat →
    (∀ addr : Addr,
      let x := pagedTraffic s.cfg s.mux s.page addr (.rk s.cfg.dpllAddr (lowerOf addr) cnt.toNat, bytes)
      s.env.script = repliesOf x ++ rest →
      ∃ t, exec (.prsRdblk addr cnt) s = .next t ∧
        Completed s t x rest (some s.cfg.dpllChannel) (some (upperOf addr)) bytes) ∧
    (∀ base off : Addr, base.toNat + off.toNat ≤ 0xFFFF →
      let x := pagedTraffic s.cfg s.mux s.page (base + off) (.rk s.cfg.dpllAddr (lowerOf (base + off)) cnt.toNat, bytes)
      s.env.script = repliesOf x ++ rest →
      ∃ t, exec (.prsRdblko base off cnt) s = .next t ∧
        Completed s t x rest (some s.cfg.dpllChannel) (some (upperOf (base + off))) bytes)

/-- R162, R231: what each failure position of a paged access leaves, and that a retry after case (c) issues only the data
transaction. -/
def Obligations.FailurePositionsOfAPagedAccess : Prop :=
  ∀ (i : Instr) (addr : Addr) (r : BusRequest) (s : State) (taken : Nat) (rest : List BusEvent), s.cfg.WellFormed →
    i.access s.cfg = some (addr, r) →
    let chan := s.cfg.dpllChannel
    let mux : Exchange := (.wb s.cfg.muxAddr s.cfg.muxReg chan, [])
    let window : Exchange := (.wk s.cfg.dpllAddr s.cfg.pageReg [lowerOf addr, upperOf addr, 0x10, 0x20], [])
    let before := selectTraffic s.cfg s.mux chan ++ windowTraffic s.cfg (pageAfterEnsure s.cfg s.mux s.page) addr
    (s.mux ≠ some chan → s.env.script = .fail taken :: rest →
      ∃ t, exec i s = .next t ∧ Failed s t [] mux.1 rest s.mux s.page) ∧
    (s.mux ≠ some chan → s.env.script = .reply [] :: .fail taken :: rest →
      ∃ t, exec i s = .next t ∧ Failed s t [mux] window.1 rest (some chan) none) ∧
    (s.mux = some chan → s.page ≠ some (upperOf addr) → s.env.script = .fail taken :: rest →
      ∃ t, exec i s = .next t ∧ Failed s t [] window.1 rest s.mux s.page) ∧
    (∀ bytes, bytes.length = readLength r → s.env.script = repliesOf before ++ .fail taken :: .reply bytes :: rest →
      ∃ t u, exec i s = .next t ∧ exec i t = .next u ∧
        Failed s t before r (.reply bytes :: rest) (some chan) (some (upperOf addr)) ∧
        Completed t u [(r, bytes)] rest (some chan) (some (upperOf addr)) bytes)

/-- R165: whole. -/
def Obligations.AddressFormsAgree : Prop :=
  ∀ (base off : Addr) (s : State), base.toNat + off.toNat ≤ 0xFFFF →
    (∀ val, exec (.prsWrbo base off val) s = exec (.prsWrb (base + off) val) s) ∧
    exec (.prsRdbo base off) s = exec (.prsRdb (base + off)) s ∧
    (∀ data, exec (.prsWrblko base off data) s = exec (.prsWrblk (base + off) data) s) ∧
    ∀ cnt, exec (.prsRdblko base off cnt) s = exec (.prsRdblk (base + off) cnt) s

/-- R233: whole: where `INVALID_ARGUMENT` is raised, before any bus traffic and with no state change, and that it is raised
nowhere else. -/
def Obligations.InvalidArgumentExactlyOutsideTheDomain : Prop :=
  ∀ (i : Instr) (s : State), s.cfg.WellFormed → i.wf s.cfg.hasSfp = true →
    (i.OutOfDomain s.cfg → exec i s = .next { s with seq := .idle, respPort := s.respPort ++ [[0x02, 0x00]] }) ∧
    (¬ i.OutOfDomain s.cfg → ∀ t frame, exec i s = .next t → t.respPort = s.respPort ++ [frame] →
      frame.head? ≠ some 0x02)

/-- R163 (C9): over a run of paged accesses, all successful, the number of window writes is the number of upper-byte transitions,
plus one when the page cache does not hold the first upper byte. -/
def Obligations.WindowWritesCountUpperTransitions : Prop :=
  ∀ (run : List Instr) (s t : State) (log : List BusRecord) (first : Byte) (later : List Byte), s.cfg.WellFormed →
    (∀ i ∈ run, i.access s.cfg ≠ none ∧ i.KeepsDuty s.cfg) →
    run.filterMap (fun i => (i.access s.cfg).map fun a => upperOf a.1) = first :: later →
    execAll run s = .next t → t.respPort.length = s.respPort.length + run.length →
    t.busLog = s.busLog ++ log → (∀ r ∈ log, ∃ bytes, r.completion = .ok bytes) →
    windowWrites s.cfg log =
      upperTransitions (first :: later) + if pageAfterEnsure s.cfg s.mux s.page = some first then 0 else 1

/-! ### What a command can put on the bus -/

/-- R50, R137: in every environment, a command issues only requests of its own rule: to the four devices, at the registers its
operands name. -/
def Obligations.CommandsIssueOnlyTheirOwnRequests : Prop :=
  ∀ (i : Instr) (s t : State), exec i s = .next t →
    ∃ log, t.busLog = s.busLog ++ log ∧ ∀ r ∈ log, i.Issues s.cfg r.request

/-- R23, R215: no command issues more than 10 transactions. -/
def Obligations.NoCommandIssuesMoreThanTen : Prop :=
  ∀ (i : Instr) (s t : State) (log : List BusRecord), exec i s = .next t → t.busLog = s.busLog ++ log → log.length ≤ 10

/-- R97: `info`. For every response but `SFP.POLL`'s `BUS_ERROR` (R208) it is the number of transactions that succeeded, none at
all with `INVALID_ARGUMENT` and `ILLEGAL_COMMAND`; except for `SFP.POLL`, `OK` means that all did, and `BUS_ERROR` that
all did but the last one, which failed and whose index is `info`. -/
def Obligations.InfoCountsTheSuccessfulTransactions : Prop :=
  ∀ (i : Instr) (s t : State) (status info : Byte) (payload : List Byte) (log : List BusRecord), exec i s = .next t →
    t.respPort = s.respPort ++ [status :: info :: payload] → t.busLog = s.busLog ++ log →
    (status ≠ 0x01 ∨ (∀ slot, i ≠ .sfpPoll slot) → info.toNat = okCount log) ∧
    (status = 0x02 ∨ status = 0x03 → info = 0x00 ∧ log = []) ∧
    ((∀ slot, i ≠ .sfpPoll slot) → status = 0x00 → log.length = okCount log) ∧
    ((∀ slot, i ≠ .sfpPoll slot) → status = 0x01 →
      payload = [] ∧ ∃ before r, log = before ++ [⟨r, .fail⟩] ∧ before.length = info.toNat ∧
        ∀ x ∈ before, ∃ bytes, x.completion = .ok bytes)

/-! ### What stays as it was in the devices -/

/-- R53, R60: the commands that store nothing leave every byte of DPLL memory and every cage alone. That this holds of a mux write
also where `MUX_ADDR` is `DPLL_ADDR` or an SFP address (notes/assumptions/21.md), and also of a channel of no known device
(notes/assumptions/24.md), is the model's choice. So is that a window write only moves the window also where `PAGE_REG` is
above 0xFC (notes/assumptions/25.md). -/
def Obligations.NonStoringCommandsLeaveMemoryAlone : Prop :=
  ∀ (i : Instr) (s t : State) (d d' : Devices), s.cfg.singleOwner = true → i.StoresNothing → exec i s = .next t →
    s.env.devices = some d → t.env.devices = some d' →
    (∀ a, Memory.read d'.dpllMem a = Memory.read d.dpllMem a) ∧ d'.cages = d.cages

/-- R53, R56 (b): a paged access leaves every byte of DPLL memory alone but those its data transaction writes, from the logical
address on that `reg = lower` stands for in the device's window. That the access's mux write stores nothing, also where `MUX_ADDR`
is `DPLL_ADDR` or an SFP address, is the model's choice (notes/assumptions/21.md). So is that its window write only
moves the window also where `PAGE_REG` is above 0xFC (notes/assumptions/25.md). -/
def Obligations.PagedAccessStoresOnlyItsBytes : Prop :=
  ∀ (i : Instr) (addr : Addr) (r : BusRequest) (s t : State) (d d' : Devices), s.cfg.singleOwner = true →
    i.access s.cfg = some (addr, r) → exec i s = .next t → s.env.devices = some d → t.env.devices = some d' →
    (∀ a, a < d'.logical (lowerOf addr) ∨ d'.logical (lowerOf addr) + r.written.length ≤ a →
      Memory.read d'.dpllMem a = Memory.read d.dpllMem a) ∧ d'.cages = d.cages

/-- R182, R183, R190: with coherent caches, a configure leaves every byte of DPLL memory alone but the pin's control register
and, for an output, the pin's group register. That its mux write leaves the cages alone also where `MUX_ADDR` is an SFP address is
the model's choice (notes/assumptions/21.md). So is that its window writes only move the window also where `PAGE_REG` is
above 0xFC (notes/assumptions/25.md). -/
def Obligations.ConfigureStoresOnlyThePinsRegisters : Prop :=
  ∀ (pin : Byte) (p : Fin 16) (value : Bool) (s : State) (d : Devices), s.cfg.WellFormed → s.cfg.singleOwner = true →
    s.cfg.muxAddr ≠ s.cfg.dpllAddr → pinOf pin = some p → Coherent s → (∀ e ∈ s.env.script, e.Faithful) →
    s.env.devices = some d →
    (∀ t d', exec (.gpioCfgin pin value) s = .next t → t.env.devices = some d' →
      (∀ a, a ≠ (s.cfg.pinControl p).toNat → Memory.read d'.dpllMem a = Memory.read d.dpllMem a) ∧ d'.cages = d.cages) ∧
    (∀ t d', exec (.gpioCfgout pin value) s = .next t → t.env.devices = some d' →
      (∀ a, a ≠ (s.cfg.pinControl p).toNat → a ≠ (s.cfg.groupOf p).toNat →
        Memory.read d'.dpllMem a = Memory.read d.dpllMem a) ∧ d'.cages = d.cages)

/-- R53, R56 (b), R64, R70: on the reference devices, with coherent caches, a block write puts byte `j` at logical address
`addr + j`, where a byte read finds it. That a mux write goes to the multiplexer alone, also where `MUX_ADDR` is `DPLL_ADDR`, is
the model's choice (notes/assumptions/21.md). So is that a window write moves the window also where `PAGE_REG` is above 0xFC
(notes/assumptions/25.md). -/
def Obligations.BlockWriteIsReadBackByteByByte : Prop :=
  ∀ (addr : Addr) (data : List Byte) (s : State) (d : Devices), s.cfg.WellFormed →
    s.cfg.BlockCount data.length → s.cfg.BlockClear (lowerOf addr) data.length →
    (∀ j, j < data.length → ¬ s.cfg.IsLevelAddr (addr.toNat + j)) →
    Coherent s → s.env.devices = some d → d.wf → s.env.script = [] →
    ∃ t info, exec (.prsWrblk addr data) s = .next t ∧ t.respPort = s.respPort ++ [[0x00, info]] ∧
      ∀ j, j < data.length → ∃ u, exec (.prsRdb (addr + BitVec.ofNat 16 j)) t = .next u ∧
        u.respPort = t.respPort ++ [[0x00, 0x01, byteAt data j]]

/-! ### Pins -/

/-- R180, R182: an input configure is one paged write of `0x00` to the pin's control register, whatever `value`. -/
def Obligations.ConfigureInputCompletes : Prop :=
  ∀ (pin : Byte) (p : Fin 16) (value : Bool) (s : State) (rest : List BusEvent), s.cfg.WellFormed → pinOf pin = some p →
    let control := s.cfg.pinControl p
    let x := pagedTraffic s.cfg s.mux s.page control (.wb s.cfg.dpllAddr (lowerOf control) 0x00, [])
    s.env.script = repliesOf x ++ rest →
    ∃ t, exec (.gpioCfgin pin value) s = .next t ∧
      Completed s t x rest (some s.cfg.dpllChannel) (some (upperOf control)) []

/-- R180, R183, R184: an output configure is read, write back with the pin's bit changed, re-latch, trigger write of `0x04`; no
step is left out. -/
def Obligations.ConfigureOutputCompletes : Prop :=
  ∀ (pin : Byte) (p : Fin 16) (value : Bool) (cur again : Byte) (s : State) (rest : List BusEvent), s.cfg.WellFormed →
    pinOf pin = some p →
    let x := configureTraffic s.cfg s.mux s.page p cur (setBit cur (p.val % 8) value) again
    s.env.script = repliesOf x ++ rest →
    ∃ t, exec (.gpioCfgout pin value) s = .next t ∧
      Completed s t x rest (some s.cfg.dpllChannel) (some (upperOf (s.cfg.pinControl p))) []

/-- R180, R185, R186, R99: the control register first, then the two level bytes in one block; the code of the mode (2 Function, 1
Output, 0 Input) and the level bit. That the block is of 2 bytes also where `MAX_BLOCK` is 1 is the model's choice
(notes/assumptions/22.md). -/
def Obligations.ReadModeCompletes : Prop :=
  ∀ (pin : Byte) (p : Fin 16) (ctl lo hi : Byte) (s : State) (rest : List BusEvent), s.cfg.WellFormed →
    pinOf pin = some p →
    let control := s.cfg.pinControl p
    let level := s.cfg.levelAddr
    let x := pagedTraffic s.cfg s.mux s.page control (.rb s.cfg.dpllAddr (lowerOf control), [ctl]) ++
      windowTraffic s.cfg (some (upperOf control)) level ++ [(.rk s.cfg.dpllAddr (lowerOf level) 2, [lo, hi])]
    s.env.script = repliesOf x ++ rest →
    ∃ t, exec (.gpioRdmode pin) s = .next t ∧
      Completed s t x rest (some s.cfg.dpllChannel) (some (upperOf level))
        [if ctl.getLsbD 0 then 0x02 else if ctl.getLsbD 2 then 0x01 else 0x00,
          if (u16le lo hi).getLsbD p.val then 0x01 else 0x00]

/-- R183, R185, R231, R238: what a failure at each transaction of a pin command leaves: the caches as the successful transactions
before it made them, and the number of those transactions in the answer. The positions of `GPIO.CFGIN` are those of one paged
access; `GPIO.CFGOUT` and `GPIO.RDMODE` have those of their first access, and at the window of the second one and at every data
transaction their own. That the level read is of 2 bytes also where `MAX_BLOCK` is 1 is the model's choice
(notes/assumptions/22.md). -/
def Obligations.FailurePositionsOfThePinCommands : Prop :=
  ∀ (pin : Byte) (p : Fin 16) (s : State), s.cfg.WellFormed → pinOf pin = some p →
    let c := s.cfg
    let select := selectTraffic c s.mux c.dpllChannel
    let page := pageAfterEnsure c s.mux s.page
    let muxWrite : BusRequest := .wb c.muxAddr c.muxReg c.dpllChannel
    let window := fun addr : Addr => BusRequest.wk c.dpllAddr c.pageReg [lowerOf addr, upperOf addr, 0x10, 0x20]
    let control := c.pinControl p
    let group := c.groupOf p
    let level := c.levelAddr
    (∀ i ∈ [Instr.gpioCfgin pin false, .gpioCfgin pin true, .gpioCfgout pin false, .gpioCfgout pin true, .gpioRdmode pin],
      s.mux ≠ some c.dpllChannel → FailsAt i s [] muxWrite s.mux s.page) ∧
    (∀ value,
      let before := select ++ windowTraffic c page control
      (page ≠ some (upperOf control) →
        FailsAt (.gpioCfgin pin value) s select (window control) (some c.dpllChannel) page) ∧
      FailsAt (.gpioCfgin pin value) s before (.wb c.dpllAddr (lowerOf control) 0x00) (some c.dpllChannel)
        (some (upperOf control))) ∧
    (∀ (value : Bool) (cur again : Byte),
      let new := setBit cur (p.val % 8) value
      let first := select ++ windowTraffic c page group
      let body : List Exchange := [(.rb c.dpllAddr (lowerOf group), [cur]), (.wb c.dpllAddr (lowerOf group) new, [])] ++
        match c.gpioRelatch with
        | .reread => [(.rb c.dpllAddr (lowerOf group), [again]), (.wb c.dpllAddr (lowerOf group) again, [])]
        | .reuse => [(.wb c.dpllAddr (lowerOf group) new, [])]
      (page ≠ some (upperOf group) →
        FailsAt (.gpioCfgout pin value) s select (window group) (some c.dpllChannel) page) ∧
      (∀ done r answer left, body = done ++ (r, answer) :: left →
        FailsAt (.gpioCfgout pin value) s (first ++ done) r (some c.dpllChannel) (some (upperOf group))) ∧
      (upperOf group ≠ upperOf control →
        FailsAt (.gpioCfgout pin value) s (first ++ body) (window control) (some c.dpllChannel) (some (upperOf group))) ∧
      FailsAt (.gpioCfgout pin value) s (first ++ body ++ windowTraffic c (some (upperOf group)) control)
        (.wb c.dpllAddr (lowerOf control) 0x04) (some c.dpllChannel) (some (upperOf control))) ∧
    (∀ ctl : Byte,
      let first := select ++ windowTraffic c page control
      let read : Exchange := (.rb c.dpllAddr (lowerOf control), [ctl])
      (page ≠ some (upperOf control) →
        FailsAt (.gpioRdmode pin) s select (window control) (some c.dpllChannel) page) ∧
      FailsAt (.gpioRdmode pin) s first read.1 (some c.dpllChannel) (some (upperOf control)) ∧
      (upperOf control ≠ upperOf level →
        FailsAt (.gpioRdmode pin) s (first ++ [read]) (window level) (some c.dpllChannel) (some (upperOf control))) ∧
      FailsAt (.gpioRdmode pin) s (first ++ [read] ++ windowTraffic c (some (upperOf control)) level)
        (.rk c.dpllAddr (lowerOf level) 2) (some c.dpllChannel) (some (upperOf level)))

/-- R181: whole: no bus transaction, no state change, `OK`; the mode of such a pin reads as Unknown, its level as 0. -/
def Obligations.OutOfRangePinIsANoOp : Prop :=
  ∀ (pin : Byte) (value : Bool) (s : State), s.cfg.WellFormed → 16 ≤ pin.toNat →
    exec (.gpioCfgin pin value) s = .next { s with seq := .idle, respPort := s.respPort ++ [[0x00, 0x00]] } ∧
    exec (.gpioCfgout pin value) s = .next { s with seq := .idle, respPort := s.respPort ++ [[0x00, 0x00]] } ∧
    exec (.gpioRdmode pin) s = .next { s with seq := .idle, respPort := s.respPort ++ [[0x00, 0x00, 0x03, 0x00]] }

/-- R188: every `GPIO.*` command with a pin in range issues at least one transaction. -/
def Obligations.InRangePinCausesTraffic : Prop :=
  ∀ (pin : Byte) (p : Fin 16) (value : Bool) (s t : State), pinOf pin = some p →
    exec (.gpioCfgin pin value) s = .next t ∨ exec (.gpioCfgout pin value) s = .next t ∨ exec (.gpioRdmode pin) s = .next t →
    s.busLog.length < t.busLog.length

/-- R186: whole. -/
def Obligations.DecodeModePriority : Prop :=
  ∀ ctl : Byte,
    (ctl.getLsbD 0 = true → decodeMode ctl = .function) ∧
    (ctl.getLsbD 0 = false → ctl.getLsbD 2 = true → decodeMode ctl = .output) ∧
    (ctl.getLsbD 0 = false → ctl.getLsbD 2 = false → decodeMode ctl = .input)

/-- R183 step 2, R190: the pin's bit has the wanted value and every other bit is as it was read. -/
def Obligations.SetBitChangesOnlyThePinsBit : Prop :=
  ∀ (cur : Byte) (k j : Nat) (value : Bool), k < 8 → j < 8 →
    (setBit cur k value).getLsbD j = if j = k then value else cur.getLsbD j

/-- R191: on the reference devices, with coherent caches and the pin's registers and the level register apart, an output
configure followed by a mode read answers Output and the value. That a mux write at an SFP address goes to the multiplexer alone
(notes/assumptions/21.md), and that the level read is of 2 bytes also where `MAX_BLOCK` is 1 (notes/assumptions/22.md), are the
model's choices. So is that a window write moves the window also where `PAGE_REG` is above 0xFC (notes/assumptions/25.md). -/
def Obligations.ConfigureThenReadModeRoundTrip : Prop :=
  ∀ (pin : Byte) (p : Fin 16) (value : Bool) (s : State) (d : Devices), s.cfg.WellFormed →
    s.cfg.muxAddr ≠ s.cfg.dpllAddr → pinOf pin = some p → s.cfg.pinControl p ≠ s.cfg.groupOf p →
    ¬ s.cfg.IsLevelAddr (s.cfg.pinControl p).toNat → ¬ s.cfg.IsLevelAddr (s.cfg.groupOf p).toNat →
    Coherent s → s.env.devices = some d → d.wf → s.env.script = [] →
    ∃ t u info info', exec (.gpioCfgout pin value) s = .next t ∧ t.respPort = s.respPort ++ [[0x00, info]] ∧
      exec (.gpioRdmode pin) t = .next u ∧
      u.respPort = t.respPort ++ [[0x00, info', 0x01, if value then 0x01 else 0x00]]

/-! ### SFP cages -/

/-- R201: whole. -/
def Obligations.SlotChannels : Prop :=
  ((slotOf 1).map slotChannel = some 0x01 ∧ (slotOf 2).map slotChannel = some 0x02 ∧
    (slotOf 3).map slotChannel = some 0x20 ∧ (slotOf 4).map slotChannel = some 0x40) ∧
  ∀ (slot : Byte) (s : State), s.cfg.WellFormed → s.cfg.hasSfp = true → (slot.toNat < 1 ∨ 4 < slot.toNat) →
    exec (.sfpPoll slot) s = .next { s with seq := .idle, respPort := s.respPort ++ [[0x02, 0x00]] }

/-- R202, R203, R205 to R207, R209, R210, R214: a poll of which every transaction succeeds: select, three reads, four reads, the
status byte, close. That the region reads are of 32 bytes also where `MAX_BLOCK` is smaller is the model's choice
(notes/assumptions/22.md), here and in the statements below about a poll whose reads fail or whose close fails. -/
def Obligations.PollCompletes : Prop :=
  ∀ (slot : Byte) (i : Fin 4) (a0 a1 a2 b0 b1 b2 b3 : List Byte) (status : Byte) (s : State) (rest : List BusEvent),
    s.cfg.WellFormed → s.cfg.hasSfp = true → slotOf slot = some i →
    Exact (infoReads s.cfg a0 a1 a2) → Exact (diagReads s.cfg b0 b1 b2 b3) →
    let x := selectTraffic s.cfg s.mux (slotChannel i) ++ infoReads s.cfg a0 a1 a2 ++ diagReads s.cfg b0 b1 b2 b3 ++
      [(.rb s.cfg.sfpDiagAddr 110, [status]), (closeWrite s.cfg, [])]
    s.env.script = repliesOf x ++ rest →
    ∃ t, exec (.sfpPoll slot) s = .next t ∧
      Polled s t (recordsOf x) rest (PollResult.payload s.cfg.trimSet
        { vendor := some (decodeVendor (a0 ++ a1 ++ a2)), diag := some (decodeDiag (b0 ++ b1 ++ b2 ++ b3)),
          status := some status })

/-- R203, R204: whichever vendor-info read fails, the reads after it are not issued, the multiplexer is closed, and the answer is
`OK` with 60 zero bytes. -/
def Obligations.AbsentModuleAnswersZeros : Prop :=
  ∀ (slot : Byte) (i : Fin 4) (k : Fin 3) (a0 a1 a2 : List Byte) (taken : Nat) (s : State) (rest : List BusEvent),
    s.cfg.WellFormed → s.cfg.hasSfp = true → slotOf slot = some i → Exact (infoReads s.cfg a0 a1 a2) →
    let x := selectTraffic s.cfg s.mux (slotChannel i) ++ (infoReads s.cfg a0 a1 a2).take k
    let failed : BusRequest := .rk s.cfg.sfpInfoAddr (BitVec.ofNat 8 (32 * k)) 32
    s.env.script = repliesOf x ++ .fail taken :: .reply [] :: rest →
    ∃ t, exec (.sfpPoll slot) s = .next t ∧
      Polled s t (recordsOf x ++ [⟨failed, .fail⟩, ⟨closeWrite s.cfg, .ok []⟩]) rest (List.replicate 60 0x00)

/-- R205: whichever diagnostics read fails, the vendor fields stay, the status byte is not read, and the multiplexer is
closed. -/
def Obligations.DiagnosticsFailureKeepsVendorFields : Prop :=
  ∀ (slot : Byte) (i : Fin 4) (k : Fin 4) (a0 a1 a2 b0 b1 b2 b3 : List Byte) (taken : Nat) (s : State)
    (rest : List BusEvent),
    s.cfg.WellFormed → s.cfg.hasSfp = true → slotOf slot = some i → Exact (infoReads s.cfg a0 a1 a2) →
    Exact (diagReads s.cfg b0 b1 b2 b3) →
    let x := selectTraffic s.cfg s.mux (slotChannel i) ++ infoReads s.cfg a0 a1 a2 ++
      (diagReads s.cfg b0 b1 b2 b3).take k
    let failed : BusRequest := .rk s.cfg.sfpDiagAddr (BitVec.ofNat 8 (32 * k)) 32
    s.env.script = repliesOf x ++ .fail taken :: .reply [] :: rest →
    ∃ t, exec (.sfpPoll slot) s = .next t ∧
      Polled s t (recordsOf x ++ [⟨failed, .fail⟩, ⟨closeWrite s.cfg, .ok []⟩]) rest
        (PollResult.payload s.cfg.trimSet
          { vendor := some (decodeVendor (a0 ++ a1 ++ a2)), diag := none, status := none })

/-- R206: a failed status byte read is swallowed: the diagnostic integers stay, `stat_valid` is 0. -/
def Obligations.StatusFailureKeepsDiagnostics : Prop :=
  ∀ (slot : Byte) (i : Fin 4) (a0 a1 a2 b0 b1 b2 b3 : List Byte) (taken : Nat) (s : State) (rest : List BusEvent),
    s.cfg.WellFormed → s.cfg.hasSfp = true → slotOf slot = some i → Exact (infoReads s.cfg a0 a1 a2) →
    Exact (diagReads s.cfg b0 b1 b2 b3) →
    let x := selectTraffic s.cfg s.mux (slotChannel i) ++ infoReads s.cfg a0 a1 a2 ++ diagReads s.cfg b0 b1 b2 b3
    s.env.script = repliesOf x ++ .fail taken :: .reply [] :: rest →
    ∃ t, exec (.sfpPoll slot) s = .next t ∧
      Polled s t (recordsOf x ++ [⟨.rb s.cfg.sfpDiagAddr 110, .fail⟩, ⟨closeWrite s.cfg, .ok []⟩]) rest
        (PollResult.payload s.cfg.trimSet
          { vendor := some (decodeVendor (a0 ++ a1 ++ a2)), diag := some (decodeDiag (b0 ++ b1 ++ b2 ++ b3)),
            status := none })

/-- R208: after a failed slot select the release is attempted through the unchanged cache, its own failure is ignored, and the
answer is `BUS_ERROR` with `info` 0 either way. -/
def Obligations.FailedSlotSelectReleasesTheMux : Prop :=
  ∀ (slot : Byte) (i : Fin 4) (taken : Nat) (s : State) (rest : List BusEvent),
    s.cfg.WellFormed → s.cfg.hasSfp = true → slotOf slot = some i → s.mux ≠ some (slotChannel i) →
    let select : BusRequest := .wb s.cfg.muxAddr s.cfg.muxReg (slotChannel i)
    (s.mux = some 0x00 → s.env.script = .fail taken :: rest →
      ∃ t, exec (.sfpPoll slot) s = .next t ∧ Failed s t [] select rest s.mux s.page) ∧
    (s.mux ≠ some 0x00 → s.env.script = .fail taken :: .reply [] :: rest →
      ∃ t, exec (.sfpPoll slot) s = .next t ∧ t.mux = some 0x00 ∧ t.page = none ∧ t.seq = .idle ∧
        t.respPort = s.respPort ++ [[0x01, 0x00]] ∧
        t.busLog = s.busLog ++ [⟨select, .fail⟩, ⟨closeWrite s.cfg, .ok []⟩]) ∧
    (∀ taken', s.mux ≠ some 0x00 → s.env.script = .fail taken :: .fail taken' :: rest →
      ∃ t, exec (.sfpPoll slot) s = .next t ∧ t.mux = s.mux ∧ t.page = s.page ∧ t.seq = .idle ∧
        t.respPort = s.respPort ++ [[0x01, 0x00]] ∧
        t.busLog = s.busLog ++ [⟨select, .fail⟩, ⟨closeWrite s.cfg, .fail⟩])

/-- R207: when the closing write fails the result is lost, the answer is `BUS_ERROR` without payload, and the cache still holds
the slot's channel; whether every read had succeeded, or a vendor-info read, a diagnostics read or the status read had failed
before it. -/
def Obligations.FailedCloseDropsTheResult : Prop :=
  ∀ (slot : Byte) (i : Fin 4) (a0 a1 a2 b0 b1 b2 b3 : List Byte) (status : Byte) (taken lost : Nat) (s : State)
    (rest : List BusEvent),
    s.cfg.WellFormed → s.cfg.hasSfp = true → slotOf slot = some i → Exact (infoReads s.cfg a0 a1 a2) →
    Exact (diagReads s.cfg b0 b1 b2 b3) →
    let select := selectTraffic s.cfg s.mux (slotChannel i)
    let info := infoReads s.cfg a0 a1 a2
    let diag := diagReads s.cfg b0 b1 b2 b3
    let stat : BusRequest := .rb s.cfg.sfpDiagAddr 110
    (let x := select ++ info ++ diag ++ [(stat, [status])];
      s.env.script = repliesOf x ++ .fail taken :: rest →
      ∃ t, exec (.sfpPoll slot) s = .next t ∧ CloseFailed s t (slotChannel i) (recordsOf x) rest) ∧
    (∀ k : Fin 3,
      let x := select ++ info.take k
      s.env.script = repliesOf x ++ .fail lost :: .fail taken :: rest →
      ∃ t, exec (.sfpPoll slot) s = .next t ∧ CloseFailed s t (slotChannel i)
        (recordsOf x ++ [⟨.rk s.cfg.sfpInfoAddr (BitVec.ofNat 8 (32 * k)) 32, .fail⟩]) rest) ∧
    (∀ k : Fin 4,
      let x := select ++ info ++ diag.take k
      s.env.script = repliesOf x ++ .fail lost :: .fail taken :: rest →
      ∃ t, exec (.sfpPoll slot) s = .next t ∧ CloseFailed s t (slotChannel i)
        (recordsOf x ++ [⟨.rk s.cfg.sfpDiagAddr (BitVec.ofNat 8 (32 * k)) 32, .fail⟩]) rest) ∧
    (let x := select ++ info ++ diag;
      s.env.script = repliesOf x ++ .fail lost :: .fail taken :: rest →
      ∃ t, exec (.sfpPoll slot) s = .next t ∧ CloseFailed s t (slotChannel i) (recordsOf x ++ [⟨stat, .fail⟩]) rest)

/-- R209, R210: where in the 96 bytes of the vendor-info region and the 128 bytes of the diagnostics region every decoded field
stands. R214, R216: the place of every field of the payload, and that the host gets back exactly the partial result. -/
def Obligations.PollPayloadLayout : Prop :=
  (∀ info : List Byte, info.length = 96 →
    let v := decodeVendor info
    v.moduleType = byteAt info 0 ∧ v.vendor.length = 16 ∧ v.part.length = 16 ∧ v.serial.length = 16 ∧
    ∀ j, j < 16 → byteAt v.vendor j = byteAt info (20 + j) ∧ byteAt v.part j = byteAt info (40 + j) ∧
      byteAt v.serial j = byteAt info (68 + j)) ∧
  (∀ diag : List Byte, diag.length = 128 →
    let d := decodeDiag diag
    d.tempRaw.toInt = ((byteAt diag 96).toNat * 256 + (byteAt diag 97).toNat : ℤ) -
      (if 0x80 ≤ (byteAt diag 96).toNat then 65536 else 0) ∧
    d.txRaw.toNat = (byteAt diag 102).toNat * 256 + (byteAt diag 103).toNat ∧
    d.rxRaw.toNat = (byteAt diag 104).toNat * 256 + (byteAt diag 105).toNat) ∧
  ∀ (trimSet : List Byte) (r : PollResult),
    (∀ v ∈ r.vendor, v.vendor.length = 16 ∧ v.part.length = 16 ∧ v.serial.length = 16) →
    (r.status.isSome = true → r.diag.isSome = true) → (r.diag.isSome = true → r.vendor.isSome = true) →
    let b := r.payload trimSet
    b.length = 60 ∧ PollResult.ofPayload b = r ∧
    byteAt b 0 = (if r.vendor.isSome then 1 else 0) + (if r.diag.isSome then 2 else 0) + (if r.status.isSome then 4 else 0) ∧
    byteAt b 0 ∈ [0x00, 0x01, 0x03, 0x07] ∧
    (∀ v ∈ r.vendor, byteAt b 1 = v.moduleType ∧
      slice b 2 16 = v.vendor ∧ (byteAt b 18).toNat = trimLen trimSet v.vendor ∧
      slice b 19 16 = v.part ∧ (byteAt b 35).toNat = trimLen trimSet v.part ∧
      slice b 36 16 = v.serial ∧ (byteAt b 52).toNat = trimLen trimSet v.serial) ∧
    (∀ d ∈ r.diag, u16le (byteAt b 53) (byteAt b 54) = d.tempRaw ∧ u16le (byteAt b 55) (byteAt b 56) = d.txRaw ∧
      u16le (byteAt b 57) (byteAt b 58) = d.rxRaw) ∧
    (∀ st ∈ r.status, byteAt b 59 = st) ∧
    (r.vendor = none → slice b 1 52 = List.replicate 52 0x00) ∧ (r.diag = none → slice b 53 6 = List.replicate 6 0x00) ∧
    (r.status = none → byteAt b 59 = 0x00)

/-- R209: `TrimLen` removes exactly the longest end of the field that is all in the trim set. -/
def Obligations.TrimLenRemovesOnlyTrailingBytes : Prop :=
  ∀ trimSet f : List Byte,
    trimLen trimSet f ≤ f.length ∧
    (∀ j, trimLen trimSet f ≤ j → j < f.length → byteAt f j ∈ trimSet) ∧
    (0 < trimLen trimSet f → byteAt f (trimLen trimSet f - 1) ∉ trimSet)

/-- R210, R211: the temperature of two region bytes, big-endian, two's complement, in 1/256 °C, and its range. -/
def Obligations.TemperatureIsExact : Prop :=
  ∀ first second : Byte,
    temperatureC (u16be first second) =
      (((first.toNat * 256 + second.toNat : ℤ) - if 0x80 ≤ first.toNat then 65536 else 0 : ℤ) : ℚ) / 256 ∧
    -128 ≤ temperatureC (u16be first second) ∧ temperatureC (u16be first second) ≤ 127.99609375

/-- R212, U5: transmit power; absent exactly at raw 0. -/
def Obligations.TransmitPowerInDbm : Prop :=
  (∀ raw : BitVec 16, txPowerDbm raw =
    if raw = 0 then none else some (10 * Real.logb 10 ((raw.toNat : ℝ) / 10 / 1000))) ∧
  txPowerDbm 10000 = some 0 ∧ txPowerDbm 1 = some (-40)

/-- R213: receive power: the floor at raw 0, the logarithm elsewhere, and the function is monotone. -/
def Obligations.ReceivePowerIsMonotone : Prop :=
  (∀ raw : BitVec 16, rxPowerDbm raw =
    if raw = 0 then -40 else 10 * Real.logb 10 ((raw.toNat : ℝ) / 10 / 1000)) ∧
  rxPowerDbm 1 = -40 ∧ rxPowerDbm 10000 = 0 ∧
  ∀ a b : BitVec 16, a.toNat ≤ b.toNat → rxPowerDbm a ≤ rxPowerDbm b

end
end

