-- ==== Sys2Proof/Laws/Memory.lean ====
section
/-! SUPPORT. The memory laws: a read after a write, and the canonical form (Memory.wf) that every write keeps. -/

namespace Sys2Proof.Machine

@[simp] theorem Memory.read_nil (a : Nat) : Memory.read [] a = Memory.unlisted := rfl

/-- An address below every cell is unlisted. -/
theorem Memory.read_eq_unlisted_of_forall_ne {m : Memory} {a : Nat} (h : ∀ c ∈ m, c.1 ≠ a) :
    Memory.read m a = Memory.unlisted := by
  induction m with
  | nil => rfl
  | cons c m ih =>
    have hne : a ≠ c.1 := fun e => h c (by simp) e.symm
    simp [Memory.read, hne, ih fun x hx => h x (by simp [hx])]

theorem Memory.wf_tail {c : Host.Cell} {m : Memory} (h : Memory.wf (c :: m)) : Memory.wf m :=
  ⟨(List.pairwise_cons.1 h.1).2, fun x hx => h.2 x (by simp [hx])⟩

theorem Memory.lt_of_wf_cons {c : Host.Cell} {m : Memory} (h : Memory.wf (c :: m)) : ∀ x ∈ m, c.1 < x.1 := by
  intro x hx
  exact (List.pairwise_cons.1 h.1).1 x.1 (List.mem_map_of_mem hx)

theorem Memory.wf_cons {c : Host.Cell} {m : Memory} (hm : Memory.wf m) (hc : c.2 ≠ 0) (hlt : ∀ x ∈ m, c.1 < x.1) :
    Memory.wf (c :: m) := by
  refine ⟨?_, ?_⟩
  · rw [List.map_cons, List.pairwise_cons]
    exact ⟨by simpa using fun a x hx => hlt (a, x) hx, hm.1⟩
  · intro x hx
    rcases List.mem_cons.1 hx with rfl | hx
    · exact hc
    · exact hm.2 x hx

/-- A write adds no cell but the one written. -/
theorem Memory.mem_write {m : Memory} {a : Nat} {b : Byte} {x : Host.Cell} (hx : x ∈ Memory.write m a b) :
    x = (a, b) ∨ x ∈ m := by
  induction m with
  | nil =>
    unfold Memory.write at hx
    split at hx <;> simp_all
  | cons c m ih =>
    unfold Memory.write at hx
    split at hx
    · split at hx <;> simp_all
    · split at hx
      · split at hx
        · simp_all
        · simp_all
          tauto
      · rcases List.mem_cons.1 hx with rfl | hx
        · simp
        · rcases ih hx with h | h <;> simp [h]

/-- Every write keeps the canonical form. -/
theorem Memory.write_wf {m : Memory} (h : Memory.wf m) (a : Nat) (b : Byte) : Memory.wf (Memory.write m a b) := by
  induction m with
  | nil =>
    unfold Memory.write
    split
    · exact h
    · rename_i hb
      exact Memory.wf_cons h hb (by simp)
  | cons c m ih =>
    have htail := Memory.wf_tail h
    have hlt := Memory.lt_of_wf_cons h
    have hc : c.2 ≠ 0 := h.2 c (by simp)
    unfold Memory.write
    split
    · rename_i hac
      split
      · exact h
      · rename_i hb
        refine Memory.wf_cons h hb ?_
        intro x hx
        rcases List.mem_cons.1 hx with rfl | hx
        · exact hac
        · exact Nat.lt_trans hac (hlt x hx)
    · rename_i hac
      split
      · rename_i heq
        subst heq
        split
        · exact htail
        · rename_i hb
          exact Memory.wf_cons htail hb hlt
      · rename_i hne
        refine Memory.wf_cons (ih htail) hc ?_
        intro x hx
        rcases Memory.mem_write hx with rfl | hx
        · show c.1 < a
          have : ¬ a < c.1 := hac
          have : a ≠ c.1 := hne
          omega
        · exact hlt x hx

/-- A read after a write to the same address gives the byte written. -/
theorem Memory.read_write_same {m : Memory} (h : Memory.wf m) (a : Nat) (b : Byte) :
    Memory.read (Memory.write m a b) a = b := by
  induction m with
  | nil =>
    unfold Memory.write
    split <;> simp_all [Memory.read]
  | cons c m ih =>
    have hlt := Memory.lt_of_wf_cons h
    unfold Memory.write
    split
    · rename_i hac
      split
      · rename_i hb
        rw [hb]
        apply Memory.read_eq_unlisted_of_forall_ne
        intro x hx
        rcases List.mem_cons.1 hx with rfl | hx
        · exact Nat.ne_of_gt hac
        · exact Nat.ne_of_gt (Nat.lt_trans hac (hlt x hx))
      · simp [Memory.read]
    · split
      · rename_i heq
        split
        · rename_i hb
          rw [hb]
          apply Memory.read_eq_unlisted_of_forall_ne
          intro x hx
          have := hlt x hx
          have : a = c.1 := heq
          omega
        · simp [Memory.read]
      · rename_i hne
        have : a ≠ c.1 := hne
        simp [Memory.read, this, ih (Memory.wf_tail h)]

/-- A write leaves every other address alone. -/
theorem Memory.read_write_other (m : Memory) {a a' : Nat} (b : Byte) (hne : a' ≠ a) :
    Memory.read (Memory.write m a b) a' = Memory.read m a' := by
  induction m with
  | nil =>
    unfold Memory.write
    split <;> simp [Memory.read, hne]
  | cons c m ih =>
    unfold Memory.write
    split
    · split <;> simp [Memory.read, hne]
    · split
      · rename_i heq
        have : a' ≠ c.1 := fun e => hne (e.trans heq.symm)
        split <;> simp [Memory.read, hne, this]
      · simp only [Memory.read, ih]

/-- Storing bytes keeps the canonical form. -/
theorem storeBytes_wf {c : Params} {m : Memory} (h : Memory.wf m) (a : Nat) (bytes : List Byte) :
    Memory.wf (storeBytes c m a bytes) := by
  induction bytes generalizing m a with
  | nil => exact h
  | cons b bytes ih =>
    unfold storeBytes
    apply ih
    split
    · exact h
    · exact Memory.write_wf h a b

/-- Storing bytes adds cells only where it stores. -/
theorem mem_storeBytes {c : Params} {m : Memory} {a : Nat} {bytes : List Byte} {x : Host.Cell}
    (hx : x ∈ storeBytes c m a bytes) : x ∈ m ∨ (a ≤ x.1 ∧ x.1 < a + bytes.length) := by
  induction bytes generalizing m a with
  | nil => exact .inl hx
  | cons b bytes ih =>
    unfold storeBytes at hx
    rcases ih hx with h | h
    · split at h
      · exact .inl h
      · rcases Memory.mem_write h with rfl | h
        · exact .inr ⟨Nat.le_refl _, by simp⟩
        · exact .inl h
    · refine .inr ⟨by omega, ?_⟩
      simp only [List.length_cons]
      omega

/-- Storing bytes leaves every address outside them alone. -/
theorem read_storeBytes_other {c : Params} (m : Memory) {a a' : Nat} (bytes : List Byte)
    (h : a' < a ∨ a + bytes.length ≤ a') : Memory.read (storeBytes c m a bytes) a' = Memory.read m a' := by
  induction bytes generalizing m a with
  | nil => rfl
  | cons b bytes ih =>
    simp only [List.length_cons] at h
    unfold storeBytes
    rw [ih _ (by omega)]
    split
    · rfl
    · exact Memory.read_write_other m b (by omega)

end Sys2Proof.Machine
end

