-- ==== Sys2Proof/Laws/Bus.lean ====
section
/-! SUPPORT. The environment: the length of an answer, what arrives for a transaction, and the form of the reference devices'
data, which every transaction keeps. -/

namespace Sys2Proof.Machine

@[simp] theorem fillBytes_length (log : List BusRecord) (r : BusRequest) (given : List Byte) :
    (fillBytes log r given).length = readLength r := by
  simp [fillBytes]

/-- An answer of the right length is the answer. -/
theorem fillBytes_exact {log : List BusRecord} {r : BusRequest} {given : List Byte} (h : given.length = readLength r) :
    fillBytes log r given = given := by
  apply List.ext_getElem
  · simp [h]
  · intro i h1 h2
    simp [fillBytes, List.getElem?_eq_getElem h2]

@[simp] theorem bytesFrom_length (f : Nat → Byte) (a count : Nat) : (bytesFrom f a count).length = count := by
  induction count generalizing a with
  | zero => rfl
  | succ n ih => simp [bytesFrom, ih]

@[simp] theorem arrive_nil (o : Bool) (d : Option Devices) : arrive o [] d = ⟨.answer, [], d⟩ := rfl

@[simp] theorem arrive_reply (o : Bool) (bytes : List Byte) (rest : List BusEvent) (d : Option Devices) :
    arrive o (.reply bytes :: rest) d = ⟨.reply bytes, rest, d⟩ := rfl

@[simp] theorem arrive_lost (o : Bool) (bytes : List Byte) (rest : List BusEvent) (d : Option Devices) :
    arrive o (.lost bytes :: rest) d = ⟨.lost bytes, rest, d⟩ := rfl

@[simp] theorem arrive_fail (o : Bool) (taken : Nat) (rest : List BusEvent) (d : Option Devices) :
    arrive o (.fail taken :: rest) d = ⟨.fail taken, rest, d⟩ := rfl

@[simp] theorem arrive_hang (o : Bool) (taken : Nat) (rest : List BusEvent) (d : Option Devices) :
    arrive o (.hang taken :: rest) d = ⟨.hang taken, rest, d⟩ := rfl

@[simp] theorem arrive_reset (o : Bool) (taken : Nat) (rest : List BusEvent) (d : Option Devices) :
    arrive o (.reset taken :: rest) d = ⟨.reset taken, rest, d⟩ := rfl

@[simp] theorem arrive_answer (o : Bool) (rest : List BusEvent) (d : Option Devices) :
    arrive o (.answer :: rest) d = ⟨.answer, rest, d⟩ := rfl

@[simp] theorem arrive_pins (o : Bool) (ext : BitVec 16) (rest : List BusEvent) (d : Option Devices) :
    arrive o (.pins ext :: rest) d = arrive o rest (d.map fun d => { d with ext := ext }) := rfl

@[simp] theorem arrive_external_owned (x : Devices) (rest : List BusEvent) (d : Option Devices) :
    arrive true (.external x :: rest) d = arrive true rest d := rfl

/-- What is left of the script is a part of it. -/
theorem arrive_rest_subset (o : Bool) (script : List BusEvent) (d : Option Devices) :
    ∀ e ∈ (arrive o script d).rest, e ∈ script := by
  induction script generalizing d with
  | nil => simp
  | cons e es ih =>
    intro x hx
    cases e with
    | pins ext => exact List.mem_cons_of_mem _ (ih _ x hx)
    | external y => exact List.mem_cons_of_mem _ (ih _ x hx)
    | reply bytes => exact List.mem_cons_of_mem _ hx
    | lost bytes => exact List.mem_cons_of_mem _ hx
    | fail taken => exact List.mem_cons_of_mem _ hx
    | hang taken => exact List.mem_cons_of_mem _ hx
    | reset taken => exact List.mem_cons_of_mem _ hx
    | answer => exact List.mem_cons_of_mem _ hx

/-- The event that ends a transaction comes from the script, or is the environment's own answer. -/
theorem arrive_event_mem (o : Bool) (script : List BusEvent) (d : Option Devices) :
    (arrive o script d).event = .answer ∨ (arrive o script d).event ∈ script := by
  induction script generalizing d with
  | nil => simp
  | cons e es ih =>
    cases e with
    | pins ext => exact (ih _).imp_right (List.mem_cons_of_mem _)
    | external y => exact (ih _).imp_right (List.mem_cons_of_mem _)
    | reply bytes => exact .inr (by simp)
    | lost bytes => exact .inr (by simp)
    | fail taken => exact .inr (by simp)
    | hang taken => exact .inr (by simp)
    | reset taken => exact .inr (by simp)
    | answer => exact .inl rfl

/-- The event that ends a transaction is no change of the pins and no act of an external actor. -/
theorem arrive_event_ends (o : Bool) (script : List BusEvent) (d : Option Devices) :
    (∀ x, (arrive o script d).event ≠ .pins x) ∧ ∀ x, (arrive o script d).event ≠ .external x := by
  induction script generalizing d with
  | nil => simp
  | cons e es ih => cases e <;> simp_all [arrive]

/-- A property of devices that a change of the pins keeps and that every external actor's devices have still holds when a
transaction begins. -/
theorem arrive_devices {P : Devices → Prop} (o : Bool) (script : List BusEvent) (d : Option Devices)
    (hpins : ∀ d ext, P d → P { d with ext := ext }) (hext : o = false → ∀ x, BusEvent.external x ∈ script → P x)
    (h : ∀ x ∈ d, P x) : ∀ x ∈ (arrive o script d).devices, P x := by
  induction script generalizing d with
  | nil => simpa using h
  | cons e es ih =>
    have hext' : o = false → ∀ x, BusEvent.external x ∈ es → P x := fun ho x hx => hext ho x (by simp [hx])
    cases e with
    | pins ext =>
      refine ih _ hext' ?_
      intro x hx
      obtain ⟨y, hy, rfl⟩ := Option.mem_map.1 hx
      exact hpins y ext (h y hy)
    | external y =>
      refine ih _ hext' ?_
      cases o with
      | true => exact h
      | false =>
        intro x hx
        obtain ⟨z, _, rfl⟩ := Option.mem_map.1 hx
        exact hext rfl y (by simp)
    | reply bytes => exact h
    | lost bytes => exact h
    | fail taken => exact h
    | hang taken => exact h
    | reset taken => exact h
    | answer => exact h

/-- A change of the pins keeps the form of the devices' data. -/
theorem Devices.wf_pins {d : Devices} (ext : BitVec 16) (h : d.wf) : Devices.wf { d with ext := ext } := h

theorem Devices.logical_lt (d : Devices) {reg : Byte} {n : Nat} (h : reg.toNat + n ≤ 256) : d.logical reg + n ≤ 65536 := by
  have := d.winUpper.isLt
  unfold Devices.logical
  omega

/-- Where a request means a write of DPLL memory, the bytes lie inside the logical space. -/
theorem Devices.classify_dpllWrite_lt {c : Params} {d : Devices} {window : Bool} {r : BusRequest} {a : Nat}
    {bytes : List Byte} (h : d.classify c window r = .dpllWrite a bytes) : a + bytes.length ≤ 65536 := by
  cases r with
  | wb dev reg value =>
    simp only [Devices.classify, Devices.dpllAccess, regionWrite] at h
    repeat' split at h
    all_goals cases h
    rename_i hc
    exact d.logical_lt hc.1
  | wk dev reg bs =>
    simp only [Devices.classify, Devices.dpllAccess, regionWrite] at h
    repeat' split at h
    all_goals cases h
    rename_i hc
    exact d.logical_lt hc.1
  | rb dev reg =>
    simp only [Devices.classify, Devices.classifyRead, Devices.dpllAccess, regionRead] at h
    repeat' split at h
    all_goals cases h
  | rk dev reg count =>
    simp only [Devices.classify, Devices.classifyRead, Devices.dpllAccess, regionRead] at h
    repeat' split at h
    all_goals cases h

/-- Taking a request, whole or in part, keeps the form of the devices' data. -/
theorem Devices.take_wf {c : Params} {window : Bool} {r : BusRequest} {extent : Nat} {d : Devices} (h : d.wf) :
    ∀ x ∈ d.take c window r extent, x.wf := by
  intro x hx
  unfold Devices.take at hx
  split at hx
  · split at hx <;> (cases hx; exact h)
  · split at hx
    · cases hx; exact h
    · split at hx
      · cases hx; exact h
      · cases hx
  · rename_i a bytes hcl
    cases hx
    refine ⟨storeBytes_wf h.1 _ _, ?_, h.2.2⟩
    intro y hy
    have := Devices.classify_dpllWrite_lt hcl
    rcases mem_storeBytes hy with hy | hy
    · exact h.2.1 y hy
    · have := List.length_take_le' extent bytes
      omega
  · cases hx; exact h
  · cases hx; exact h
  · split at hx
    · cases hx; exact h
    · cases hx
  · cases hx; exact h

/-- The reference devices answer a read with the number of bytes it asks for, and a write with none (R51). -/
theorem Devices.completion_length {c : Params} {log : List BusRecord} {window : Bool} {r : BusRequest} {d : Devices}
    {bytes : List Byte} (h : d.completion c log window r = .ok bytes) : bytes.length = readLength r := by
  have hfree : ∀ bs, freeCompletion log r = .ok bs → bs.length = readLength r := by
    intro bs hb
    unfold freeCompletion at hb
    split at hb <;> cases hb
    simp
  unfold Devices.completion at h
  split at h
  case h_6 => exact hfree bytes h
  case h_7 => cases h
  all_goals
    rename_i hcl
    cases h
    cases r <;>
      simp only [Devices.classify, Devices.classifyRead, Devices.dpllAccess, regionRead, regionWrite, readLength, bytesFrom_length,
        List.length_nil] at hcl ⊢
    all_goals repeat' split at hcl
    all_goals first | rfl | cases hcl <;> rfl

end Sys2Proof.Machine
end

