-- ==== Sys2Proof/Laws/State.lean ====
section
/-! SUPPORT. One lemma per field per update of the state, so that no proof unfolds a record update. -/

namespace Sys2Proof.Machine

variable (s : State)

@[simp] theorem State.commitMux_cfg (chan : Byte) : (s.commitMux chan).cfg = s.cfg := rfl
@[simp] theorem State.commitMux_mux (chan : Byte) : (s.commitMux chan).mux = some chan := rfl
@[simp] theorem State.commitMux_page (chan : Byte) : (s.commitMux chan).page = none := rfl
@[simp] theorem State.commitMux_seq (chan : Byte) : (s.commitMux chan).seq = s.seq := rfl
@[simp] theorem State.commitMux_cmdPort (chan : Byte) : (s.commitMux chan).cmdPort = s.cmdPort := rfl
@[simp] theorem State.commitMux_resetIn (chan : Byte) : (s.commitMux chan).resetIn = s.resetIn := rfl
@[simp] theorem State.commitMux_respPort (chan : Byte) : (s.commitMux chan).respPort = s.respPort := rfl
@[simp] theorem State.commitMux_busLog (chan : Byte) : (s.commitMux chan).busLog = s.busLog := rfl
@[simp] theorem State.commitMux_env (chan : Byte) : (s.commitMux chan).env = s.env := rfl

@[simp] theorem State.commitPage_cfg (upper : Byte) : (s.commitPage upper).cfg = s.cfg := rfl
@[simp] theorem State.commitPage_mux (upper : Byte) : (s.commitPage upper).mux = s.mux := rfl
@[simp] theorem State.commitPage_page (upper : Byte) : (s.commitPage upper).page = some upper := rfl
@[simp] theorem State.commitPage_seq (upper : Byte) : (s.commitPage upper).seq = s.seq := rfl
@[simp] theorem State.commitPage_cmdPort (upper : Byte) : (s.commitPage upper).cmdPort = s.cmdPort := rfl
@[simp] theorem State.commitPage_resetIn (upper : Byte) : (s.commitPage upper).resetIn = s.resetIn := rfl
@[simp] theorem State.commitPage_respPort (upper : Byte) : (s.commitPage upper).respPort = s.respPort := rfl
@[simp] theorem State.commitPage_busLog (upper : Byte) : (s.commitPage upper).busLog = s.busLog := rfl
@[simp] theorem State.commitPage_env (upper : Byte) : (s.commitPage upper).env = s.env := rfl

@[simp] theorem State.invalidate_cfg (mask : BitVec 2) : (s.invalidate mask).cfg = s.cfg := rfl
@[simp] theorem State.invalidate_mux (mask : BitVec 2) : (s.invalidate mask).mux = if mask.getLsbD 1 then none else s.mux := rfl
@[simp] theorem State.invalidate_page (mask : BitVec 2) : (s.invalidate mask).page = if mask.getLsbD 0 then none else s.page := rfl
@[simp] theorem State.invalidate_seq (mask : BitVec 2) : (s.invalidate mask).seq = s.seq := rfl
@[simp] theorem State.invalidate_cmdPort (mask : BitVec 2) : (s.invalidate mask).cmdPort = s.cmdPort := rfl
@[simp] theorem State.invalidate_resetIn (mask : BitVec 2) : (s.invalidate mask).resetIn = s.resetIn := rfl
@[simp] theorem State.invalidate_respPort (mask : BitVec 2) : (s.invalidate mask).respPort = s.respPort := rfl
@[simp] theorem State.invalidate_busLog (mask : BitVec 2) : (s.invalidate mask).busLog = s.busLog := rfl
@[simp] theorem State.invalidate_env (mask : BitVec 2) : (s.invalidate mask).env = s.env := rfl

@[simp] theorem State.coreReset_cfg : (s.coreReset).cfg = s.cfg := rfl
@[simp] theorem State.coreReset_mux : (s.coreReset).mux = none := rfl
@[simp] theorem State.coreReset_page : (s.coreReset).page = none := rfl
@[simp] theorem State.coreReset_seq : (s.coreReset).seq = .idle := rfl
@[simp] theorem State.coreReset_cmdPort : (s.coreReset).cmdPort = s.cmdPort := rfl
@[simp] theorem State.coreReset_resetIn : (s.coreReset).resetIn = s.resetIn := rfl
@[simp] theorem State.coreReset_respPort : (s.coreReset).respPort = s.respPort := rfl
@[simp] theorem State.coreReset_busLog : (s.coreReset).busLog = s.busLog := rfl
@[simp] theorem State.coreReset_env : (s.coreReset).env = s.env := rfl

@[simp] theorem State.observe_cfg (r : BusRequest) (completion : BusCompletion) (env : BusEnv) : (s.observe r completion env).cfg = s.cfg := rfl
@[simp] theorem State.observe_mux (r : BusRequest) (completion : BusCompletion) (env : BusEnv) : (s.observe r completion env).mux = s.mux := rfl
@[simp] theorem State.observe_page (r : BusRequest) (completion : BusCompletion) (env : BusEnv) : (s.observe r completion env).page = s.page := rfl
@[simp] theorem State.observe_seq (r : BusRequest) (completion : BusCompletion) (env : BusEnv) : (s.observe r completion env).seq = s.seq := rfl
@[simp] theorem State.observe_cmdPort (r : BusRequest) (completion : BusCompletion) (env : BusEnv) : (s.observe r completion env).cmdPort = s.cmdPort := rfl
@[simp] theorem State.observe_resetIn (r : BusRequest) (completion : BusCompletion) (env : BusEnv) : (s.observe r completion env).resetIn = s.resetIn := rfl
@[simp] theorem State.observe_respPort (r : BusRequest) (completion : BusCompletion) (env : BusEnv) : (s.observe r completion env).respPort = s.respPort := rfl
@[simp] theorem State.observe_busLog (r : BusRequest) (completion : BusCompletion) (env : BusEnv) : (s.observe r completion env).busLog = s.busLog ++ [⟨r, completion⟩] := rfl
@[simp] theorem State.observe_env (r : BusRequest) (completion : BusCompletion) (env : BusEnv) : (s.observe r completion env).env = env := rfl

@[simp] theorem State.accept_cfg (w : Work) : (s.accept w).cfg = s.cfg := rfl
@[simp] theorem State.accept_mux (w : Work) : (s.accept w).mux = s.mux := rfl
@[simp] theorem State.accept_page (w : Work) : (s.accept w).page = s.page := rfl
@[simp] theorem State.accept_seq (w : Work) : (s.accept w).seq = .busy 0 (some w) := rfl
@[simp] theorem State.accept_cmdPort (w : Work) : (s.accept w).cmdPort = s.cmdPort := rfl
@[simp] theorem State.accept_resetIn (w : Work) : (s.accept w).resetIn = s.resetIn := rfl
@[simp] theorem State.accept_respPort (w : Work) : (s.accept w).respPort = s.respPort := rfl
@[simp] theorem State.accept_busLog (w : Work) : (s.accept w).busLog = s.busLog := rfl
@[simp] theorem State.accept_env (w : Work) : (s.accept w).env = s.env := rfl

@[simp] theorem State.goOn_cfg (tix : BitVec 8) (w : Work) : (s.goOn tix w).cfg = s.cfg := rfl
@[simp] theorem State.goOn_mux (tix : BitVec 8) (w : Work) : (s.goOn tix w).mux = s.mux := rfl
@[simp] theorem State.goOn_page (tix : BitVec 8) (w : Work) : (s.goOn tix w).page = s.page := rfl
@[simp] theorem State.goOn_seq (tix : BitVec 8) (w : Work) : (s.goOn tix w).seq = .busy tix (some w) := rfl
@[simp] theorem State.goOn_cmdPort (tix : BitVec 8) (w : Work) : (s.goOn tix w).cmdPort = s.cmdPort := rfl
@[simp] theorem State.goOn_resetIn (tix : BitVec 8) (w : Work) : (s.goOn tix w).resetIn = s.resetIn := rfl
@[simp] theorem State.goOn_respPort (tix : BitVec 8) (w : Work) : (s.goOn tix w).respPort = s.respPort := rfl
@[simp] theorem State.goOn_busLog (tix : BitVec 8) (w : Work) : (s.goOn tix w).busLog = s.busLog := rfl
@[simp] theorem State.goOn_env (tix : BitVec 8) (w : Work) : (s.goOn tix w).env = s.env := rfl

@[simp] theorem State.hang_cfg (tix : BitVec 8) : (s.hang tix).cfg = s.cfg := rfl
@[simp] theorem State.hang_mux (tix : BitVec 8) : (s.hang tix).mux = s.mux := rfl
@[simp] theorem State.hang_page (tix : BitVec 8) : (s.hang tix).page = s.page := rfl
@[simp] theorem State.hang_seq (tix : BitVec 8) : (s.hang tix).seq = .busy tix none := rfl
@[simp] theorem State.hang_cmdPort (tix : BitVec 8) : (s.hang tix).cmdPort = s.cmdPort := rfl
@[simp] theorem State.hang_resetIn (tix : BitVec 8) : (s.hang tix).resetIn = s.resetIn := rfl
@[simp] theorem State.hang_respPort (tix : BitVec 8) : (s.hang tix).respPort = s.respPort := rfl
@[simp] theorem State.hang_busLog (tix : BitVec 8) : (s.hang tix).busLog = s.busLog := rfl
@[simp] theorem State.hang_env (tix : BitVec 8) : (s.hang tix).env = s.env := rfl

@[simp] theorem State.respond_cfg (status : Status) (info : Byte) (payload : List Byte) : (s.respond status info payload).cfg = s.cfg := rfl
@[simp] theorem State.respond_mux (status : Status) (info : Byte) (payload : List Byte) : (s.respond status info payload).mux = s.mux := rfl
@[simp] theorem State.respond_page (status : Status) (info : Byte) (payload : List Byte) : (s.respond status info payload).page = s.page := rfl
@[simp] theorem State.respond_seq (status : Status) (info : Byte) (payload : List Byte) : (s.respond status info payload).seq = .idle := rfl
@[simp] theorem State.respond_cmdPort (status : Status) (info : Byte) (payload : List Byte) : (s.respond status info payload).cmdPort = s.cmdPort := rfl
@[simp] theorem State.respond_resetIn (status : Status) (info : Byte) (payload : List Byte) : (s.respond status info payload).resetIn = s.resetIn := rfl
@[simp] theorem State.respond_respPort (status : Status) (info : Byte) (payload : List Byte) : (s.respond status info payload).respPort = s.respPort ++ [status.code :: info :: payload] := rfl
@[simp] theorem State.respond_busLog (status : Status) (info : Byte) (payload : List Byte) : (s.respond status info payload).busLog = s.busLog := rfl
@[simp] theorem State.respond_env (status : Status) (info : Byte) (payload : List Byte) : (s.respond status info payload).env = s.env := rfl

@[simp] theorem State.raiseError_cfg (e : CommandError) : (s.raiseError e).cfg = s.cfg := by
  cases e <;> rfl
@[simp] theorem State.raiseError_mux (e : CommandError) : (s.raiseError e).mux = s.mux := by
  cases e <;> rfl
@[simp] theorem State.raiseError_page (e : CommandError) : (s.raiseError e).page = s.page := by
  cases e <;> rfl
@[simp] theorem State.raiseError_seq (e : CommandError) : (s.raiseError e).seq = .idle := by
  cases e <;> rfl
@[simp] theorem State.raiseError_cmdPort (e : CommandError) : (s.raiseError e).cmdPort = s.cmdPort := by
  cases e <;> rfl
@[simp] theorem State.raiseError_resetIn (e : CommandError) : (s.raiseError e).resetIn = s.resetIn := by
  cases e <;> rfl
@[simp] theorem State.raiseError_busLog (e : CommandError) : (s.raiseError e).busLog = s.busLog := by
  cases e <;> rfl
@[simp] theorem State.raiseError_env (e : CommandError) : (s.raiseError e).env = s.env := by
  cases e <;> rfl

@[simp] theorem State.endCommand_cfg (tix : BitVec 8) (w : Work) : (s.endCommand tix w).cfg = s.cfg := by
  unfold State.endCommand; split <;> simp
@[simp] theorem State.endCommand_mux (tix : BitVec 8) (w : Work) : (s.endCommand tix w).mux = s.mux := by
  unfold State.endCommand; split <;> simp
@[simp] theorem State.endCommand_page (tix : BitVec 8) (w : Work) : (s.endCommand tix w).page = s.page := by
  unfold State.endCommand; split <;> simp
@[simp] theorem State.endCommand_seq (tix : BitVec 8) (w : Work) : (s.endCommand tix w).seq = .idle := by
  unfold State.endCommand; split <;> simp
@[simp] theorem State.endCommand_cmdPort (tix : BitVec 8) (w : Work) : (s.endCommand tix w).cmdPort = s.cmdPort := by
  unfold State.endCommand; split <;> simp
@[simp] theorem State.endCommand_resetIn (tix : BitVec 8) (w : Work) : (s.endCommand tix w).resetIn = s.resetIn := by
  unfold State.endCommand; split <;> simp
@[simp] theorem State.endCommand_busLog (tix : BitVec 8) (w : Work) : (s.endCommand tix w).busLog = s.busLog := by
  unfold State.endCommand; split <;> simp
@[simp] theorem State.endCommand_env (tix : BitVec 8) (w : Work) : (s.endCommand tix w).env = s.env := by
  unfold State.endCommand; split <;> simp

@[simp] theorem Line.commit_cfg (line : Line) : (line.commit s).cfg = s.cfg := by
  cases line <;> rfl
@[simp] theorem Line.commit_seq (line : Line) : (line.commit s).seq = s.seq := by
  cases line <;> rfl
@[simp] theorem Line.commit_cmdPort (line : Line) : (line.commit s).cmdPort = s.cmdPort := by
  cases line <;> rfl
@[simp] theorem Line.commit_resetIn (line : Line) : (line.commit s).resetIn = s.resetIn := by
  cases line <;> rfl
@[simp] theorem Line.commit_respPort (line : Line) : (line.commit s).respPort = s.respPort := by
  cases line <;> rfl
@[simp] theorem Line.commit_busLog (line : Line) : (line.commit s).busLog = s.busLog := by
  cases line <;> rfl
@[simp] theorem Line.commit_env (line : Line) : (line.commit s).env = s.env := by
  cases line <;> rfl

@[simp] theorem Line.pass_cfg (line : Line) : (line.pass s).cfg = s.cfg := by
  cases line <;> rfl
@[simp] theorem Line.pass_seq (line : Line) : (line.pass s).seq = s.seq := by
  cases line <;> rfl
@[simp] theorem Line.pass_cmdPort (line : Line) : (line.pass s).cmdPort = s.cmdPort := by
  cases line <;> rfl
@[simp] theorem Line.pass_resetIn (line : Line) : (line.pass s).resetIn = s.resetIn := by
  cases line <;> rfl
@[simp] theorem Line.pass_respPort (line : Line) : (line.pass s).respPort = s.respPort := by
  cases line <;> rfl
@[simp] theorem Line.pass_busLog (line : Line) : (line.pass s).busLog = s.busLog := by
  cases line <;> rfl
@[simp] theorem Line.pass_env (line : Line) : (line.pass s).env = s.env := by
  cases line <;> rfl

end Sys2Proof.Machine
end

