-- ==== Sys2Proof/Laws/Ops.lean ====
section
/-! SUPPORT. The shared operations, each said once: how one transaction can end (`State.transact_cases`), everything the core can
do with its next line (`State.execLine_cases`), that it comes to rest (`State.execLines_rests`), and that what every line
keeps, the core's own step and a whole command keep. -/

namespace Sys2Proof.Machine

/-! ### One transaction -/

/-- What the environment answers by itself has the length asked for (R51). -/
theorem ownCompletion_length {c : Params} {log : List BusRecord} {window : Bool} {r : BusRequest} {devices : Option Devices}
    {bytes : List Byte} (h : ownCompletion c log window r devices = .ok bytes) : bytes.length = readLength r := by
  unfold ownCompletion at h
  split at h
  · unfold freeCompletion at h
    split at h <;> cases h
    simp
  · exact Devices.completion_length h

/-- A read answers as many bytes as it asks for (R51). -/
theorem Arrival.completion_length {c : Params} {log : List BusRecord} {window : Bool} {r : BusRequest} {a : Arrival}
    {bytes : List Byte} (h : a.completion c log window r = .ok bytes) : bytes.length = readLength r := by
  unfold Arrival.completion at h
  split at h
  case h_1 => cases h; simp
  case h_2 => cases h; simp
  case h_6 => exact ownCompletion_length h
  case h_7 => exact ownCompletion_length h
  case h_8 => exact ownCompletion_length h
  all_goals cases h

/-- How the one transaction of a line can end: with the completion the environment gives. -/
theorem State.transact_cases (line : Line) (r : BusRequest) (tix : BitVec 8) (w : Work) (s : State) :
    let completion := (s.env.arrival s.cfg).completion s.cfg s.busLog line.isWindow r
    let env := (s.env.arrival s.cfg).after s.cfg line.isWindow r
    (∃ bytes, completion = .ok bytes ∧ bytes.length = readLength r ∧
      s.transact line r tix w =
        line.commit ((s.observe r (.ok bytes) env).goOn (tix + 1) { w with bytes := w.bytes ++ bytes })) ∨
    (completion = .fail ∧ s.transact line r tix w = (s.observe r .fail env).goOn tix (line.failed w tix)) ∨
    (completion = .never ∧ s.transact line r tix w = (s.observe r .never env).hang tix) ∨
    (completion = .abandoned ∧ s.transact line r tix w = (s.observe r .abandoned env).coreReset) := by
  unfold State.transact
  cases hc : (s.env.arrival s.cfg).completion s.cfg s.busLog line.isWindow r with
  | ok bytes => exact .inl ⟨bytes, rfl, Arrival.completion_length hc, by simp [hc]⟩
  | fail => exact .inr (.inl ⟨rfl, by simp [hc]⟩)
  | never => exact .inr (.inr (.inl ⟨rfl, by simp [hc]⟩))
  | abandoned => exact .inr (.inr (.inr ⟨rfl, by simp [hc]⟩))

section
variable {line : Line} {r : BusRequest} {tix : BitVec 8} {w : Work} {s : State} {rest : List BusEvent}

/-- The environment replies with an answer of the right length. -/
theorem State.transact_reply {bytes : List Byte} (hscript : s.env.script = .reply bytes :: rest)
    (hlen : bytes.length = readLength r) :
    s.transact line r tix w = line.commit ((s.observe r (.ok bytes)
      ⟨rest, s.env.devices.bind (Devices.take s.cfg line.isWindow r wholeExtent)⟩).goOn (tix + 1)
      { w with bytes := w.bytes ++ bytes }) := by
  simp [State.transact, BusEnv.arrival, hscript, Arrival.completion, fillBytes_exact hlen, Arrival.after, Arrival.extent]

/-- The environment fails the transaction. -/
theorem State.transact_fail {taken : Nat} (hscript : s.env.script = .fail taken :: rest) :
    s.transact line r tix w = (s.observe r .fail
      ⟨rest, s.env.devices.bind (Devices.take s.cfg line.isWindow r taken)⟩).goOn tix (line.failed w tix) := by
  simp [State.transact, BusEnv.arrival, hscript, Arrival.completion, Arrival.after, Arrival.extent]

/-- The transaction never completes. -/
theorem State.transact_hang {taken : Nat} (hscript : s.env.script = .hang taken :: rest) :
    s.transact line r tix w = (s.observe r .never
      ⟨rest, s.env.devices.bind (Devices.take s.cfg line.isWindow r taken)⟩).hang tix := by
  simp [State.transact, BusEnv.arrival, hscript, Arrival.completion, Arrival.after, Arrival.extent]

/-- The reset input abandons the command while the transaction is in flight. -/
theorem State.transact_reset {taken : Nat} (hscript : s.env.script = .reset taken :: rest) :
    s.transact line r tix w = (s.observe r .abandoned
      ⟨rest, s.env.devices.bind (Devices.take s.cfg line.isWindow r taken)⟩).coreReset := by
  simp [State.transact, BusEnv.arrival, hscript, Arrival.completion, Arrival.after, Arrival.extent]

/-- The script has run out, and the environment answers by itself. -/
theorem State.transact_own {bytes : List Byte} (hscript : s.env.script = [])
    (hown : ownCompletion s.cfg s.busLog line.isWindow r s.env.devices = .ok bytes) :
    s.transact line r tix w = line.commit ((s.observe r (.ok bytes)
      ⟨[], s.env.devices.bind (Devices.take s.cfg line.isWindow r wholeExtent)⟩).goOn (tix + 1)
      { w with bytes := w.bytes ++ bytes }) := by
  simp [State.transact, BusEnv.arrival, hscript, Arrival.completion, hown, Arrival.after, Arrival.extent]

end

/-! ### One line -/

theorem State.execLine_idle {s : State} (h : s.seq = .idle) : s.execLine = s := by
  simp [State.execLine, h]

theorem State.execLine_hung {s : State} {tix : BitVec 8} (h : s.seq = .busy tix none) : s.execLine = s := by
  simp [State.execLine, h]

theorem State.execLine_end {s : State} {tix : BitVec 8} {w : Work} (h : s.seq = .busy tix (some w)) (ht : w.todo = []) :
    s.execLine = s.endCommand tix w := by
  simp [State.execLine, h, ht]

theorem State.execLine_pass {s : State} {tix : BitVec 8} {w : Work} {line : Line} {rest : List Line}
    (h : s.seq = .busy tix (some w)) (ht : w.todo = line :: rest) (hr : line.request s.cfg s.mux s.page w.bytes = none) :
    s.execLine = (line.pass s).goOn tix { w with todo := rest } := by
  simp [State.execLine, h, ht, hr]

theorem State.execLine_transact {s : State} {tix : BitVec 8} {w : Work} {line : Line} {rest : List Line} {r : BusRequest}
    (h : s.seq = .busy tix (some w)) (ht : w.todo = line :: rest) (hr : line.request s.cfg s.mux s.page w.bytes = some r) :
    s.execLine = s.transact line r tix { w with todo := rest } := by
  simp [State.execLine, h, ht, hr]

/-- Everything the core can do with its next line. -/
theorem State.execLine_cases (s : State) :
    ((s.seq = .idle ∨ ∃ tix, s.seq = .busy tix none) ∧ s.execLine = s) ∨
    ∃ tix w, s.seq = .busy tix (some w) ∧
      ((w.todo = [] ∧ s.execLine = s.endCommand tix w) ∨
        ∃ line rest, w.todo = line :: rest ∧
          ((line.request s.cfg s.mux s.page w.bytes = none ∧ s.execLine = (line.pass s).goOn tix { w with todo := rest }) ∨
            ∃ r, line.request s.cfg s.mux s.page w.bytes = some r ∧
              s.execLine = s.transact line r tix { w with todo := rest })) := by
  cases hs : s.seq with
  | idle => exact .inl ⟨.inl rfl, execLine_idle hs⟩
  | busy tix work =>
    cases work with
    | none => exact .inl ⟨.inr ⟨tix, rfl⟩, execLine_hung hs⟩
    | some w =>
      refine .inr ⟨tix, w, rfl, ?_⟩
      cases ht : w.todo with
      | nil => exact .inl ⟨rfl, execLine_end hs ht⟩
      | cons line rest =>
        refine .inr ⟨line, rest, rfl, ?_⟩
        cases hr : line.request s.cfg s.mux s.page w.bytes with
        | none => exact .inl ⟨rfl, execLine_pass hs ht hr⟩
        | some r => exact .inr ⟨r, rfl, execLine_transact hs ht hr⟩

/-- The caches after a line depend on the caches before it only. -/
theorem Line.commit_mux (s : State) (line : Line) {t : State} (h : t.mux = s.mux) :
    (line.commit t).mux = (line.commit s).mux := by
  cases line <;> first | rfl | exact h

theorem Line.commit_page (s : State) (line : Line) {t : State} (h : t.page = s.page) :
    (line.commit t).page = (line.commit s).page := by
  cases line <;> first | rfl | exact h

/-- Whether a line issues a transaction does not depend on the bytes read. -/
theorem Line.request_isSome (c : Params) (mux page : Option Byte) (a b : List Byte) (line : Line) :
    (line.request c mux page a).isSome = (line.request c mux page b).isSome := by
  cases line <;> rfl

/-- The lines left after a failed transaction are some of those that were left. -/
theorem Line.failed_sublist (w : Work) (tix : BitVec 8) (line : Line) : (line.failed w tix).todo.Sublist w.todo := by
  cases line
  case closeMux =>
    simp only [Line.failed, Work.closeFailed]
    split <;> exact List.nil_sublist _
  case invalidate => exact .refl _
  all_goals first
    | exact List.nil_sublist _
    | exact List.filter_sublist

theorem Line.failed_todo_length (w : Work) (tix : BitVec 8) (line : Line) :
    (line.failed w tix).todo.length ≤ w.todo.length := (line.failed_sublist w tix).length_le

/-! ### Coming to rest -/

theorem State.linesLeft_busy {s : State} {tix : BitVec 8} {w : Work} (h : s.seq = .busy tix (some w)) :
    s.linesLeft = w.todo.length + 1 := by
  simp [State.linesLeft, h]

theorem State.linesLeft_idle {s : State} (h : s.seq = .idle) : s.linesLeft = 0 := by
  simp [State.linesLeft, h]

theorem State.linesLeft_hung {s : State} {tix : BitVec 8} (h : s.seq = .busy tix none) : s.linesLeft = 0 := by
  simp [State.linesLeft, h]

/-- A core with no lines left is idle or hung. -/
theorem State.linesLeft_eq_zero {s : State} (h : s.linesLeft = 0) : s.seq = .idle ∨ ∃ tix, s.seq = .busy tix none := by
  unfold State.linesLeft at h
  split at h
  · exact .inl ‹_›
  · exact .inr ⟨_, ‹_›⟩
  · omega

/-- A core at rest stays as it is. -/
theorem State.execLine_rest {s : State} (h : s.linesLeft = 0) : s.execLine = s := by
  rcases linesLeft_eq_zero h with h | ⟨tix, h⟩
  · exact execLine_idle h
  · exact execLine_hung h

/-- Every line done leaves fewer. -/
theorem State.execLine_linesLeft {s : State} (h : 0 < s.linesLeft) : s.execLine.linesLeft < s.linesLeft := by
  rcases s.execLine_cases with ⟨hs, _⟩ | ⟨tix, w, hs, ⟨ht, he⟩ | ⟨line, rest, ht, ⟨_, he⟩ | ⟨r, _, he⟩⟩⟩
  · rcases hs with hs | ⟨tix, hs⟩
    · simp [linesLeft_idle hs] at h
    · simp [linesLeft_hung hs] at h
  · rw [he, linesLeft_idle (by simp)]
    exact h
  · rw [he, linesLeft_busy hs, linesLeft_busy (State.goOn_seq _ _ _)]
    simp [ht]
  · rw [he, linesLeft_busy hs, ht]
    rcases State.transact_cases line r tix { w with todo := rest } s with
      ⟨bytes, _, _, he⟩ | ⟨_, he⟩ | ⟨_, he⟩ | ⟨_, he⟩ <;> rw [he]
    · rw [linesLeft_busy (tix := tix + 1) (w := { w with todo := rest, bytes := w.bytes ++ bytes }) (by simp)]
      simp
    · rw [linesLeft_busy (State.goOn_seq _ _ _)]
      have := line.failed_todo_length { w with todo := rest } tix
      simp only [List.length_cons] at this ⊢
      omega
    · rw [linesLeft_hung (State.hang_seq _ _)]
      omega
    · rw [linesLeft_idle (State.coreReset_seq _)]
      omega

theorem State.execLines_add (m n : Nat) (s : State) : s.execLines (m + n) = (s.execLines m).execLines n := by
  induction m generalizing s with
  | zero => simp [State.execLines]
  | succ m ih => rw [Nat.succ_add]; exact ih s.execLine

theorem State.execLines_rest {s : State} (h : s.linesLeft = 0) (n : Nat) : s.execLines n = s := by
  induction n with
  | zero => rfl
  | succ n ih => simpa [State.execLines, execLine_rest h] using ih

/-- As many lines as are left bring the core to rest. -/
theorem State.execLines_rests {n : Nat} {s : State} (h : s.linesLeft ≤ n) : (s.execLines n).linesLeft = 0 := by
  induction n generalizing s with
  | zero => exact Nat.le_zero.1 h
  | succ n ih =>
    refine ih (s := s.execLine) ?_
    by_cases h0 : s.linesLeft = 0
    · rw [execLine_rest h0, h0]
      omega
    · have := execLine_linesLeft (s := s) (by omega)
      omega

/-- Where the core comes to rest does not depend on how many lines are allowed, if they are enough. -/
theorem State.execLines_eq {m n : Nat} {s t : State} (hm : s.execLines m = t) (ht : t.linesLeft = 0)
    (hn : s.linesLeft ≤ n) : s.execLines n = t := by
  rcases Nat.le_total m n with h | h
  · obtain ⟨k, rfl⟩ := Nat.exists_eq_add_of_le h
    rw [execLines_add, hm, execLines_rest ht]
  · obtain ⟨k, rfl⟩ := Nat.exists_eq_add_of_le h
    rw [← hm, execLines_add, execLines_rest (execLines_rests hn)]

/-! ### What every line keeps -/

theorem State.execLines_induct {P : State → Prop} (hP : ∀ s, P s → P s.execLine) (n : Nat) {s : State} (h : P s) :
    P (s.execLines n) := by
  induction n generalizing s with
  | zero => exact h
  | succ n ih => exact ih (hP s h)

theorem State.settleFor_induct {P : State → Prop} (hP : ∀ s, s.issuesNext = false → P s → P s.execLine) (n : Nat) {s : State}
    (h : P s) : P (State.settleFor n s) := by
  induction n generalizing s with
  | zero => exact h
  | succ n ih =>
    unfold State.settleFor
    split
    · exact h
    · rename_i hn
      exact ih (hP s (by simpa using hn) h)

/-- What every line keeps, the core's own step keeps. -/
theorem State.coreStep_induct {P : State → Prop} (hP : ∀ s, P s → P s.execLine) {s : State} (h : P s) : P s.coreStep :=
  settleFor_induct (fun t _ => hP t) _ (hP _ (settleFor_induct (fun t _ => hP t) _ h))

/-- The core's own step executes some lines, at least one. -/
theorem State.coreStep_eq_execLines (s : State) : ∃ n, s.coreStep = s.execLines (n + 1) := by
  have settle : ∀ n (t : State), ∃ m, State.settleFor n t = t.execLines m := by
    intro n
    induction n with
    | zero => exact fun t => ⟨0, rfl⟩
    | succ n ih =>
      intro t
      unfold State.settleFor
      split
      · exact ⟨0, rfl⟩
      · obtain ⟨m, hm⟩ := ih t.execLine
        exact ⟨m + 1, hm⟩
  obtain ⟨a, ha⟩ := settle s.linesLeft s
  obtain ⟨b, hb⟩ := settle (State.settleFor s.linesLeft s).execLine.linesLeft (State.settleFor s.linesLeft s).execLine
  refine ⟨a + b, ?_⟩
  have h : s.coreStep = ((s.execLines a).execLine).execLines b := by
    unfold State.coreStep State.settle
    rw [hb, ha]
  rw [h, Nat.add_right_comm, execLines_add, execLines_add]
  rfl

/-- A command under well-formed parameters has a next state (R90: every accepted frame is executed). -/
theorem runCommand_next {w : Work} {s : State} (h : s.cfg.WellFormed) :
    runCommand w s = .next ((s.accept w).execLines (w.todo.length + 1)) := if_pos h

theorem runCommand_eq_next {w : Work} {s t : State} (h : runCommand w s = .next t) :
    s.cfg.WellFormed ∧ t = (s.accept w).execLines (w.todo.length + 1) := by
  unfold runCommand at h
  split at h
  · rename_i hw
    cases h
    exact ⟨hw, rfl⟩
  · cases h

/-- A command has come to rest (R23, R241). -/
theorem runCommand_rests {w : Work} {s t : State} (h : runCommand w s = .next t) :
    t.seq = .idle ∨ ∃ tix, t.seq = .busy tix none := by
  obtain ⟨_, rfl⟩ := runCommand_eq_next h
  exact State.linesLeft_eq_zero (State.execLines_rests (by rw [State.linesLeft_busy (State.accept_seq s w)]))

/-- However many lines bring a command to rest, that is where it ends. -/
theorem runCommand_eq {w : Work} {s t : State} {n : Nat} (hw : s.cfg.WellFormed) (h : (s.accept w).execLines n = t)
    (ht : t.linesLeft = 0) : runCommand w s = .next t := by
  rw [runCommand_next hw, State.execLines_eq h ht (by rw [State.linesLeft_busy (State.accept_seq s w)])]

end Sys2Proof.Machine
end

