-- ==== Sys2Proof/Laws/Commands.lean ====
section
/-! SUPPORT. Each command is its procedure, run by `runCommand`; every line of a command's procedure issues only requests of
that command. -/

namespace Sys2Proof.Machine

/-- A command is its procedure. -/
theorem exec_eq_runCommand (i : Instr) (s : State) : exec i s = runCommand (workOf s.cfg i) s := by
  cases i <;> rfl

/-- What a command does under well-formed parameters. -/
theorem exec_next (i : Instr) {s : State} (hw : s.cfg.WellFormed) :
    exec i s = .next ((s.accept (workOf s.cfg i)).execLines ((workOf s.cfg i).todo.length + 1)) := by
  rw [exec_eq_runCommand, runCommand_next hw]

theorem exec_eq_next {i : Instr} {s t : State} (h : exec i s = .next t) :
    s.cfg.WellFormed ∧ t = (s.accept (workOf s.cfg i)).execLines ((workOf s.cfg i).todo.length + 1) := by
  rw [exec_eq_runCommand] at h
  exact runCommand_eq_next h

/-- What acceptance has and every line keeps, a command keeps. -/
theorem exec_induct {P : State → Prop} {i : Instr} {s t : State} (h : exec i s = .next t)
    (h0 : P (s.accept (workOf s.cfg i))) (hP : ∀ u, P u → P u.execLine) : P t := by
  rw [(exec_eq_next h).2]
  exact State.execLines_induct hP _ h0

/-! ### Operand forms -/

/-- R54: the base-and-offset form at a sum that is a logical address. -/
theorem withEffective_eq {base off : Addr} (h : base.toNat + off.toNat ≤ 0xFFFF) (f : Addr → Work) :
    withEffective base off f = f (base + off) := by
  simp [withEffective, effectiveAddr, h]

/-- R54: any other sum. -/
theorem withEffective_out {base off : Addr} (h : 0xFFFF < base.toNat + off.toNat) (f : Addr → Work) :
    withEffective base off f = .raising .invalidArgument := by
  simp [withEffective, effectiveAddr, show ¬ base.toNat + off.toNat ≤ 0xFFFF by omega]

/-- R58: a block count in its domain. -/
theorem withBlockCount_eq {c : Params} {n : Nat} (h : c.BlockCount n) (w : Work) : withBlockCount c n w = w := if_pos h

/-- R58: any other count. -/
theorem withBlockCount_out {c : Params} {n : Nat} (h : ¬ c.BlockCount n) (w : Work) :
    withBlockCount c n w = .raising .invalidArgument := if_neg h

/-- R181: a pin in range. -/
theorem withPin_eq {pin : Byte} {p : Fin 16} (h : pinOf pin = some p) (o : Reply) (f : Fin 16 → Work) :
    withPin pin o f = f p := by
  simp [withPin, h]

/-- R181: any other pin. -/
theorem withPin_out {pin : Byte} (h : pinOf pin = none) (o : Reply) (f : Fin 16 → Work) :
    withPin pin o f = .answering o [] := by
  simp [withPin, h]

/-- R202: a slot in range, where `HAS_SFP`. -/
theorem sfpPollWork_eq {c : Params} {slot : Byte} {i : Fin 4} (hs : c.hasSfp = true) (h : slotOf slot = some i) :
    sfpPollWork c slot = .answering .pollResult (pollLines i) := by
  simp [sfpPollWork, whenHasSfp, withSlot, hs, h]

theorem mem_withEffective {base off : Addr} {f : Addr → Work} {line : Line} (h : line ∈ (withEffective base off f).todo) :
    base.toNat + off.toNat ≤ 0xFFFF ∧ line ∈ (f (base + off)).todo := by
  by_cases hle : base.toNat + off.toNat ≤ 0xFFFF
  · exact ⟨hle, by rwa [withEffective_eq hle] at h⟩
  · rw [withEffective_out (by omega)] at h
    simp [Work.raising] at h

theorem mem_withBlockCount {c : Params} {n : Nat} {w : Work} {line : Line} (h : line ∈ (withBlockCount c n w).todo) :
    c.BlockCount n ∧ line ∈ w.todo := by
  by_cases hn : c.BlockCount n
  · exact ⟨hn, by rwa [withBlockCount_eq hn] at h⟩
  · rw [withBlockCount_out hn] at h
    simp [Work.raising] at h

theorem mem_withPin {pin : Byte} {o : Reply} {f : Fin 16 → Work} {line : Line} (h : line ∈ (withPin pin o f).todo) :
    ∃ p, pinOf pin = some p ∧ line ∈ (f p).todo := by
  cases hp : pinOf pin with
  | none =>
    rw [withPin_out hp] at h
    simp [Work.answering] at h
  | some p => exact ⟨p, rfl, by rwa [withPin_eq hp] at h⟩

theorem mem_sfpPollWork {c : Params} {slot : Byte} {line : Line} (h : line ∈ (sfpPollWork c slot).todo) :
    c.hasSfp = true ∧ ∃ i, slotOf slot = some i ∧ line ∈ pollLines i := by
  cases hs : c.hasSfp with
  | false => simp [sfpPollWork, whenHasSfp, hs, Work.raising] at h
  | true =>
    cases hi : slotOf slot with
    | none => simp [sfpPollWork, whenHasSfp, withSlot, hs, hi, Work.raising] at h
    | some i => exact ⟨rfl, i, rfl, by rwa [sfpPollWork_eq hs hi] at h⟩

/-! ### Requests -/

theorem selectRequest_eq {c : Params} {mux : Option Byte} {chan : Byte} {r : BusRequest}
    (h : selectRequest c mux chan = some r) : mux ≠ some chan ∧ c.MuxWrite chan r := by
  unfold selectRequest at h
  split at h <;> cases h
  exact ⟨‹_›, rfl⟩

theorem windowRequest_eq {c : Params} {page : Option Byte} {addr : Addr} {r : BusRequest}
    (h : windowRequest c page addr = some r) : page ≠ some (upperOf addr) ∧ c.WindowWrite addr r := by
  unfold windowRequest at h
  split at h <;> cases h
  exact ⟨‹_›, rfl⟩

/-- The lines of one paged access issue its mux write, its window write and its data transaction. -/
theorem pagedLines_request {c : Params} {addr : Addr} {data line : Line} {mux page : Option Byte} {bytes : List Byte}
    {q r : BusRequest} (hd : ∀ bytes, data.request c mux page bytes = some q) (h : line ∈ pagedLines c addr data)
    (hr : line.request c mux page bytes = some r) : c.PagedRequest addr q r := by
  simp only [pagedLines, ensureChannel, List.mem_cons, List.not_mem_nil, or_false] at h
  rcases h with rfl | rfl | rfl
  · exact .inl (selectRequest_eq hr).2
  · exact .inr (.inl (windowRequest_eq hr).2)
  · exact .inr (.inr (Option.some.inj ((hd bytes).symm.trans hr)).symm)

/-- R50, R137: a line of a command's procedure issues only requests of that command. -/
theorem issues_of_mem {c : Params} {i : Instr} {line : Line} {mux page : Option Byte} {bytes : List Byte} {r : BusRequest}
    (h : line ∈ (workOf c i).todo) (hr : line.request c mux page bytes = some r) : i.Issues c r := by
  have fixed : ∀ {q r : BusRequest}, some q = some r → r = q := fun h => (Option.some.inj h).symm
  have one : ∀ {line' : Line}, line ∈ [line'] → line = line' := by simp
  cases i with
  | muxSel chan =>
    cases one h
    exact (selectRequest_eq hr).2
  | muxClose =>
    cases one h
    exact (selectRequest_eq hr).2
  | inval mask =>
    cases one h
    cases hr
  | prsEnsure =>
    cases one h
    exact (selectRequest_eq hr).2
  | prsWrb addr val => exact pagedLines_request (fun _ => rfl) h hr
  | prsRdb addr => exact pagedLines_request (fun _ => rfl) h hr
  | prsWrblk addr data =>
    obtain ⟨hn, h⟩ := mem_withBlockCount h
    exact ⟨hn, pagedLines_request (fun _ => rfl) h hr⟩
  | prsRdblk addr cnt =>
    obtain ⟨hn, h⟩ := mem_withBlockCount h
    exact ⟨hn, pagedLines_request (fun _ => rfl) h hr⟩
  | prsWrbo base off val =>
    obtain ⟨hs, h⟩ := mem_withEffective h
    exact ⟨hs, pagedLines_request (fun _ => rfl) h hr⟩
  | prsRdbo base off =>
    obtain ⟨hs, h⟩ := mem_withEffective h
    exact ⟨hs, pagedLines_request (fun _ => rfl) h hr⟩
  | prsWrblko base off data =>
    obtain ⟨hn, h⟩ := mem_withBlockCount h
    obtain ⟨hs, h⟩ := mem_withEffective h
    exact ⟨hs, hn, pagedLines_request (fun _ => rfl) h hr⟩
  | prsRdblko base off cnt =>
    obtain ⟨hn, h⟩ := mem_withBlockCount h
    obtain ⟨hs, h⟩ := mem_withEffective h
    exact ⟨hs, hn, pagedLines_request (fun _ => rfl) h hr⟩
  | gpioCfgin pin value =>
    obtain ⟨p, hp, h⟩ := mem_withPin h
    exact ⟨p, hp, pagedLines_request (fun _ => rfl) h hr⟩
  | gpioCfgout pin value =>
    obtain ⟨p, hp, h⟩ := mem_withPin h
    refine ⟨p, hp, ?_⟩
    simp only [Work.answering, configureOutputLines, relatchLines] at h
    unfold Params.ConfigureRequest
    cases hg : c.gpioRelatch <;> rw [hg] at h <;>
      simp only [pagedLines, ensureChannel, List.mem_append, List.mem_cons, List.not_mem_nil, or_false] at h <;>
      rcases h with ((h | h) | h) | h
    all_goals first
      | (rcases h with rfl | rfl | rfl
         · exact .inl (selectRequest_eq hr).2
         · first
           | exact .inr (.inl (windowRequest_eq hr).2)
           | exact .inr (.inr (.inl (windowRequest_eq hr).2))
         · have := fixed hr
           subst this
           simp [outputTrigger])
      | (rcases h with h | h <;> rcases h with rfl | rfl | rfl
         all_goals first
           | exact .inl (selectRequest_eq hr).2
           | exact .inr (.inl (windowRequest_eq hr).2)
           | (have := fixed hr
              subst this
              simp))
  | gpioRdmode pin =>
    obtain ⟨p, hp, h⟩ := mem_withPin h
    refine ⟨p, hp, ?_⟩
    rcases List.mem_append.1 h with h | h
    · exact .inl (pagedLines_request (fun _ => rfl) h hr)
    · exact .inr (pagedLines_request (fun _ => rfl) h hr)
  | sfpPoll slot =>
    obtain ⟨_, k, hk, h⟩ := mem_sfpPollWork h
    refine ⟨k, hk, ?_⟩
    simp only [pollLines, readVendorInfo, readDiagnostics, List.mem_append, List.mem_cons, List.not_mem_nil, or_false] at h
    unfold Params.PollRequest
    rcases h with rfl | (((rfl | rfl | rfl) | rfl | rfl | rfl | rfl) | rfl | rfl)
    all_goals first
      | exact .inl (selectRequest_eq hr).2
      | exact .inr (.inl (selectRequest_eq hr).2)
      | (have := fixed hr
         subst this
         simp)

end Sys2Proof.Machine
end

