-- ==== Sys2Proof/Laws/Decode.lean ====
section
/-! SUPPORT. The byte order of a 16-bit field, the opcode map both ways, and the bit fields of the frames. -/

namespace Sys2Proof

@[simp] theorem u16le_lower_upper (a : Addr) : u16le (lowerOf a) (upperOf a) = a := by
  apply BitVec.eq_of_toNat_eq
  simp only [u16le, lowerOf, upperOf, BitVec.toNat_append, BitVec.extractLsb'_toNat]
  have := a.isLt
  rw [← Nat.shiftLeft_add_eq_or_of_lt (by omega)]
  simp only [Nat.shiftLeft_eq, Nat.shiftRight_eq_div_pow]
  omega

@[simp] theorem lowerOf_u16le (lo hi : Byte) : lowerOf (u16le lo hi) = lo := by
  ext i hi'
  simp only [lowerOf, u16le, BitVec.getElem_extractLsb', BitVec.getLsbD_append]
  simp [hi']

@[simp] theorem upperOf_u16le (lo hi : Byte) : upperOf (u16le lo hi) = hi := by
  ext i hi'
  simp only [upperOf, u16le, BitVec.getElem_extractLsb', BitVec.getLsbD_append]
  simp [hi']

/-- An address is its two bytes. -/
theorem toNat_eq_upper_lower (a : Addr) : a.toNat = (upperOf a).toNat * 256 + (lowerOf a).toNat := by
  simp only [lowerOf, upperOf, BitVec.extractLsb'_toNat, Nat.shiftRight_eq_div_pow]
  have := a.isLt
  omega

@[simp] theorem bytesLE_eq (a : Addr) : bytesLE a = [lowerOf a, upperOf a] := rfl

/-- R93: every opcode's byte is that opcode, `0x30` only where `HAS_SFP`. -/
theorem opcodeOf_toByte (hasSfp : Bool) (k : Opcode) (h : k = .sfpPoll → hasSfp = true) :
    opcodeOf hasSfp k.toByte = some k := by
  cases k <;> first | rfl | simp [opcodeOf, Opcode.toByte, h rfl]

/-- R93: no other byte is. -/
theorem toByte_of_opcodeOf {hasSfp : Bool} {b : Byte} {k : Opcode} (h : opcodeOf hasSfp b = some k) : b = k.toByte := by
  revert h
  unfold opcodeOf
  split
  case h_15 hb =>
    intro h
    split at h
    · cases h; exact BitVec.eq_of_toNat_eq hb
    · cases h
  case h_16 => intro h; cases h
  all_goals
    rename_i hb
    intro h
    cases h
    exact BitVec.eq_of_toNat_eq hb

@[simp] theorem countByte_toNat {data : List Byte} (h : data.length ≤ 255) : (countByte data).toNat = data.length := by
  simp only [countByte, BitVec.toNat_ofNat]
  omega

@[simp] theorem decodeMask_encode (mask : BitVec 2) : decodeMask ((0 : BitVec 6) ++ mask) = .ok (.inval mask) := by
  revert mask
  decide

@[simp] theorem decodeConfigure_encode (pin : Byte) (output value : Bool) :
    decodeConfigure pin (controlByte output value) =
      .ok (if output then .gpioCfgout pin value else .gpioCfgin pin value) := by
  cases output <;> cases value <;> rfl

end Sys2Proof
end

