-- ==== Sys2Proof/Laws/Faithful.lean ====
section
/-! SUPPORT. One transaction in a faithful environment with a single owner (spec/00_scope.md rule R10, spec/10_state.md rule
R66): it moves the reference devices by the whole request when it succeeds, and not at all otherwise. -/

namespace Sys2Proof.Machine

/-- Devices that differ in nothing but the pins' inputs. -/
structure SameBut (d d' : Devices) : Prop where
  muxSel : d'.muxSel = d.muxSel
  winUpper : d'.winUpper = d.winUpper
  dpllMem : d'.dpllMem = d.dpllMem
  cages : d'.cages = d.cages

theorem SameBut.refl (d : Devices) : SameBut d d := ⟨rfl, rfl, rfl, rfl⟩

theorem SameBut.trans {d d' d'' : Devices} (h : SameBut d d') (h' : SameBut d' d'') : SameBut d d'' :=
  ⟨h'.1.trans h.1, h'.2.trans h.2, h'.3.trans h.3, h'.4.trans h.4⟩

/-- Under `SINGLE_OWNER` nothing but the pins moves before a transaction. -/
theorem arrive_sameBut (script : List BusEvent) (o : Option Devices) :
    ∀ d' ∈ (arrive true script o).devices, ∃ d ∈ o, SameBut d d' := by
  induction script generalizing o with
  | nil => exact fun d h => ⟨d, h, .refl d⟩
  | cons e es ih =>
    cases e with
    | pins ext =>
      intro d' h
      obtain ⟨d, hd, hs⟩ := ih _ d' h
      obtain ⟨d₀, h₀, rfl⟩ := Option.mem_map.1 hd
      exact ⟨d₀, h₀, hs.1, hs.2, hs.3, hs.4⟩
    | external y => exact fun d' h => ih _ d' h
    | lost b => exact fun d h => ⟨d, h, .refl d⟩
    | reply b => exact fun d h => ⟨d, h, .refl d⟩
    | fail b => exact fun d h => ⟨d, h, .refl d⟩
    | hang b => exact fun d h => ⟨d, h, .refl d⟩
    | reset b => exact fun d h => ⟨d, h, .refl d⟩
    | answer => exact fun d h => ⟨d, h, .refl d⟩

/-- A request of which nothing was taken has no effect. -/
theorem take_zero {c : Params} {window : Bool} {r : BusRequest} {d d' : Devices} (h : d' ∈ Devices.take c window r 0 d) : SameBut d d' := by
  unfold Devices.take at h
  split at h
  all_goals
    simp at h
    subst h
    exact ⟨rfl, rfl, rfl, rfl⟩

/-- A read has no effect (R70). -/
theorem take_read {c : Params} {d d' : Devices} {window : Bool} {r : BusRequest} {k : Nat}
    (hr : (∃ dev reg, r = .rb dev reg) ∨ ∃ dev reg n, r = .rk dev reg n) (h : d' ∈ d.take c window r k) : d' = d := by
  have key : ∀ dev reg n, (∃ a m, d.classifyRead c dev reg n = .dpllRead a m) ∨
      (∃ a b m, d.classifyRead c dev reg n = .sfpRead a b m) ∨
      d.classifyRead c dev reg n = .undefinedEffect ∨ d.classifyRead c dev reg n = .nobody := by
    intro dev reg n
    unfold Devices.classifyRead Devices.dpllAccess regionRead
    repeat' split
    all_goals simp
  have fin : ∀ x : DeviceAccess, d.classify c window r = x →
      ((∃ a m, x = .dpllRead a m) ∨ (∃ a b m, x = .sfpRead a b m) ∨ x = .undefinedEffect ∨ x = .nobody) → d' = d := by
    intro x hx hc
    unfold Devices.take at h
    rcases hc with ⟨a, m, rfl⟩ | ⟨a, b, m, rfl⟩ | rfl | rfl <;> rw [hx] at h
    · cases h
      rfl
    · cases h
      rfl
    · simp only at h
      split at h <;> cases h
      rfl
    · cases h
      rfl
  rcases hr with ⟨dev, reg, rfl⟩ | ⟨dev, reg, n, rfl⟩
  · exact fin _ rfl (key dev reg 1)
  · exact fin _ rfl (key dev reg n)

/-- R28: the whole mux write. -/
theorem take_muxWrite {c : Params} {d d' : Devices} {window : Bool} {chan : Byte}
    (h : d' ∈ d.take c window (.wb c.muxAddr c.muxReg chan) wholeExtent) : d' = { d with muxSel := chan } := by
  simp [Devices.take, Devices.classify, wholeExtent] at h
  exact h.symm

/-- R29: the whole window write, with the DPLL selected. -/
theorem take_windowWrite {c : Params} {d d' : Devices} {upper lower : Byte} (hm : d.muxSel = c.dpllChannel)
    (h : d' ∈ d.take c true (.wk c.dpllAddr c.pageReg (windowBytes upper lower)) wholeExtent) :
    d' = { d with winUpper := upper } := by
  simp [Devices.take, Devices.classify, Devices.ReachesDpll, wholeExtent, hm, windowBytes, byteAt] at h
  rw [← h, ← hm]

/-- The environment of a state is faithful, and has a single owner. -/
structure Faithful (c : Params) (s : State) : Prop where
  cfg : s.cfg = c
  owner : c.singleOwner = true
  script : ∀ e ∈ s.env.script, e.Faithful

/-- How the one transaction of a line ends in a faithful environment: it succeeds, and the devices take the whole request; or it
fails, never completes, or is abandoned by the reset input, and the devices take nothing. -/
theorem transact_faithful {c : Params} {s : State} {line : Line} {r : BusRequest} {tix : BitVec 8} {w : Work}
    (h : Faithful c s) :
    Faithful c (s.transact line r tix w) ∧
    ((∃ bytes, (s.transact line r tix w).seq = .busy (tix + 1) (some { w with bytes := w.bytes ++ bytes }) ∧
        (s.transact line r tix w).mux = (line.commit s).mux ∧ (s.transact line r tix w).page = (line.commit s).page ∧
        ∀ d' ∈ (s.transact line r tix w).env.devices,
          ∃ d ∈ s.env.devices, ∃ d₁, SameBut d d₁ ∧ d' ∈ d₁.take c line.isWindow r wholeExtent) ∨
      (((s.transact line r tix w).seq = .busy tix (some (line.failed w tix)) ∨ (s.transact line r tix w).seq = .busy tix none) ∧
        (s.transact line r tix w).mux = s.mux ∧ (s.transact line r tix w).page = s.page ∧
        ∀ d' ∈ (s.transact line r tix w).env.devices, ∃ d ∈ s.env.devices, SameBut d d') ∨
      ((s.transact line r tix w).seq = .idle ∧ (s.transact line r tix w).mux = none ∧
        (s.transact line r tix w).page = none ∧
        ∀ d' ∈ (s.transact line r tix w).env.devices, ∃ d ∈ s.env.devices, SameBut d d')) := by
  have hsame : ∀ d' ∈ (s.env.arrival s.cfg).devices, ∃ d ∈ s.env.devices, SameBut d d' := by
    have := arrive_sameBut s.env.script s.env.devices
    unfold BusEnv.arrival
    rw [h.cfg, h.owner]
    exact this
  have hscr : ∀ e ∈ (s.env.arrival s.cfg).rest, e.Faithful := fun e he => h.script e (arrive_rest_subset _ _ _ e he)
  have hev : (s.env.arrival s.cfg).event = .answer ∨ (s.env.arrival s.cfg).event.Faithful :=
    (arrive_event_mem _ _ _).imp id (h.script _)
  have hend := arrive_event_ends s.cfg.singleOwner s.env.script s.env.devices
  have hwhole : (s.env.arrival s.cfg).extent = wholeExtent →
      ∀ d' ∈ ((s.env.arrival s.cfg).after s.cfg line.isWindow r).devices,
        ∃ d ∈ s.env.devices, ∃ d₁, SameBut d d₁ ∧ d' ∈ d₁.take c line.isWindow r wholeExtent := by
    intro h0 d' hd
    simp only [Arrival.after, Option.mem_def, Option.bind_eq_some_iff] at hd
    obtain ⟨y, hy, hd⟩ := hd
    rw [h0, h.cfg] at hd
    obtain ⟨d, hd1, hs⟩ := hsame y hy
    exact ⟨d, hd1, y, hs, hd⟩
  -- a transaction that does not succeed
  have hrest : ∀ completion, (s.env.arrival s.cfg).completion s.cfg s.busLog line.isWindow r = completion →
      (∀ b, completion ≠ .ok b) → ∀ d' ∈ ((s.env.arrival s.cfg).after s.cfg line.isWindow r).devices,
        ∃ d ∈ s.env.devices, SameBut d d' := by
    intro completion hc hno d' hd
    simp only [Arrival.after, Option.mem_def, Option.bind_eq_some_iff] at hd
    obtain ⟨y, hy, hd⟩ := hd
    obtain ⟨d, hd1, hs⟩ := hsame y hy
    refine ⟨d, hd1, hs.trans ?_⟩
    have hown : ownCompletion s.cfg s.busLog line.isWindow r (some y) = completion → (s.env.arrival s.cfg).extent = wholeExtent →
        SameBut y d' := by
      intro hc hw
      rw [hw] at hd
      simp only [ownCompletion, Devices.completion] at hc
      unfold Devices.take at hd
      cases hcl : y.classify s.cfg line.isWindow r <;> rw [hcl] at hc hd <;> simp only [wholeExtent] at hc hd
      case undefinedEffect => simp at hd
      case nobody =>
        cases hd
        exact .refl _
      all_goals exact absurd hc.symm (hno _)
    have hzero : (s.env.arrival s.cfg).extent = 0 → SameBut y d' := fun h0 => take_zero (h0 ▸ hd)
    unfold Arrival.completion at hc
    rw [hy] at hc
    unfold Arrival.extent at hzero hown
    cases he : (s.env.arrival s.cfg).event with
    | reply b => rw [he] at hc; exact absurd hc.symm (hno _)
    | lost b => rw [he] at hc; exact absurd hc.symm (hno _)
    | fail k =>
      rw [he] at hev hzero
      exact hzero (by simpa [BusEvent.Faithful] using hev)
    | hang k =>
      rw [he] at hev hzero
      exact hzero (by simpa [BusEvent.Faithful] using hev)
    | reset k =>
      rw [he] at hev hzero
      exact hzero (by simpa [BusEvent.Faithful] using hev)
    | pins x => exact absurd he (hend.1 x)
    | external x => exact absurd he (hend.2 x)
    | answer =>
      rw [he] at hc hown
      exact hown hc rfl
  have hextent : ∀ b, (s.env.arrival s.cfg).completion s.cfg s.busLog line.isWindow r = .ok b →
      (s.env.arrival s.cfg).extent = wholeExtent := by
    intro b hc
    unfold Arrival.completion at hc
    unfold Arrival.extent
    cases he : (s.env.arrival s.cfg).event <;> rw [he] at hc hev <;> first | rfl | cases hc
    case lost => exact absurd hev (by simp [BusEvent.Faithful])
  have hfaith : Faithful c (s.transact line r tix w) := by
    rcases State.transact_cases line r tix w s with ⟨b, _, _, he⟩ | ⟨_, he⟩ | ⟨_, he⟩ | ⟨_, he⟩ <;> rw [he] <;>
      exact ⟨by simpa using h.cfg, h.owner, by simpa [Arrival.after] using hscr⟩
  refine ⟨hfaith, ?_⟩
  rcases State.transact_cases line r tix w s with ⟨b, hc, _, he⟩ | ⟨hc, he⟩ | ⟨hc, he⟩ | ⟨hc, he⟩ <;> rw [he]
  · exact .inl ⟨b, by simp, line.commit_mux s rfl, line.commit_page s rfl, by simpa using hwhole (hextent b hc)⟩
  · exact .inr (.inl ⟨.inl rfl, rfl, rfl, hrest _ hc (by simp)⟩)
  · exact .inr (.inl ⟨.inr rfl, rfl, rfl, hrest _ hc (by simp)⟩)
  · exact .inr (.inr ⟨rfl, rfl, rfl, hrest _ hc (by simp)⟩)

end Sys2Proof.Machine
end

