-- ==== Sys2Proof/Laws/PerInstr.lean ====
section
/-! SUPPORT. The frame of every command (spec/30_encoding.md rule R91, rule R95): it begins with the command's opcode byte,
and its length is the one its format requires. -/

namespace Sys2Proof

/-- The payload bytes of a frame: `p[0..n-1]` of the formats AP and BP (R91); every other format has none. -/
def Instr.payload : Instr → List Byte
  | .muxSel _ => []
  | .muxClose => []
  | .inval _ => []
  | .prsEnsure => []
  | .prsWrb _ _ => []
  | .prsRdb _ => []
  | .prsWrblk _ data => data
  | .prsRdblk _ _ => []
  | .prsWrbo _ _ _ => []
  | .prsRdbo _ _ => []
  | .prsWrblko _ _ data => data
  | .prsRdblko _ _ _ => []
  | .gpioCfgin _ _ => []
  | .gpioCfgout _ _ => []
  | .gpioRdmode _ => []
  | .sfpPoll _ => []

namespace Laws.FrameShape

def Statement (i : Instr) : Prop :=
  (encode i).head? = some i.opcode.toByte ∧ (encode i).length = i.opcode.headerLength + i.payload.length

theorem muxSel (chan : Byte) : Statement (.muxSel chan) := ⟨rfl, rfl⟩
theorem muxClose : Statement .muxClose := ⟨rfl, rfl⟩
theorem inval (mask : BitVec 2) : Statement (.inval mask) := ⟨rfl, rfl⟩
theorem prsEnsure : Statement .prsEnsure := ⟨rfl, rfl⟩
theorem prsWrb (addr : Addr) (val : Byte) : Statement (.prsWrb addr val) := ⟨rfl, rfl⟩
theorem prsRdb (addr : Addr) : Statement (.prsRdb addr) := ⟨rfl, rfl⟩
theorem prsWrblk (addr : Addr) (data : List Byte) : Statement (.prsWrblk addr data) :=
  ⟨rfl, by simp [encode, encodeOperands, Instr.opcode, Opcode.headerLength, Instr.payload, bytesLE]; omega⟩
theorem prsRdblk (addr : Addr) (cnt : Byte) : Statement (.prsRdblk addr cnt) := ⟨rfl, rfl⟩
theorem prsWrbo (base off : Addr) (val : Byte) : Statement (.prsWrbo base off val) := ⟨rfl, rfl⟩
theorem prsRdbo (base off : Addr) : Statement (.prsRdbo base off) := ⟨rfl, rfl⟩
theorem prsWrblko (base off : Addr) (data : List Byte) : Statement (.prsWrblko base off data) :=
  ⟨rfl, by simp [encode, encodeOperands, Instr.opcode, Opcode.headerLength, Instr.payload, bytesLE]; omega⟩
theorem prsRdblko (base off : Addr) (cnt : Byte) : Statement (.prsRdblko base off cnt) := ⟨rfl, rfl⟩
theorem gpioCfgin (pin : Byte) (value : Bool) : Statement (.gpioCfgin pin value) := ⟨rfl, rfl⟩
theorem gpioCfgout (pin : Byte) (value : Bool) : Statement (.gpioCfgout pin value) := ⟨rfl, rfl⟩
theorem gpioRdmode (pin : Byte) : Statement (.gpioRdmode pin) := ⟨rfl, rfl⟩
theorem sfpPoll (slot : Byte) : Statement (.sfpPoll slot) := ⟨rfl, rfl⟩

end Laws.FrameShape

end Sys2Proof
end

