-- ==== Sys2Proof/Laws/Runs.lean ====
section
/-! SUPPORT. Runs in which every transaction succeeds, and runs that end in a failed transaction: what the lines of each shared
procedure do when the environment replies to the transactions of its traffic, one lemma per procedure. -/

namespace Sys2Proof.Machine

@[simp] theorem repliesOf_append (x y : List Exchange) : repliesOf (x ++ y) = repliesOf x ++ repliesOf y := by
  simp [repliesOf]

@[simp] theorem repliesOf_cons (e : Exchange) (x : List Exchange) : repliesOf (e :: x) = .reply e.2 :: repliesOf x := rfl

@[simp] theorem repliesOf_nil : repliesOf [] = [] := rfl

@[simp] theorem recordsOf_append (x y : List Exchange) : recordsOf (x ++ y) = recordsOf x ++ recordsOf y := by
  simp [recordsOf]

@[simp] theorem recordsOf_nil : recordsOf [] = [] := rfl

@[simp] theorem recordsOf_cons (e : Exchange) (x : List Exchange) :
    recordsOf (e :: x) = ⟨e.1, .ok e.2⟩ :: recordsOf x := rfl

@[simp] theorem recordsOf_length (x : List Exchange) : (recordsOf x).length = x.length := by
  simp [recordsOf]

theorem Exact.append {x y : List Exchange} (h : Exact (x ++ y)) : Exact x ∧ Exact y :=
  ⟨fun e he => h e (by simp [he]), fun e he => h e (by simp [he])⟩

/-- The bytes that transactions answer, in order: what the latches keep of them. -/
def answersOf (x : List Exchange) : List Byte := x.flatMap (·.2)

@[simp] theorem answersOf_nil : answersOf [] = [] := rfl

@[simp] theorem answersOf_cons (e : Exchange) (x : List Exchange) : answersOf (e :: x) = e.2 ++ answersOf x := by
  simp [answersOf]

@[simp] theorem answersOf_append (x y : List Exchange) : answersOf (x ++ y) = answersOf x ++ answersOf y := by
  simp [answersOf]

@[simp] theorem answersOf_selectTraffic (c : Params) (mux : Option Byte) (chan : Byte) :
    answersOf (selectTraffic c mux chan) = [] := by
  unfold selectTraffic
  split <;> rfl

@[simp] theorem answersOf_windowTraffic (c : Params) (page : Option Byte) (addr : Addr) :
    answersOf (windowTraffic c page addr) = [] := by
  unfold windowTraffic
  split <;> rfl

@[simp] theorem answersOf_pagedTraffic (c : Params) (mux page : Option Byte) (addr : Addr) (e : Exchange) :
    answersOf (pagedTraffic c mux page addr e) = e.2 := by
  simp [pagedTraffic]

/-- Some lines have been executed from `s` to `t` with the transactions `x`, all successful. -/
structure Ran (s t : State) (x : List Exchange) (evs : List BusEvent) (mux page : Option Byte) : Prop where
  cfg : t.cfg = s.cfg
  cmdPort : t.cmdPort = s.cmdPort
  resetIn : t.resetIn = s.resetIn
  mux : t.mux = mux
  page : t.page = page
  respPort : t.respPort = s.respPort
  busLog : t.busLog = s.busLog ++ recordsOf x
  script : t.env.script = evs

theorem Ran.refl (s : State) : Ran s s [] s.env.script s.mux s.page := ⟨rfl, rfl, rfl, rfl, rfl, rfl, by simp, rfl⟩

theorem Ran.trans {s t u : State} {x y : List Exchange} {e₁ e₂ : List BusEvent} {m₁ p₁ m₂ p₂ : Option Byte}
    (h : Ran s t x e₁ m₁ p₁) (h' : Ran t u y e₂ m₂ p₂) : Ran s u (x ++ y) e₂ m₂ p₂ :=
  ⟨h'.cfg.trans h.cfg, h'.cmdPort.trans h.cmdPort, h'.resetIn.trans h.resetIn, h'.mux, h'.page,
    h'.respPort.trans h.respPort, by rw [h'.busLog, h.busLog]; simp, h'.script⟩

/-- From `s`, with `bytes` read before, the core executes `lines` in the transactions `x`, all successful, and goes on with
whatever lines come after them. -/
def Runs (s : State) (lines : List Line) (bytes : List Byte) (x : List Exchange) (evs : List BusEvent)
    (mux page : Option Byte) : Prop :=
  ∀ (k : BitVec 8) (more : List Line) (ending : Ending), s.seq = .busy k (some ⟨lines ++ more, bytes, ending⟩) →
    ∃ (n : Nat) (t : State), s.execLines n = t ∧ Ran s t x evs mux page ∧
      t.seq = .busy (k + BitVec.ofNat 8 x.length) (some ⟨more, bytes ++ answersOf x, ending⟩)

theorem runs_nil (s : State) (bytes : List Byte) : Runs s [] bytes [] s.env.script s.mux s.page :=
  fun k more ending h => ⟨0, s, rfl, .refl s, by simpa using h⟩

theorem runs_append {s : State} {l₁ l₂ : List Line} {bytes : List Byte} {x y : List Exchange} {e₁ e₂ : List BusEvent}
    {m₁ p₁ m₂ p₂ : Option Byte} (h : Runs s l₁ bytes x e₁ m₁ p₁)
    (h' : ∀ t, Ran s t x e₁ m₁ p₁ → Runs t l₂ (bytes ++ answersOf x) y e₂ m₂ p₂) :
    Runs s (l₁ ++ l₂) bytes (x ++ y) e₂ m₂ p₂ := by
  intro k more ending hs
  obtain ⟨n, t, hn, hst, ht⟩ := h k (l₂ ++ more) ending (by simpa using hs)
  obtain ⟨m, u, hm, htu, hu⟩ := h' t hst _ more ending ht
  refine ⟨n + m, u, by rw [State.execLines_add, hn, hm], hst.trans htu, ?_⟩
  rw [hu]
  simp [BitVec.ofNat_add, BitVec.add_assoc]

/-- A line whose transaction succeeds. -/
theorem runs_transact {s : State} {line : Line} {bytes answer : List Byte} {r : BusRequest} {evs : List BusEvent}
    (hr : line.request s.cfg s.mux s.page bytes = some r) (hscript : s.env.script = .reply answer :: evs)
    (hlen : answer.length = readLength r) :
    Runs s [line] bytes [(r, answer)] evs (line.commit s).mux (line.commit s).page := by
  intro k more ending hs
  refine ⟨1, _, (State.execLine_transact hs rfl hr).trans (State.transact_reply hscript hlen), ?_, by simp⟩
  exact ⟨by simp, by simp, by simp, line.commit_mux s rfl, line.commit_page s rfl, by simp, by simp, by simp⟩

/-- A line that issues nothing. -/
theorem runs_pass {s : State} {line : Line} {bytes : List Byte} (hr : line.request s.cfg s.mux s.page bytes = none) :
    Runs s [line] bytes [] s.env.script (line.pass s).mux (line.pass s).page := by
  intro k more ending hs
  refine ⟨1, _, State.execLine_pass hs rfl hr, ?_, by simp⟩
  exact ⟨by simp, by simp, by simp, rfl, rfl, by simp, by simp, by simp⟩

/-- R130: a select, whichever line makes it. -/
theorem runs_select {s : State} {line : Line} {chan : Byte} {bytes : List Byte} {evs : List BusEvent}
    (hl : line = .muxSelect chan ∨ line = .selectSlot chan ∨ (line = .closeMux ∧ chan = noChannel))
    (hscript : s.env.script = repliesOf (selectTraffic s.cfg s.mux chan) ++ evs) :
    Runs s [line] bytes (selectTraffic s.cfg s.mux chan) evs (some chan) (if s.mux = some chan then s.page else none) := by
  have hreq : line.request s.cfg s.mux s.page bytes = selectRequest s.cfg s.mux chan := by
    rcases hl with rfl | rfl | ⟨rfl, rfl⟩ <;> rfl
  by_cases h : s.mux = some chan
  · have hp := runs_pass (s := s) (line := line) (bytes := bytes) (by rw [hreq]; simp [selectRequest, h])
    have hpass : line.pass s = s := by rcases hl with rfl | rfl | ⟨rfl, rfl⟩ <;> rfl
    rw [hpass] at hp
    simp only [selectTraffic, h, if_true, repliesOf_nil, List.nil_append] at hscript ⊢
    rw [hscript, h] at hp
    exact hp
  · simp only [selectTraffic, h, if_false, repliesOf_cons, repliesOf_nil, List.cons_append, List.nil_append] at hscript ⊢
    have ht := runs_transact (s := s) (line := line) (bytes := bytes) (r := .wb s.cfg.muxAddr s.cfg.muxReg chan)
      (by rw [hreq]; simp [selectRequest, h]) hscript rfl
    rcases hl with rfl | rfl | ⟨rfl, rfl⟩ <;> exact ht

/-- R151: `PageSelect`. -/
theorem runs_pageSelect {s : State} {addr : Addr} {bytes : List Byte} {evs : List BusEvent}
    (hscript : s.env.script = repliesOf (windowTraffic s.cfg s.page addr) ++ evs) :
    Runs s [.pageSelect addr] bytes (windowTraffic s.cfg s.page addr) evs s.mux (some (upperOf addr)) := by
  by_cases h : s.page = some (upperOf addr)
  · have hp := runs_pass (s := s) (line := .pageSelect addr) (bytes := bytes) (by simp [Line.request, windowRequest, h])
    simp only [windowTraffic, h, if_true, repliesOf_nil, List.nil_append] at hscript ⊢
    rw [hscript] at hp
    rw [← h]
    exact hp
  · simp only [windowTraffic, h, if_false, repliesOf_cons, repliesOf_nil, List.cons_append, List.nil_append] at hscript ⊢
    exact runs_transact (s := s) (line := .pageSelect addr) (bytes := bytes)
      (r := .wk s.cfg.dpllAddr s.cfg.pageReg (windowBytes (upperOf addr) (lowerOf addr)))
      (by simp [Line.request, windowRequest, h]) hscript rfl

/-- R153: the two selects of a paged access. -/
theorem runs_ensure {s : State} {addr : Addr} {bytes : List Byte} {evs : List BusEvent}
    (hscript : s.env.script = repliesOf (selectTraffic s.cfg s.mux s.cfg.dpllChannel ++
      windowTraffic s.cfg (pageAfterEnsure s.cfg s.mux s.page) addr) ++ evs) :
    Runs s [ensureChannel s.cfg, .pageSelect addr] bytes (selectTraffic s.cfg s.mux s.cfg.dpllChannel ++
      windowTraffic s.cfg (pageAfterEnsure s.cfg s.mux s.page) addr) evs (some s.cfg.dpllChannel)
      (some (upperOf addr)) := by
  simp only [repliesOf_append, List.append_assoc] at hscript
  refine runs_append (l₁ := [ensureChannel s.cfg]) (runs_select (.inl rfl) hscript) fun t ht => ?_
  have h := runs_pageSelect (s := t) (addr := addr) (bytes := bytes) (evs := evs) (by rw [ht.script, ht.cfg, ht.page]; rfl)
  rw [ht.cfg, ht.mux, ht.page] at h
  simpa [pageAfterEnsure] using h

/-- R153: a paged access whose data transaction is `e`. -/
theorem runs_paged {s : State} {addr : Addr} {data : Line} {bytes : List Byte} {e : Exchange} {evs : List BusEvent}
    (hscript : s.env.script = repliesOf (pagedTraffic s.cfg s.mux s.page addr e) ++ evs)
    (hd : ∀ mux page, data.request s.cfg mux page bytes = some e.1) (hc : ∀ t, data.commit t = t)
    (hlen : e.2.length = readLength e.1) :
    Runs s (pagedLines s.cfg addr data) bytes (pagedTraffic s.cfg s.mux s.page addr e) evs (some s.cfg.dpllChannel)
      (some (upperOf addr)) := by
  unfold pagedTraffic at hscript ⊢
  rw [repliesOf_append, List.append_assoc] at hscript
  refine runs_append (l₁ := [ensureChannel s.cfg, .pageSelect addr]) (runs_ensure hscript) fun t ht => ?_
  have h := runs_transact (s := t) (line := data) (bytes := bytes) (answer := e.2) (r := e.1) (evs := evs)
    (by rw [ht.cfg]; exact hd _ _) (by rw [ht.script]; rfl) hlen
  rw [hc, ht.mux, ht.page] at h
  simpa using h

/-- A paged access behind another one, at the window the other left. -/
theorem runs_paged_again {s : State} {addr : Addr} {data : Line} {bytes : List Byte} {e : Exchange} {upper : Byte}
    {evs : List BusEvent} (hm : s.mux = some s.cfg.dpllChannel) (hp : s.page = some upper)
    (hscript : s.env.script = repliesOf (windowTraffic s.cfg (some upper) addr ++ [e]) ++ evs)
    (hd : ∀ mux page, data.request s.cfg mux page bytes = some e.1) (hc : ∀ t, data.commit t = t)
    (hlen : e.2.length = readLength e.1) :
    Runs s (pagedLines s.cfg addr data) bytes (windowTraffic s.cfg (some upper) addr ++ [e]) evs (some s.cfg.dpllChannel)
      (some (upperOf addr)) := by
  have h : pagedTraffic s.cfg s.mux s.page addr e = windowTraffic s.cfg (some upper) addr ++ [e] := by
    simp [pagedTraffic, selectTraffic, pageAfterEnsure, hm, hp]
  rw [← h] at hscript ⊢
  exact runs_paged hscript hd hc hlen

/-- R97: the end of a command whose transactions have all succeeded. -/
theorem completed_of_runs {s : State} {lines : List Line} {reply : Reply} {x : List Exchange} {evs : List BusEvent}
    {mux page : Option Byte} (hw : s.cfg.WellFormed)
    (h : Runs (s.accept (.answering reply lines)) lines [] x evs mux page) :
    ∃ t, runCommand (.answering reply lines) s = .next t ∧
      Completed s t x evs mux page (reply.payload s.cfg (answersOf x)) := by
  obtain ⟨n, t, hn, hst, ht⟩ := h 0 [] (.respond reply) (by simp [Work.answering])
  have he := State.execLine_end ht rfl
  refine ⟨t.execLine, runCommand_eq (n := n + 1) hw ?_ ?_, ?_⟩
  · rw [State.execLines_add, hn]
    rfl
  · rw [he, State.linesLeft_idle (by simp)]
  · rw [he]
    exact ⟨by simpa using hst.cfg, by simpa using hst.cmdPort, by simpa using hst.resetIn, by simpa using hst.mux,
      by simpa using hst.page, by simp, by simp [State.endCommand, hst.respPort, hst.cfg, Status.code],
      by simpa using hst.busLog, by simpa using hst.script⟩

/-- R231, R238: the end of a command one of whose transactions fails, where the failure is not tolerated. -/
theorem failed_of_runs {s : State} {before after : List Line} {line : Line} {reply : Reply} {x : List Exchange}
    {r : BusRequest} {taken : Nat} {evs : List BusEvent} {mux page : Option Byte} (hw : s.cfg.WellFormed)
    (h : Runs (s.accept (.answering reply (before ++ line :: after))) before [] x (.fail taken :: evs) mux page)
    (hr : line.request s.cfg mux page (answersOf x) = some r)
    (hf : ∀ w tix, line.failed w tix = w.raise (.busError tix)) :
    ∃ t, runCommand (.answering reply (before ++ line :: after)) s = .next t ∧ Failed s t x r evs mux page := by
  obtain ⟨n, t, hn, hst, ht⟩ := h 0 (line :: after) (.respond reply) (by simp [Work.answering])
  have hr' : line.request t.cfg t.mux t.page ([] ++ answersOf x) = some r := by
    rw [hst.cfg, hst.mux, hst.page]
    exact hr
  have h1 := (State.execLine_transact ht rfl hr').trans (State.transact_fail hst.script)
  rw [hf] at h1
  have h2 := State.execLine_end (s := t.execLine) (by rw [h1]; rfl) rfl
  refine ⟨t.execLine.execLine, runCommand_eq (n := n + 2) hw ?_ ?_, ?_⟩
  · rw [State.execLines_add, hn]
    rfl
  · rw [h2, State.linesLeft_idle (by simp)]
  · rw [h2, h1]
    exact ⟨by simpa using hst.cfg, by simpa using hst.cmdPort, by simpa using hst.resetIn, by simpa using hst.mux,
      by simpa using hst.page, by simp,
      by simp [State.endCommand, Work.raise, State.raiseError, hst.respPort, Status.code],
      by simp [hst.busLog], by simp⟩

end Sys2Proof.Machine
end

