-- ==== Sys2Proof/Laws/Steps.lean ====
section
/-! SUPPORT. Everything one step can do: the inversion lemmas of `step`, and what the core does without a transaction. -/

namespace Sys2Proof.Machine

theorem step_next {s : State} (hw : s.cfg.WellFormed) : step s = .next s.blockStep := if_pos hw

/-- R6: a step has a next state under well-formed parameters only. -/
theorem step_eq_next {s t : State} (h : step s = .next t) : s.cfg.WellFormed ∧ t = s.blockStep := by
  unfold step stepBlock at h
  split at h
  · rename_i hw
    cases h
    exact ⟨hw, rfl⟩
  · cases h

/-- R260: the reset input comes first; without it the block goes on. -/
theorem State.blockStep_cases (s : State) :
    (s.resetIn.head? = some true ∧ s.blockStep = ({ s with resetIn := s.resetIn.tail } : State).coreReset) ∨
    (s.resetIn.head? ≠ some true ∧ s.blockStep = ({ s with resetIn := s.resetIn.tail } : State).advance) := by
  obtain ⟨cfg, mux, page, seq, cmd, r, resp, log, env⟩ := s
  match r with
  | [] => exact .inr ⟨by simp, rfl⟩
  | false :: rest => exact .inr ⟨by simp, rfl⟩
  | true :: rest => exact .inl ⟨rfl, rfl⟩

/-- R23: an idle core with nothing offered stays as it is; else it accepts a frame; a busy core makes its own step. -/
theorem State.advance_cases (s : State) :
    (s.seq = .idle ∧ s.cmdPort = [] ∧ s.advance = s) ∨
    (∃ frame later, s.seq = .idle ∧ s.cmdPort = frame :: later ∧
      s.advance = ({ s with cmdPort := later } : State).accept (frameWork s.cfg frame)) ∨
    (∃ tix work, s.seq = .busy tix work ∧ s.advance = s.coreStep) := by
  cases hs : s.seq with
  | idle =>
    cases hc : s.cmdPort with
    | nil => exact .inl ⟨rfl, rfl, by simp [State.advance, hs, State.takeFrame, hc]⟩
    | cons frame later => exact .inr (.inl ⟨frame, later, rfl, rfl, by simp [State.advance, hs, State.takeFrame, hc]⟩)
  | busy tix work => exact .inr (.inr ⟨tix, work, rfl, by simp [State.advance, hs]⟩)

/-- What a step keeps: what the reset input, the acceptance of a frame and every line keep, and what does not speak of the coming
samples of the reset input or of the frames offered. -/
theorem step_induct {P : State → Prop} {s t : State} (h : step s = .next t) (h0 : P s)
    (hreset : ∀ u l, P u → P { u with resetIn := l }) (hcore : ∀ u, P u → P u.coreReset)
    (haccept : ∀ u l frame, u.seq = .idle → P u → P (({ u with cmdPort := l } : State).accept (frameWork u.cfg frame)))
    (hline : ∀ u, P u → P u.execLine) : P t := by
  obtain ⟨_, rfl⟩ := step_eq_next h
  have h1 := hreset s s.resetIn.tail h0
  rcases s.blockStep_cases with ⟨_, he⟩ | ⟨_, he⟩ <;> rw [he]
  · exact hcore _ h1
  · rcases State.advance_cases { s with resetIn := s.resetIn.tail } with
      ⟨_, _, he⟩ | ⟨frame, later, hs, _, he⟩ | ⟨tix, work, _, he⟩ <;> rw [he]
    · exact h1
    · exact haccept _ later frame hs h1
    · exact State.coreStep_induct hline h1

/-! ### Without a transaction -/

/-- A core whose next line issues nothing executes it with no transaction: it is at rest, or ends the command, or passes the
line. -/
theorem State.execLine_quiet {s : State} (h : s.issuesNext = false) :
    s.execLine.busLog = s.busLog ∧ s.execLine.env = s.env ∧ s.execLine.cfg = s.cfg ∧ s.execLine.cmdPort = s.cmdPort ∧
      s.execLine.resetIn = s.resetIn := by
  rcases s.execLine_cases with ⟨_, he⟩ | ⟨tix, w, hs, ⟨ht, he⟩ | ⟨line, rest, ht, ⟨_, he⟩ | ⟨r, hr, he⟩⟩⟩
  · rw [he]
    simp
  · rw [he]
    simp
  · rw [he]
    simp
  · simp [State.issuesNext, hs, ht, hr] at h

/-- Settling issues no transaction. -/
theorem State.settle_quiet (s : State) : s.settle.busLog = s.busLog ∧ s.settle.env = s.env ∧ s.settle.cfg = s.cfg ∧
    s.settle.cmdPort = s.cmdPort ∧ s.settle.resetIn = s.resetIn := by
  refine State.settleFor_induct (P := fun t => t.busLog = s.busLog ∧ t.env = s.env ∧ t.cfg = s.cfg ∧
    t.cmdPort = s.cmdPort ∧ t.resetIn = s.resetIn) (fun t ht h => ?_) _ ⟨rfl, rfl, rfl, rfl, rfl⟩
  obtain ⟨h1, h2, h3, h4, h5⟩ := State.execLine_quiet ht
  exact ⟨h1.trans h.1, h2.trans h.2.1, h3.trans h.2.2.1, h4.trans h.2.2.2.1, h5.trans h.2.2.2.2⟩

/-- A core that settles in front of a transaction has not responded on the way. -/
theorem State.settle_respPort {s : State} (h : s.settle.issuesNext = true) : s.settle.respPort = s.respPort := by
  have key : s.settle.respPort = s.respPort ∨ s.settle.issuesNext = false ∧ s.settle.linesLeft = 0 := by
    refine State.settleFor_induct (P := fun t => t.respPort = s.respPort ∨ t.issuesNext = false ∧ t.linesLeft = 0)
      (fun u hi hu => ?_) _ (.inl rfl)
    rcases hu with hu | ⟨_, hu⟩
    · rcases u.execLine_cases with ⟨_, he⟩ | ⟨tix, w, hs, ⟨_, he⟩ | ⟨line, rest, ht, ⟨_, he⟩ | ⟨r, hr, _⟩⟩⟩
      · rw [he]; exact .inl hu
      · rw [he]; exact .inr ⟨by simp [State.issuesNext], State.linesLeft_idle (by simp)⟩
      · rw [he]; exact .inl (by simpa using hu)
      · simp [State.issuesNext, hs, ht, hr] at hi
    · rw [State.execLine_rest hu]; exact .inr ⟨hi, hu⟩
  rcases key with hr | ⟨hi, _⟩
  · exact hr
  · rw [hi] at h; cases h

/-- A settled core is at rest or about to issue a transaction. -/
theorem State.settle_issues (s : State) : s.settle.linesLeft = 0 ∨ s.settle.issuesNext = true := by
  have key : ∀ n (t : State), t.linesLeft ≤ n → (State.settleFor n t).linesLeft = 0 ∨ (State.settleFor n t).issuesNext = true := by
    intro n
    induction n with
    | zero => exact fun t h => .inl (Nat.le_zero.1 h)
    | succ n ih =>
      intro t h
      unfold State.settleFor
      split
      · exact .inr ‹_›
      · refine ih _ ?_
        by_cases h0 : t.linesLeft = 0
        · rw [State.execLine_rest h0, h0]
          omega
        · have := State.execLine_linesLeft (s := t) (by omega)
          omega
  exact key _ s le_rfl

end Sys2Proof.Machine
end

