-- ==== Sys2Proof/Tests/Slice0.lean ====
section
/-! SUPPORT. Tests whose expected results come from the spec's worked examples and vectors (spec/95_test_vectors.md, named by
their ids; spec/30_encoding.md section 4), the refusals of the well-formedness check, and for each statement with hypotheses a
witness that meets all of them. -/

namespace Sys2Proof.Tests
open Sys2Proof Sys2Proof.Machine

/-! ### Helpers -/

/-- An idle core under T0 with the given caches and script; nothing is known of the devices. -/
def at_ (mux page : Option Byte) (script : List BusEvent) : State :=
  { State.reset with mux := mux, page := page, env := { script := script, devices := none } }

/-- Reference devices with the four cages empty. -/
def devs (muxSel winUpper : Byte) (mem : Memory) : Devices :=
  { muxSel := muxSel, winUpper := winUpper, dpllMem := mem, cages := Vector.replicate 4 ⟨none, none⟩, ext := 0 }

/-- An idle core under T0 with the given caches in front of reference devices. -/
def on (mux page : Option Byte) (d : Devices) (script : List BusEvent) : State :=
  { State.reset with mux := mux, page := page, env := { script := script, devices := some d } }

/-- What can be seen after a step: the caches, the responses and the trace. -/
structure Seen where
  mux : Option Byte
  page : Option Byte
  resp : List (List Byte)
  log : List BusRecord
deriving DecidableEq, Repr

/-- The next state of an outcome, if it is one. -/
def nextOf : Host.Outcome State Fault Refusal → Option State
  | .next t => some t
  | .fault _ => none
  | .refused _ => none

/-- Steps, at most `n`, until the core is idle or hung. -/
def steps : Nat → State → Option State
  | 0, s => some s
  | n + 1, s => (nextOf (step s)).bind fun t => if t.linesLeft = 0 then some t else steps n t

/-- The step that accepts a frame, and the core's own steps that execute it. -/
def serve (frame : List Byte) (s : State) : Option Seen :=
  (steps 11 { s with cmdPort := [frame] }).map fun t => ⟨t.mux, t.page, t.respPort, t.busLog⟩

/-- A successful transaction with its answer. -/
def ok (r : BusRequest) (bytes : List Byte) : BusRecord := ⟨r, .ok bytes⟩

/-- A failed transaction. -/
def failed (r : BusRequest) : BusRecord := ⟨r, .fail⟩

/-- An outcome that is a next state with a decidable property. -/
theorem next_with {o : Host.Outcome State Fault Refusal} {p : State → Prop} [DecidablePred p]
    (h : (match nextOf o with
      | none => false
      | some t => decide (p t)) = true) : ∃ t, o = .next t ∧ p t := by
  cases o with
  | next t => exact ⟨t, rfl, by simpa [nextOf] using h⟩
  | fault f => simp [nextOf] at h
  | refused r => simp [nextOf] at h

/-! ### Well-formed commands -/

theorem test_wf_refuses_256_bytes : (Instr.prsWrblk 0xC000 (List.replicate 256 0)).wf true = false := by decide +kernel

theorem test_wf_refuses_256_bytes_at_offset : (Instr.prsWrblko 0xC000 0 (List.replicate 256 0)).wf true = false := by
  decide +kernel

theorem test_wf_refuses_poll_without_cages : (Instr.sfpPoll 3).wf false = false := by decide

/-- R6: a parameter set with the DPLL on the "no channel" value is refused. -/
theorem test_illFormed_parameters_are_refused :
    step { State.reset with cfg := { Params.t0 with dpllChannel := 0x00 }, cmdPort := [[0x02]] } =
      .refused .illFormedParameters := by rfl

/-! ### Decoding: frames written out in spec/30_encoding.md section 4 -/

theorem test_decode_muxSel : decodeFrame true [0x01, 0x20] = .ok (.muxSel 0x20) := by rfl
theorem test_decode_muxClose : decodeFrame true [0x02] = .ok .muxClose := by rfl
theorem test_decode_inval : decodeFrame true [0x03, 0x03] = .ok (.inval 3) := by rfl
theorem test_decode_prsEnsure : decodeFrame true [0x10] = .ok .prsEnsure := by rfl
theorem test_decode_prsWrb : decodeFrame true [0x11, 0x24, 0xC0, 0x5A] = .ok (.prsWrb 0xC024 0x5A) := by rfl
theorem test_decode_prsRdb : decodeFrame true [0x12, 0x24, 0xC0] = .ok (.prsRdb 0xC024) := by rfl
theorem test_decode_prsWrblk :
    decodeFrame true [0x13, 0xF0, 0xC0, 0x03, 0x01, 0x02, 0x03] = .ok (.prsWrblk 0xC0F0 [1, 2, 3]) := by rfl
theorem test_decode_prsRdblk : decodeFrame true [0x14, 0x62, 0xC1, 0x02] = .ok (.prsRdblk 0xC162 2) := by rfl
theorem test_decode_prsWrbo :
    decodeFrame true [0x19, 0x00, 0xC0, 0x24, 0x00, 0x5A] = .ok (.prsWrbo 0xC000 0x24 0x5A) := by rfl
theorem test_decode_prsRdbo : decodeFrame true [0x1A, 0xC0, 0xC8, 0x10, 0x00] = .ok (.prsRdbo 0xC8C0 0x10) := by rfl
theorem test_decode_prsWrblko :
    decodeFrame true [0x1B, 0x00, 0xC0, 0xF0, 0x00, 0x03, 0x01, 0x02, 0x03] = .ok (.prsWrblko 0xC000 0xF0 [1, 2, 3]) := by
  rfl
theorem test_decode_prsRdblko :
    decodeFrame true [0x1C, 0x00, 0xC1, 0x62, 0x00, 0x02] = .ok (.prsRdblko 0xC100 0x62 2) := by rfl
theorem test_decode_gpioCfgin :
    decodeFrame true [0x20, 0x05, 0x00] = .ok (.gpioCfgin 5 false) ∧
    decodeFrame true [0x20, 0x05, 0x01] = .ok (.gpioCfgin 5 true) := ⟨rfl, rfl⟩
theorem test_decode_gpioCfgout : decodeFrame true [0x20, 0x0B, 0x03] = .ok (.gpioCfgout 11 true) := by rfl
theorem test_decode_gpioRdmode : decodeFrame true [0x22, 0x0B] = .ok (.gpioRdmode 11) := by rfl
theorem test_decode_sfpPoll : decodeFrame true [0x30, 0x03] = .ok (.sfpPoll 3) := by rfl

/-- E1 to E7, F16. -/
theorem test_decode_reserved_opcodes :
    ([0x00, 0x04, 0x15, 0x18, 0x21, 0x23, 0xFF].all fun op => opcodeOf true op == none) = true ∧
    decodeFrame false [0x30, 0x03] = .error .reservedOpcode := ⟨by decide, rfl⟩

/-- E9, E10, E11, E13, E14, E15, E16. -/
theorem test_decode_wrong_lengths :
    decodeFrame true [0x01, 0x20, 0x00] = .error .wrongLength ∧ decodeFrame true [0x02, 0x00] = .error .wrongLength ∧
    decodeFrame true [0x11, 0x24, 0xC0] = .error .wrongLength ∧
    decodeFrame true [0x13, 0xF0, 0xC0, 0x03, 0x01, 0x02] = .error .wrongLength ∧
    decodeFrame true [0x13, 0xF0, 0xC0, 0x02, 0x01, 0x02, 0x03] = .error .wrongLength ∧
    decodeFrame true [0x13, 0xF0, 0xC0] = .error .wrongLength ∧
    decodeFrame true [0x1B, 0x00, 0xC0, 0xF0, 0x00] = .error .wrongLength := ⟨rfl, rfl, rfl, rfl, rfl, rfl, rfl⟩

/-- E17, E18, E19, E20, E21. -/
theorem test_decode_reserved_bits :
    decodeFrame true [0x03, 0x04] = .error .reservedBits ∧ decodeFrame true [0x03, 0xFF] = .error .reservedBits ∧
    decodeFrame true [0x20, 0x05, 0x04] = .error .reservedBits ∧
    decodeFrame true [0x20, 0x05, 0x80] = .error .reservedBits ∧
    decodeFrame true [0x20, 0x10, 0x04] = .error .reservedBits := ⟨rfl, rfl, rfl, rfl, rfl⟩

/-- E23 and E24: the length comes before the count. -/
theorem test_length_comes_before_count :
    serve ([0x13, 0x00, 0xC0, 0x21] ++ List.replicate 32 0) (at_ (some 0x08) (some 0xC0) []) =
      some ⟨some 0x08, some 0xC0, [[0x03, 0x00]], []⟩ ∧
    serve ([0x13, 0x00, 0xC0, 0x21] ++ List.replicate 33 0) (at_ (some 0x08) (some 0xC0) []) =
      some ⟨some 0x08, some 0xC0, [[0x02, 0x00]], []⟩ := by decide

/-- The table's numbers, byte 0 most significant; a header given no operand bytes goes on with zeros. -/
theorem test_table_words :
    decodeTableWord 32 0x1124C05A = some (.prsWrb 0xC024 0x5A) ∧ decodeTableWord 16 0x0120 = some (.muxSel 0x20) ∧
    decodeTableWord 24 0x200B03 = some (.gpioCfgout 11 true) ∧ decodeTableWord 8 0x19 = some (.prsWrbo 0 0 0) ∧
    decodeTableWord 8 0xFF = none := by decide

/-! ### The assembler -/

/-- R100: every text form of section 4 that the statements do not name. -/
theorem test_assemble :
    assemble "PRS.WRBO 0xC000+0x24, 0x5A" = some [0x19, 0x00, 0xC0, 0x24, 0x00, 0x5A] ∧
    assemble "PRS.WRBLKO 0xC000+0xF0, [1, 2, 3]" = some [0x1B, 0x00, 0xC0, 0xF0, 0x00, 0x03, 0x01, 0x02, 0x03] ∧
    assemble "GPIO.CFGIN 5, 1" = some [0x20, 0x05, 0x01] ∧ assemble "SFP.POLL 3" = some [0x30, 0x03] ∧
    assemble "MUX.SEL 256" = none ∧ assemble "GPIO.CFGIN 5, 2" = none ∧ assemble "GPIO.CFG 5, IN" = none ∧
    assemble "GPIO.CFG 5, IN, 1" = some [0x20, 0x05, 0x01] := by decide

/-! ### The multiplexer -/

/-- M7: a committed change clears the page cache. -/
theorem test_muxSel_M7 :
    serve [0x01, 0x40] (at_ (some 0x08) (some 0xC1) [.reply []]) =
      some ⟨some 0x40, none, [[0x00, 0x01]], [ok (.wb 0x70 0x00 0x40) []]⟩ := by decide

/-- M9: a failed write changes nothing. -/
theorem test_muxSel_M9 :
    serve [0x01, 0x20] (at_ (some 0x08) (some 0xC1) [.fail 0]) =
      some ⟨some 0x08, some 0xC1, [[0x01, 0x00]], [failed (.wb 0x70 0x00 0x20)]⟩ := by decide

/-- M4: closing twice writes once. -/
theorem test_muxClose_M4 :
    serve [0x02] (at_ (some 0x00) none []) = some ⟨some 0x00, none, [[0x00, 0x00]], []⟩ := by decide

/-- M5, R4: from reset the close writes. -/
theorem test_muxClose_M5 :
    serve [0x02] (at_ none none [.reply []]) = some ⟨some 0x00, none, [[0x00, 0x01]], [ok (.wb 0x70 0x00 0x00) []]⟩ := by
  decide

/-- M12. -/
theorem test_inval_M12 :
    serve [0x03, 0x01] (at_ (some 0x08) (some 0xC1) []) = some ⟨some 0x08, none, [[0x00, 0x00]], []⟩ := by decide

/-- M13: the page cache is left alone. -/
theorem test_inval_M13 :
    serve [0x03, 0x02] (at_ (some 0x08) (some 0xC1) []) = some ⟨none, some 0xC1, [[0x00, 0x00]], []⟩ := by decide

/-! ### Paged accesses -/

/-- M14: the forced mux write clears a page cache that `INVAL MUX` left. -/
theorem test_prsEnsure_M14 :
    serve [0x10] (at_ none (some 0xC1) [.reply []]) =
      some ⟨some 0x08, none, [[0x00, 0x01]], [ok (.wb 0x70 0x00 0x08) []]⟩ := by decide

/-- M18. -/
theorem test_prsEnsure_M18 :
    serve [0x10] (at_ (some 0x08) (some 0xC1) []) = some ⟨some 0x08, some 0xC1, [[0x00, 0x00]], []⟩ := by decide

/-- S1a. -/
theorem test_prsWrb_S1a :
    serve [0x11, 0x24, 0xC0, 0x5A] (at_ none none [.reply [], .reply [], .reply []]) =
      some ⟨some 0x08, some 0xC0, [[0x00, 0x03]],
        [ok (.wb 0x70 0x00 0x08) [], ok (.wk 0x58 0xFC [0x24, 0xC0, 0x10, 0x20]) [], ok (.wb 0x58 0x24 0x5A) []]⟩ := by
  decide

/-- S6b: the window write fails, the mux cache stays committed. -/
theorem test_prsWrb_S6b :
    serve [0x11, 0x24, 0xC0, 0x5A] (at_ none none [.reply [], .fail 0]) =
      some ⟨some 0x08, none, [[0x01, 0x01]],
        [ok (.wb 0x70 0x00 0x08) [], failed (.wk 0x58 0xFC [0x24, 0xC0, 0x10, 0x20])]⟩ := by decide

/-- S1e: upper byte `0x00` is an ordinary page. -/
theorem test_prsRdb_S1e :
    serve [0x12, 0x00, 0x00] (on (some 0x08) (some 0xC1) (devs 0x08 0xC1 []) []) =
      some ⟨some 0x08, some 0x00, [[0x00, 0x02, 0x00]],
        [ok (.wk 0x58 0xFC [0x00, 0x00, 0x10, 0x20]) [], ok (.rb 0x58 0x00) [0x00]]⟩ := by decide +kernel

/-- S6d: a failed window write leaves the page cache as it was. -/
theorem test_prsRdb_S6d :
    serve [0x12, 0x24, 0xC1] (at_ (some 0x08) (some 0xC0) [.fail 0]) =
      some ⟨some 0x08, some 0xC0, [[0x01, 0x00]], [failed (.wk 0x58 0xFC [0x24, 0xC1, 0x10, 0x20])]⟩ := by decide

/-- S3a. -/
theorem test_prsWrblk_S3a :
    serve [0x13, 0xF0, 0xC0, 0x03, 0x01, 0x02, 0x03] (at_ (some 0x08) (some 0xC0) [.reply []]) =
      some ⟨some 0x08, some 0xC0, [[0x00, 0x01]], [ok (.wk 0x58 0xF0 [1, 2, 3]) []]⟩ := by decide

/-- S5d: no bytes. -/
theorem test_prsWrblk_S5d :
    serve [0x13, 0x00, 0xC0, 0x00] (at_ (some 0x08) (some 0xC0) []) =
      some ⟨some 0x08, some 0xC0, [[0x02, 0x00]], []⟩ := by decide

/-- S3b: lowest address first. -/
theorem test_prsRdblk_S3b :
    serve [0x14, 0xF0, 0xC0, 0x03]
        (on (some 0x08) (some 0xC0) (devs 0x08 0xC0 [(0xC0F0, 1), (0xC0F1, 2), (0xC0F2, 3)]) []) =
      some ⟨some 0x08, some 0xC0, [[0x00, 0x01, 0x01, 0x02, 0x03]], [ok (.rk 0x58 0xF0 3) [1, 2, 3]]⟩ := by decide +kernel

/-- S5f: 33 bytes. -/
theorem test_prsRdblk_S5f :
    serve [0x14, 0x00, 0xC0, 0x21] (at_ (some 0x08) (some 0xC0) []) =
      some ⟨some 0x08, some 0xC0, [[0x02, 0x00]], []⟩ := by decide

/-- S4a. -/
theorem test_prsWrbo_S4a :
    serve [0x19, 0x00, 0xC0, 0x24, 0x00, 0x5A] (at_ none none [.reply [], .reply [], .reply []]) =
      some ⟨some 0x08, some 0xC0, [[0x00, 0x03]],
        [ok (.wb 0x70 0x00 0x08) [], ok (.wk 0x58 0xFC [0x24, 0xC0, 0x10, 0x20]) [], ok (.wb 0x58 0x24 0x5A) []]⟩ := by
  decide

/-- S5a: the sum `0x10000`. -/
theorem test_prsWrbo_S5a :
    serve [0x19, 0xFF, 0xFF, 0x01, 0x00, 0x00] (at_ (some 0x08) (some 0xC0) []) =
      some ⟨some 0x08, some 0xC0, [[0x02, 0x00]], []⟩ := by decide

/-- S4c: only the sum matters. -/
theorem test_prsRdbo_S4c :
    serve [0x1A, 0x24, 0x00, 0x00, 0xC1] (at_ (some 0x08) (some 0xC0) [.reply [], .reply [0x00]]) =
      some ⟨some 0x08, some 0xC1, [[0x00, 0x02, 0x00]],
        [ok (.wk 0x58 0xFC [0x24, 0xC1, 0x10, 0x20]) [], ok (.rb 0x58 0x24) [0x00]]⟩ := by decide

/-- S5c: no wrap. -/
theorem test_prsRdbo_S5c :
    serve [0x1A, 0xFF, 0xFF, 0xFF, 0xFF] (at_ (some 0x08) (some 0xC0) []) =
      some ⟨some 0x08, some 0xC0, [[0x02, 0x00]], []⟩ := by decide

/-- S4d. -/
theorem test_prsWrblko_S4d :
    serve [0x1B, 0x00, 0xC0, 0xF0, 0x00, 0x03, 0x01, 0x02, 0x03]
        (at_ (some 0x08) (some 0xC1) [.reply [], .reply []]) =
      some ⟨some 0x08, some 0xC0, [[0x00, 0x02]],
        [ok (.wk 0x58 0xFC [0xF0, 0xC0, 0x10, 0x20]) [], ok (.wk 0x58 0xF0 [1, 2, 3]) []]⟩ := by decide

/-- S5i: both checks fail; one status. -/
theorem test_prsWrblko_S5i :
    serve [0x1B, 0xFF, 0xFF, 0x01, 0x00, 0x00] (at_ (some 0x08) (some 0xC0) []) =
      some ⟨some 0x08, some 0xC0, [[0x02, 0x00]], []⟩ := by decide

/-- S4e. -/
theorem test_prsRdblko_S4e :
    serve [0x1C, 0x00, 0xC0, 0xF0, 0x00, 0x03] (at_ (some 0x08) (some 0xC0) [.reply [1, 2, 3]]) =
      some ⟨some 0x08, some 0xC0, [[0x00, 0x01, 0x01, 0x02, 0x03]], [ok (.rk 0x58 0xF0 3) [1, 2, 3]]⟩ := by decide

/-- S5h. -/
theorem test_prsRdblko_S5h :
    serve [0x1C, 0x00, 0xC0, 0x00, 0x00, 0x00] (at_ (some 0x08) (some 0xC0) []) =
      some ⟨some 0x08, some 0xC0, [[0x02, 0x00]], []⟩ := by decide

/-! ### Pins -/

/-- G1b: the value is ignored. -/
theorem test_gpioCfgin_G1b :
    serve [0x20, 0x05, 0x01] (at_ (some 0x08) (some 0xC8) [.reply []]) =
      some ⟨some 0x08, some 0xC8, [[0x00, 0x01]], [ok (.wb 0x58 0xB0 0x00) []]⟩ := by decide

/-- G7b. -/
theorem test_gpioCfgin_G7b :
    serve [0x20, 0xFF, 0x00] (at_ (some 0x08) (some 0xC1) []) = some ⟨some 0x08, some 0xC1, [[0x00, 0x00]], []⟩ := by
  decide

/-- X4a: on the reference devices, `GROUP_LO` reading `0x50`. -/
theorem test_gpioCfgout_X4a :
    serve [0x20, 0x03, 0x03] (on (some 0x08) (some 0xC1) (devs 0x08 0xC1 [(0xC160, 0x50), (0xC161, 0xA5)]) []) =
      some ⟨some 0x08, some 0xC8, [[0x00, 0x06]],
        [ok (.rb 0x58 0x60) [0x50], ok (.wb 0x58 0x60 0x58) [], ok (.rb 0x58 0x60) [0x58], ok (.wb 0x58 0x60 0x58) [],
          ok (.wk 0x58 0xFC [0x70, 0xC8, 0x10, 0x20]) [], ok (.wb 0x58 0x70 0x04) []]⟩ := by decide +kernel

/-- G6: the byte read back is the byte written. -/
theorem test_gpioCfgout_G6 :
    serve [0x20, 0x03, 0x03]
        (at_ (some 0x08) (some 0xC1) [.reply [0x50], .reply [], .reply [0x59], .reply [], .reply [], .reply []]) =
      some ⟨some 0x08, some 0xC8, [[0x00, 0x06]],
        [ok (.rb 0x58 0x60) [0x50], ok (.wb 0x58 0x60 0x58) [], ok (.rb 0x58 0x60) [0x59], ok (.wb 0x58 0x60 0x59) [],
          ok (.wk 0x58 0xFC [0x70, 0xC8, 0x10, 0x20]) [], ok (.wb 0x58 0x70 0x04) []]⟩ := by decide

/-- G3b: level bytes `00 08` are `0x0800`; on the reference devices the level of an output is its group bit. -/
theorem test_gpioRdmode_G3b :
    serve [0x22, 0x0B] (on (some 0x08) (some 0xC9) (devs 0x08 0xC9 [(0xC161, 0x08), (0xC970, 0x04)]) []) =
      some ⟨some 0x08, some 0xC1, [[0x00, 0x03, 0x01, 0x01]],
        [ok (.rb 0x58 0x70) [0x04], ok (.wk 0x58 0xFC [0x62, 0xC1, 0x10, 0x20]) [],
          ok (.rk 0x58 0x62 2) [0x00, 0x08]]⟩ := by decide +kernel

/-- G7c. -/
theorem test_gpioRdmode_G7c :
    serve [0x22, 0x10] (at_ (some 0x08) (some 0xC1) []) =
      some ⟨some 0x08, some 0xC1, [[0x00, 0x00, 0x03, 0x00]], []⟩ := by decide

/-- G8: the mode of every control byte of the table. -/
theorem test_decodeMode_G8 :
    [0x00, 0x04, 0x01, 0x05, 0xFA, 0xFE, 0xFB, 0xFF, 0x02, 0x80].map decodeMode =
      [.input, .output, .function, .function, .input, .output, .function, .function, .input, .input] := by decide

/-! ### SFP cages -/

/-- The module image of section 6. -/
def module3 : Cage :=
  { info := some ([(0, 0x03), (20, 0x41), (21, 0x43), (22, 0x4D), (23, 0x45), (24, 0x20), (25, 0x43), (26, 0x4F), (27, 0x52),
        (28, 0x50), (29, 0x20), (30, 0x20), (31, 0x20), (32, 0x20), (33, 0x20), (34, 0x20), (35, 0x20)] ++
      [(40, 0x50), (41, 0x4E), (42, 0x2D), (43, 0x31), (44, 0x32), (45, 0x33), (46, 0x34)] ++
      [(68, 0x53), (69, 0x4E), (70, 0x30), (71, 0x30), (72, 0x30), (73, 0x31), (74, 0x20), (75, 0x20), (78, 0x20),
        (80, 0x20), (81, 0x20), (83, 0x20)])
    diag := some [(96, 0x1A), (97, 0x80), (102, 0x27), (103, 0x10), (110, 0xB4)] }

/-- The reference devices with that module in cage 3. -/
def devices3 : Devices :=
  { muxSel := 0x00, winUpper := 0x00, dpllMem := [], cages := #v[⟨none, none⟩, ⟨none, none⟩, module3, ⟨none, none⟩], ext := 0 }

/-- F1: ten transactions, and the payload. -/
theorem test_sfpPoll_F1 :
    (serve [0x30, 0x03] (on (some 0x00) none devices3 [])).map (fun x => (x.mux, x.page, x.resp, x.log.length)) =
      some (some 0x00, none,
        [[0x00, 0x0A, 0x07, 0x03] ++
          [0x41, 0x43, 0x4D, 0x45, 0x20, 0x43, 0x4F, 0x52, 0x50, 0x20, 0x20, 0x20, 0x20, 0x20, 0x20, 0x20, 0x09] ++
          [0x50, 0x4E, 0x2D, 0x31, 0x32, 0x33, 0x34, 0x00, 0x00, 0x00, 0x00, 0x00, 0x00, 0x00, 0x00, 0x00, 0x07] ++
          [0x53, 0x4E, 0x30, 0x30, 0x30, 0x31, 0x20, 0x20, 0x00, 0x00, 0x20, 0x00, 0x20, 0x20, 0x00, 0x20, 0x06] ++
          [0x80, 0x1A, 0x10, 0x27, 0x00, 0x00, 0xB4]], 10) := by decide +kernel

/-- F10: a failed select releases the multiplexer and answers `info` 0. -/
theorem test_sfpPoll_F10 :
    serve [0x30, 0x03] (at_ (some 0x08) (some 0xC1) [.fail 0, .reply []]) =
      some ⟨some 0x00, none, [[0x01, 0x00]], [failed (.wb 0x70 0x00 0x20), ok (.wb 0x70 0x00 0x00) []]⟩ := by decide

/-- F20: `TrimLen`. -/
theorem test_trimLen_F20 :
    trimLen Params.t0.trimSet (List.replicate 16 0x20) = 0 ∧
    trimLen Params.t0.trimSet ([0x20, 0x41, 0x20, 0x42] ++ List.replicate 12 0x20) = 4 ∧
    trimLen Params.t0.trimSet ([0x41, 0x42] ++ List.replicate 13 0x20 ++ [0x09]) = 16 ∧
    trimLen Params.t0.trimSet ([0x41, 0x00, 0x42] ++ List.replicate 13 0x00) = 3 := by decide

/-- F20: temperatures. -/
theorem test_temperature_F20 :
    temperatureC (u16be 0x1A 0x80) = 53 / 2 ∧ temperatureC (u16be 0xFF 0x80) = -1 / 2 ∧
    temperatureC (u16be 0x80 0x00) = -128 := by
  simp [temperatureC, u16be]
  norm_num

/-! ### Reset -/

/-- R1: the reset input in the idle state. -/
theorem test_reset_R1 :
    (nextOf (step { at_ (some 0x08) (some 0xC1) [] with resetIn := [true] })).map (fun t => (t.mux, t.page, t.respPort)) =
      some (none, none, []) := by decide

/-- R2: the reset input after two transactions of an output configure: no response, and the group register keeps the byte
written. -/
theorem test_reset_R2 :
    let end_ := steps 4 { on (some 0x08) (some 0xC1) (devs 0x08 0xC1 [(0xC160, 0x50)]) [] with
      cmdPort := [[0x20, 0x03, 0x03]], resetIn := [false, false, false, true] }
    end_.map (fun t => (t.mux, t.page, t.seq, t.respPort)) = some (none, none, .idle, []) ∧
    end_.bind (·.env.devices) = some (devs 0x08 0xC1 [(0xC160, 0x58)]) := by decide +kernel

/-- R260: an accepted command that needs no transaction is abandoned too, before it has cleared a cache. -/
theorem test_reset_before_completion :
    (steps 2 { at_ (some 0x08) (some 0xC1) [] with cmdPort := [[0x22, 0x10]], resetIn := [false, true] }).map
      (fun t => (t.mux, t.page, t.seq, t.respPort)) = some (none, none, .idle, []) := by decide

/-- U2: a host's block write of 4 bytes at `PAGE_REG` is issued; nothing is known of the devices afterwards. -/
theorem test_block_write_at_page_register :
    ∃ t, exec (.prsWrblk 0xC1FC [0x00, 0xC0, 0x10, 0x20])
        (on (some 0x08) (some 0xC1) (devs 0x08 0xC1 []) [.reply []]) = .next t ∧
      (t.env.devices = none ∧ t.respPort = [[0x00, 0x01]]) := next_with (by decide +kernel)

/-- R62: where `DPLL_ADDR` is `SFP_INFO_ADDR` too, a cage on the connected sub-bus answers there (the mux cache is stale). -/
theorem test_channel_decides_at_a_shared_address :
    ∃ t, exec (.prsRdb 0xC105) { on (some 0x08) (some 0xC1)
          { devs 0x20 0xC1 [] with cages := (Vector.replicate 4 ⟨none, none⟩).set 2 ⟨some [(5, 0x41)], none⟩ } [] with
        cfg := { Params.t0 with dpllAddr := Params.t0.sfpInfoAddr } } = .next t ∧
      t.respPort = [[0x00, 0x01, 0x41]] := next_with (by decide +kernel)

/-- From reset a step with nothing offered changes nothing, and a placed frame is served. -/
theorem test_reset_then_withFetchWord :
    nextOf (step State.reset) = some State.reset ∧
    (nextOf (step (State.reset.withFetchWord 16 0x0303))).map (·.respPort) = some [[0x00, 0x00]] := by decide

/-! ### Witnesses: for each statement with hypotheses, a state and operands that meet all of them together -/

theorem t0_wellFormed : Params.t0.WellFormed := by decide

/-- The 32 bytes of a block read. -/
def block32 : List Byte := List.replicate 32 0x41

/-- A core whose caches agree with the reference devices behind it. -/
def inStep : State := on (some 0x08) (some 0xC1) (devs 0x08 0xC1 [(0xC160, 0x50)]) []

theorem inStep_coherent : Coherent inStep := by
  intro d hd
  cases hd
  exact ⟨fun c h => by cases h; rfl, fun u h => by cases h; rfl⟩

theorem witness_decodeOfEncode :
    (Instr.prsWrblk 0xFFFF (List.replicate 255 0xFF)).wf false = true ∧ (Instr.sfpPoll 4).wf true = true := by decide +kernel

theorem witness_encodeOfDecode : decodeFrame false [0x13, 0xFF, 0xFF, 0x01, 0xAA] = .ok (.prsWrblk 0xFFFF [0xAA]) := by rfl

theorem witness_checksInOrder :
    (∀ k, ¬ Opcode.Listed true 0xFF k) ∧
    Opcode.Listed true 0x01 .muxSel ∧ ([0x01] : List Byte).length ≠ Opcode.requiredLength .muxSel [0x01] ∧
    Opcode.Listed true 0x03 .inval ∧ ([0x03, 0x04] : List Byte).length = Opcode.requiredLength .inval [0x03, 0x04] ∧
    Opcode.ReservedBits .inval [0x03, 0x04] ∧ ¬ Opcode.ReservedBits .inval [0x03, 0x03] := by
  refine ⟨fun k => ?_, by decide, by decide, by decide, by decide, by decide, by decide⟩
  cases k <;> decide

theorem witness_stepRunsTheDecodedCommand :
    let s : State := { at_ none none [] with cmdPort := [[0x03, 0x03]], resetIn := [false] }
    s.cfg.WellFormed ∧ s.seq = .idle ∧ (∀ b ∈ s.resetIn.take 11, b = false) ∧ s.cmdPort = [0x03, 0x03] :: [] ∧
      decodeFrame s.cfg.hasSfp [0x03, 0x03] = .ok (.inval 3) ∧ State.reset.cmdPort = [] :=
  ⟨t0_wellFormed, rfl, by decide, rfl, rfl, rfl⟩

/-- In the middle of a command: a step with a transaction, and the completion of one that needs none. -/
theorem witness_eachStep :
    (∃ t, step (({ at_ none none [.reply []] with resetIn := [false] } : State).accept (workOf Params.t0 (.prsRdb 0xC024))) =
        .next t ∧ (t.busLog = [ok (.wb 0x70 0x00 0x08) []] ∧
          t.seq = .busy 1 (some ⟨[.pageSelect 0xC024, .readByte 0xC024], [], .respond .bytesRead⟩))) ∧
    ∃ t, step ((at_ none none []).accept (workOf Params.t0 (.inval 1))) = .next t ∧
      (t.busLog = [] ∧ t.seq = .idle ∧ t.respPort = [[0x00, 0x00]]) := ⟨next_with (by decide), next_with (by decide)⟩

theorem witness_illegalFrames :
    (IllegalFrame true [0x00] ∧ IllegalFrame true [0x01] ∧ IllegalFrame true [0x03, 0x04] ∧ IllegalFrame false [0x30, 0x03]) ∧
    let s : State := { at_ none none [] with cmdPort := [[0x00]] }
    s.cfg.WellFormed ∧ s.seq = .idle ∧ (∀ b ∈ s.resetIn.take 2, b = false) ∧ s.cmdPort = [0x00] :: [] ∧
      (serve [] (at_ none none [])).map (·.resp) = some [[0x03, 0x00]] := by
  refine ⟨⟨⟨by decide, fun k => ?_⟩, ⟨by decide, fun k => ?_⟩, ⟨by decide, fun k => ?_⟩, ⟨by decide, fun k => ?_⟩⟩, t0_wellFormed,
    rfl, by decide, rfl, by decide⟩ <;> cases k <;> decide

/-- Idle; in the middle of a command; hung. -/
theorem witness_resetInput :
    ∀ seq ∈ ([.idle, .busy 3 (some (.answering .empty [.closeMux])), .busy 3 none] : List Seq),
      let s : State := { at_ (some 0x08) none [] with resetIn := [true], seq := seq }
      s.cfg.WellFormed ∧ s.resetIn = true :: [] := by decide

/-- With the first transaction of a command in flight; with one after a select that issues nothing; the device took none of it, or
all. -/
theorem witness_resetInFlight :
    ∀ s ∈ ([{ at_ none none [.reset 0] with seq := .busy 0 (some muxCloseWork) },
        { at_ (some 0x08) none [.reset 4] with resetIn := [false, true], seq := .busy 0 (some (readByteWork .t0 0xC105)) }] : List State),
      s.cfg.WellFormed ∧ s.resetIn.head? ≠ some true ∧ s.settle.issuesNext = true ∧
        ∃ taken, (s.env.arrival s.cfg).event = .reset taken := by
  simp only [List.mem_cons, List.not_mem_nil, or_false]
  rintro s (rfl | rfl)
  · exact ⟨by decide, by decide, by decide, 0, by decide⟩
  · exact ⟨by decide, by decide, by decide, 4, by decide⟩

/-- The three ways a command ends: a response, a hang, a reset. -/
theorem witness_everyCommandEnds :
    (∃ t, exec (.muxSel 0x20) (at_ none none [.reply []]) = .next t ∧ (t.seq = .idle ∧ t.respPort = [[0x00, 0x01]])) ∧
    (∃ t, exec (.muxSel 0x20) (at_ none none [.hang 0]) = .next t ∧ (t.seq = .busy 0 none ∧ t.respPort = [])) ∧
    ∃ t, exec (.muxSel 0x20) (at_ none none [.reset 0]) = .next t ∧
      (t.seq = .idle ∧ t.respPort = [] ∧ t.busLog = [⟨.wb Params.t0.muxAddr Params.t0.muxReg 0x20, .abandoned⟩]) :=
  ⟨next_with (by decide), next_with (by decide), next_with (by decide)⟩

theorem witness_busyCoreWaits :
    let s : State := { at_ none none [] with seq := .busy 2 none, resetIn := [false, false, true] }
    s.cfg.WellFormed ∧ s.seq = .busy 2 none ∧ ∀ b ∈ s.resetIn.take 2, b = false := by decide

/-- A state of the form in the middle of a command, with something in every part of it. -/
def formed : State :=
  { inStep with
    seq := .busy 8 (some ⟨[.readStatus, .closeMux], [], .respond .pollResult⟩)
    respPort := [[0x00, 0x01]]
    busLog := [ok (.wb 0x70 0x00 0x20) []]
    env := { inStep.env with script := [.fail 0] } }

theorem witness_stepKeepsInv : formed.Inv ∧ ∃ t, step formed = .next t ∧ t.busLog.length = 2 := by
  refine ⟨⟨?_, ?_, ?_, ?_, ?_, ?_⟩, next_with (by decide)⟩
  · intro d hd
    cases hd
    decide
  · intro d hd
    simp [formed] at hd
  · intro t w ht
    cases ht
    decide
  · intro t w ht
    cases ht
    refine ⟨by decide, fun line hl => ⟨.sfpPoll 1, ?_⟩, fun info h => by cases h⟩
    revert line
    decide
  · intro r hr
    cases hr with
    | head => exact ⟨.muxSel 0x20, rfl⟩
    | tail _ h => cases h
  · intro f hf
    cases hf with
    | head => exact ⟨.ok, 0x01, [], rfl, by decide, by decide, by decide⟩
    | tail _ h => cases h

theorem witness_parametersNeverChange :
    (∃ t, step ({ inStep with respPort := [[0x00, 0x00]] }.accept (workOf Params.t0 (.prsWrb 0xC124 0x5A))) = .next t ∧
      t.respPort = [[0x00, 0x00], [0x00, 0x01]]) ∧
    ¬ ({ Params.t0 with dpllChannel := 0x00 } : Params).WellFormed ∧ ¬ ({ Params.t0 with maxBlock := 256 } : Params).WellFormed :=
  ⟨next_with (by decide), by decide, by decide⟩

/-- In the middle of a paged access that moves the window. -/
theorem witness_cachesStayCoherent :
    let s : State := { inStep with seq := .busy 0 (some (workOf Params.t0 (.prsWrb 0xC0FB 0x5A))) }
    (s.cfg.singleOwner = true ∧ s.cfg.muxAddr ≠ s.cfg.dpllAddr) ∧ Synchronised s ∧
      ∃ t, step s = .next t ∧ (t.page = some 0xC0 ∧ t.env.devices = some (devs 0x08 0xC0 [(0xC160, 0x50)])) := by
  refine ⟨by decide, ⟨inStep_coherent, fun e he => (List.not_mem_nil he).elim, ?_⟩, next_with (by decide)⟩
  intro tix w h
  cases h
  exact ⟨fun _ => rfl, ⟨fun h => (nomatch h), trivial⟩⟩

theorem witness_failedMuxWrite :
    let s := on (some 0x08) none (devs 0x08 0xC1 []) [.fail 1]
    s.cfg.WellFormed ∧ s.mux = some 0x08 ∧ (0x08 : Byte) ≠ 0x20 ∧ s.env.devices = some (devs 0x08 0xC1 []) ∧ 0 < 1 ∧
      s.env.script = .fail 1 :: [] := by decide

/-- A miss and a hit. -/
theorem witness_muxSel :
    (at_ (some 0x08) none [.reply []]).env.script = repliesOf (selectTraffic Params.t0 (some 0x08) 0x20) ++ [] ∧
    (at_ (some 0x20) none []).env.script = repliesOf (selectTraffic Params.t0 (some 0x20) 0x20) ++ [] ∧
    (at_ (some 0x08) none [.fail 0]).mux ≠ some 0x20 ∧ (at_ (some 0x08) none [.fail 0]).env.script = .fail 0 :: [] := by
  decide

theorem witness_muxClose :
    (at_ none none [.reply []]).env.script = repliesOf (selectTraffic Params.t0 none 0x00) ++ [] ∧
    (at_ (some 0x00) none []).env.script = repliesOf (selectTraffic Params.t0 (some 0x00) 0x00) ++ [] ∧
    (at_ none none [.fail 0]).mux ≠ some 0x00 ∧ (at_ none none [.fail 0]).env.script = .fail 0 :: [] := by decide

theorem witness_repeatedSelect :
    (at_ (some 0x08) none [.reply []]).mux ≠ some 0x20 ∧ (at_ (some 0x08) none [.reply []]).env.script = .reply [] :: [] ∧
    (at_ (some 0x08) none [.fail 0, .reply []]).env.script = .fail 0 :: .reply [] :: [] := by decide

/-- Masks 1, 2 and 3; the mux write of masks 2 and 3 forces the window write. -/
theorem witness_inval_forces :
    ((Instr.prsRdb 0xC124).access Params.t0 = some (0xC124, .rb 0x58 0x24) ∧
      ([0x00] : List Byte).length = readLength (.rb 0x58 0x24) ∧
      (1 : BitVec 2) ≠ 0 ∧ (1 : BitVec 2).getLsbD 1 = false ∧
      (at_ (some 0x08) (some 0xC1) [.reply [], .reply [0x00]]).env.script =
        repliesOf (selectTraffic Params.t0 (some 0x08) 0x08 ++
          [(.wk 0x58 0xFC [0x24, 0xC1, 0x10, 0x20], []), (.rb 0x58 0x24, [0x00])]) ++ []) ∧
    ((2 : BitVec 2).getLsbD 1 = true ∧ (3 : BitVec 2).getLsbD 1 = true ∧
      (at_ (some 0x08) (some 0xC1) [.reply [], .reply [], .reply [0x00]]).env.script =
        repliesOf (selectTraffic Params.t0 none 0x08 ++
          [(.wk 0x58 0xFC [0x24, 0xC1, 0x10, 0x20], []), (.rb 0x58 0x24, [0x00])]) ++ []) ∧
    (at_ (some 0x20) (some 0xC1) [.reply []]).env.script = .reply [] :: [] :=
  ⟨⟨rfl, rfl, by decide, rfl, rfl⟩, ⟨rfl, rfl, rfl⟩, rfl⟩

theorem witness_prsEnsure :
    (at_ none none [.reply []]).env.script = repliesOf (selectTraffic Params.t0 none 0x08) ++ [] ∧
    (at_ (some 0x08) (some 0xC1) []).env.script = repliesOf (selectTraffic Params.t0 (some 0x08) 0x08) ++ [] ∧
    (at_ none none [.fail 0]).mux ≠ some 0x08 ∧ (at_ none none [.fail 0]).env.script = .fail 0 :: [] := by decide

/-- Cold; and warm at the largest sum. -/
theorem witness_byteWrites :
    (at_ none none [.reply [], .reply [], .reply []]).env.script =
      repliesOf (pagedTraffic Params.t0 none none 0xC024 (.wb 0x58 (lowerOf 0xC024) 0x5A, [])) ++ [] ∧
    (0x7FFF#16).toNat + (0x8000#16).toNat ≤ 0xFFFF ∧
    (at_ (some 0x08) (some 0xFF) [.reply []]).env.script =
      repliesOf (pagedTraffic Params.t0 (some 0x08) (some 0xFF) (0x7FFF + 0x8000)
        (.wb 0x58 (lowerOf (0x7FFF + 0x8000)) 0x5A, [])) ++ [] := by decide

theorem witness_byteReads :
    (at_ none none [.reply [], .reply [], .reply [0x5A]]).env.script =
      repliesOf (pagedTraffic Params.t0 none none 0xC024 (.rb 0x58 (lowerOf 0xC024), [0x5A])) ++ [] ∧
    (0xFFFF#16).toNat + (0#16).toNat ≤ 0xFFFF ∧
    (at_ (some 0x08) (some 0xFF) [.reply [0x5A]]).env.script =
      repliesOf (pagedTraffic Params.t0 (some 0x08) (some 0xFF) (0xFFFF + 0)
        (.rb 0x58 (lowerOf (0xFFFF + 0)), [0x5A])) ++ [] := by decide

/-- One byte; and 32, the largest count under T0. -/
theorem witness_blockWrites :
    (at_ (some 0x08) none [.reply [], .reply []]).env.script =
      repliesOf (pagedTraffic Params.t0 (some 0x08) none 0xC0FF (.wk 0x58 (lowerOf 0xC0FF) [0xAA], [])) ++ [] ∧
    1 ≤ block32.length ∧ block32.length ≤ Params.t0.maxBlock ∧ (0xC000#16).toNat + (0xC0#16).toNat ≤ 0xFFFF ∧
    (at_ (some 0x08) (some 0xC0) [.reply []]).env.script =
      repliesOf (pagedTraffic Params.t0 (some 0x08) (some 0xC0) (0xC000 + 0xC0)
        (.wk 0x58 (lowerOf (0xC000 + 0xC0)) block32, [])) ++ [] := by decide

theorem witness_blockReads :
    (at_ (some 0x08) none [.reply [], .reply [0xAA]]).env.script =
      repliesOf (pagedTraffic Params.t0 (some 0x08) none 0xC030 (.rk 0x58 (lowerOf 0xC030) 1, [0xAA])) ++ [] ∧
    block32.length = (32 : Byte).toNat ∧ (32 : Byte).toNat ≤ Params.t0.maxBlock ∧
    (at_ (some 0x08) (some 0xC0) [.reply block32]).env.script =
      repliesOf (pagedTraffic Params.t0 (some 0x08) (some 0xC0) (0xC000 + 0xC0)
        (.rk 0x58 (lowerOf (0xC000 + 0xC0)) (32 : Byte).toNat, block32)) ++ [] := by decide

/-- The four failure positions (S6a, S6b, S6d, S6c). -/
theorem witness_failurePositions :
    (Instr.prsWrb 0xC024 0x5A).access Params.t0 = some (0xC024, .wb 0x58 0x24 0x5A) ∧
    ((at_ none none [.fail 0]).mux ≠ some 0x08 ∧ (at_ none none [.fail 0]).env.script = .fail 0 :: []) ∧
    (at_ none none [.reply [], .fail 0]).env.script = .reply [] :: .fail 0 :: [] ∧
    ((at_ (some 0x08) (some 0xC1) [.fail 0]).mux = some 0x08 ∧ (at_ (some 0x08) (some 0xC1) [.fail 0]).page ≠ some 0xC0) ∧
    ([] : List Byte).length = readLength (.wb 0x58 0x24 0x5A) ∧
    (at_ none none [.reply [], .reply [], .fail 0, .reply []]).env.script =
      repliesOf (selectTraffic Params.t0 none 0x08 ++ windowTraffic Params.t0 (pageAfterEnsure Params.t0 none none) 0xC024) ++
        .fail 0 :: .reply [] :: [] := by decide

theorem witness_addressForms : (0xFFFF#16).toNat + (0x0000#16).toNat ≤ 0xFFFF ∧ (0x7FFB#16).toNat + (0x8000#16).toNat ≤ 0xFFFF := by
  decide

/-- On either side of each bound of the domain. -/
theorem witness_invalidArgument :
    ((Instr.prsRdblk 0xC000 0).OutOfDomain Params.t0 ∧ (Instr.prsRdblk 0xC000 33).OutOfDomain Params.t0 ∧
      (Instr.prsWrbo 0xFFFF 1 0).OutOfDomain Params.t0 ∧ (Instr.sfpPoll 0).OutOfDomain Params.t0 ∧
      (Instr.sfpPoll 5).OutOfDomain Params.t0) ∧
    (Instr.prsWrblk 0xC000 []).wf true = true ∧ (Instr.prsWrblk 0xC000 []).OutOfDomain Params.t0 ∧
    (¬ (Instr.prsRdblk 0xC000 1).OutOfDomain Params.t0 ∧ ¬ (Instr.prsRdblk 0xC000 32).OutOfDomain Params.t0 ∧
      ¬ (Instr.prsWrbo 0xFFFF 0 0).OutOfDomain Params.t0 ∧ ¬ (Instr.sfpPoll 1).OutOfDomain Params.t0 ∧
      ¬ (Instr.sfpPoll 4).OutOfDomain Params.t0) ∧
    ∃ t, exec (.prsRdblk 0xC000 32) (at_ (some 0x08) (some 0xC0) [.reply block32]) = .next t ∧
      t.respPort = [] ++ [0x00 :: 0x01 :: block32] := by
  refine ⟨?_, by decide, by simp [Instr.OutOfDomain], ?_, next_with (by decide)⟩ <;>
    simp [Instr.OutOfDomain, Params.t0]

/-- A run of three accesses over two pages, from cold caches. -/
theorem witness_windowWrites :
    let run : List Instr := [.prsRdb 0xC010, .prsRdb 0xC120, .prsRdb 0xC012]
    let s := at_ none none [.reply [], .reply [], .reply [0], .reply [], .reply [0], .reply [], .reply [0]]
    let log := [ok (.wb 0x70 0x00 0x08) [], ok (.wk 0x58 0xFC [0x10, 0xC0, 0x10, 0x20]) [], ok (.rb 0x58 0x10) [0],
      ok (.wk 0x58 0xFC [0x20, 0xC1, 0x10, 0x20]) [], ok (.rb 0x58 0x20) [0],
      ok (.wk 0x58 0xFC [0x12, 0xC0, 0x10, 0x20]) [], ok (.rb 0x58 0x12) [0]]
    (s.cfg.WellFormed ∧ (∀ i ∈ run, i.access s.cfg ≠ none)) ∧ (∀ i ∈ run, i.KeepsDuty s.cfg) ∧
      run.filterMap (fun i => (i.access s.cfg).map fun a => upperOf a.1) = 0xC0 :: [0xC1, 0xC0] ∧
      (∃ t, execAll run s = .next t ∧ (t.respPort.length = s.respPort.length + run.length ∧ t.busLog = s.busLog ++ log)) ∧
      ∀ r ∈ log, ∃ bytes, r.completion = .ok bytes := by
  refine ⟨by decide, ?_, by decide, next_with (by decide), ?_⟩
  · intro i hi
    simp only [List.mem_cons, List.not_mem_nil, or_false] at hi
    obtain rfl | rfl | rfl := hi <;> (show Params.t0.BlockClear _ _; decide)
  · simp [ok]

/-- In front of reference devices a storing command and a command that stores nothing answer a next state with a response
and a trace. -/
theorem witness_execNext :
    (∃ t, exec (.prsRdb 0xC160) inStep = .next t ∧
      (t.respPort = inStep.respPort ++ [0x00 :: 0x01 :: [0x50]] ∧ t.busLog = inStep.busLog ++ [ok (.rb 0x58 0x60) [0x50]] ∧
        t.env.devices = inStep.env.devices)) ∧
    (∃ t, exec (.prsWrb 0xC160 0x51) inStep = .next t ∧
      t.env.devices = some (devs 0x08 0xC1 [(0xC160, 0x51)])) ∧
    (∃ t, exec (.prsWrb 0xC160 0x51) { inStep with env := { inStep.env with script := [.fail 0] } } = .next t ∧
      (t.respPort = inStep.respPort ++ [0x01 :: 0x00 :: []] ∧ t.busLog = inStep.busLog ++ [failed (.wb 0x58 0x60 0x51)])) ∧
    inStep.cfg.singleOwner = true ∧ (Instr.prsRdb 0xC160).StoresNothing ∧
    (Instr.prsWrb 0xC160 0x51).access inStep.cfg = some (0xC160, .wb 0x58 0x60 0x51) :=
  ⟨next_with (by decide +kernel), next_with (by decide +kernel), next_with (by decide +kernel), rfl, trivial, by decide +kernel⟩

/-- Responses of the other two statuses: a poll's, refused for its slot and for want of the cages. -/
theorem witness_infoOfRefusals :
    (∃ t, exec (.sfpPoll 0x05) (at_ none none []) = .next t ∧
      (t.respPort = (at_ none none []).respPort ++ [0x02 :: 0x00 :: []] ∧ t.busLog = (at_ none none []).busLog ++ [])) ∧
    ∃ t, exec (.sfpPoll 0x01) { at_ none none [] with cfg := { Params.t0 with hasSfp := false } } = .next t ∧
      (t.respPort = (at_ none none []).respPort ++ [0x03 :: 0x00 :: []] ∧ t.busLog = (at_ none none []).busLog ++ []) :=
  ⟨next_with (by decide), next_with (by decide)⟩

theorem witness_configureStores :
    (inStep.cfg.WellFormed ∧ inStep.cfg.singleOwner = true ∧ inStep.cfg.muxAddr ≠ inStep.cfg.dpllAddr ∧
      pinOf 3 = some 3) ∧ Coherent inStep ∧ (∀ e ∈ inStep.env.script, e.Faithful) ∧
    inStep.env.devices = some (devs 0x08 0xC1 [(0xC160, 0x50)]) ∧
    (∃ t, exec (.gpioCfgin 3 true) inStep = .next t ∧ t.env.devices = some (devs 0x08 0xC8 [(0xC160, 0x50)])) ∧
    ∃ t, exec (.gpioCfgout 3 true) inStep = .next t ∧
      t.env.devices = some (devs 0x08 0xC8 [(0xC160, 0x58), (0xC870, 0x04)]) :=
  ⟨by decide, inStep_coherent, fun e he => (List.not_mem_nil he).elim, rfl, next_with (by decide),
    next_with (by decide +kernel)⟩

/-- A block up to the last register below the paging register. -/
theorem witness_blockWriteReadBack :
    let data : List Byte := [1, 2, 3]
    (inStep.cfg.WellFormed ∧ inStep.cfg.BlockCount data.length ∧ inStep.cfg.BlockClear (lowerOf 0xC0F9) data.length ∧
      (∀ j, j < data.length → ¬ inStep.cfg.IsLevelAddr ((0xC0F9 : Addr).toNat + j))) ∧ Coherent inStep ∧
    inStep.env.devices = some (devs 0x08 0xC1 [(0xC160, 0x50)]) ∧ (devs 0x08 0xC1 [(0xC160, 0x50)]).wf ∧
    inStep.env.script = [] := ⟨by decide, inStep_coherent, rfl, by decide, rfl⟩

/-- The last pin, whose register is on another page than the group registers. -/
theorem witness_configureInput :
    pinOf 0x0F = some 15 ∧ (at_ none none [.reply [], .reply [], .reply []]).env.script =
      repliesOf (pagedTraffic Params.t0 none none (Params.t0.pinControl 15)
        (.wb 0x58 (lowerOf (Params.t0.pinControl 15)) 0x00, [])) ++ [] := by decide

/-- From cold caches, with either value of `GPIO_RELATCH`. -/
theorem witness_configureOutput :
    pinOf 0x03 = some 3 ∧
    (at_ none none [.reply [], .reply [], .reply [0x50], .reply [], .reply [0x58], .reply [], .reply [], .reply []]).env.script =
      repliesOf (configureTraffic Params.t0 none none 3 0x50 (setBit 0x50 3 true) 0x58) ++ [] ∧
    (at_ none none [.reply [], .reply [], .reply [0x50], .reply [], .reply [], .reply [], .reply []]).env.script =
      repliesOf (configureTraffic { Params.t0 with gpioRelatch := .reuse } none none 3 0x50 (setBit 0x50 3 true) 0x58) ++ [] := by
  decide

theorem witness_readMode :
    pinOf 0x00 = some 0 ∧
    (at_ none none [.reply [], .reply [], .reply [0x04], .reply [], .reply [0x01, 0x00]]).env.script =
      repliesOf (pagedTraffic Params.t0 none none (Params.t0.pinControl 0)
          (.rb 0x58 (lowerOf (Params.t0.pinControl 0)), [0x04]) ++
        windowTraffic Params.t0 (some (upperOf (Params.t0.pinControl 0))) Params.t0.levelAddr ++
        [(.rk 0x58 (lowerOf Params.t0.levelAddr) 2, [0x01, 0x00])]) ++ [] := by decide

/-- G9a to G9e, and the failure positions of the other two pin commands: each script of the statement, and what the vector says
of it. -/
theorem witness_pinFailures :
    let c := Params.t0
    let first := selectTraffic c (some 0x08) 0x08 ++ windowTraffic c (some 0xC1) 0xC160
    let body : List Exchange := [(.rb 0x58 0x60, [0x50]), (.wb 0x58 0x60 0x58, []), (.rb 0x58 0x60, [0x58]), (.wb 0x58 0x60 0x58, [])]
    (pinOf 0x03 = some 3 ∧ body = body.take 1 ++ (.wb 0x58 0x60 0x58, []) :: body.drop 2) ∧
    (at_ (some 0x08) (some 0xC1) [.reply [0x50], .fail 0]).env.script = repliesOf (first ++ body.take 1) ++ .fail 0 :: [] ∧
    serve [0x20, 0x03, 0x03] (at_ (some 0x08) (some 0xC1) [.reply [0x50], .fail 0]) =
      some ⟨some 0x08, some 0xC1, [[0x01, 0x01]], [ok (.rb 0x58 0x60) [0x50], failed (.wb 0x58 0x60 0x58)]⟩ ∧
    (at_ (some 0x08) (some 0xC1) [.reply [0x50], .reply [], .reply [0x58], .reply [], .reply [], .fail 0]).env.script =
      repliesOf (first ++ body ++ windowTraffic c (some (upperOf 0xC160)) 0xC870) ++ .fail 0 :: [] ∧
    (at_ none none [.fail 0]).env.script = repliesOf [] ++ .fail 0 :: [] ∧
    (at_ (some 0x08) (some 0xC8) [.reply [0x04], .fail 0]).env.script =
      repliesOf (selectTraffic c (some 0x08) 0x08 ++ windowTraffic c (some 0xC8) 0xC870 ++ [(.rb 0x58 0x70, [0x04])]) ++
        .fail 0 :: [] :=
  ⟨⟨rfl, rfl⟩, rfl, by decide, rfl, rfl, rfl⟩

theorem witness_outOfRangePin : 16 ≤ (0x10 : Byte).toNat ∧ 16 ≤ (0xFF : Byte).toNat := by decide

theorem witness_inRangePin :
    pinOf 0x0F = some 15 ∧
    (∃ t, exec (.gpioCfgin 0x0F true) (at_ none none [.fail 0]) = .next t ∧ t.busLog.length = 1) :=
  ⟨by decide, next_with (by decide)⟩

theorem witness_decodeMode :
    (0x05#8).getLsbD 0 = true ∧ (0x04#8).getLsbD 0 = false ∧ (0x04#8).getLsbD 2 = true ∧ (0xFA#8).getLsbD 0 = false ∧
    (0xFA#8).getLsbD 2 = false := by decide

theorem witness_setBit : 0 < 8 ∧ 7 < 8 := by decide

theorem witness_configureThenRead :
    (inStep.cfg.WellFormed ∧ inStep.cfg.muxAddr ≠ inStep.cfg.dpllAddr ∧ pinOf 0x0F = some 15 ∧
      inStep.cfg.pinControl 15 ≠ inStep.cfg.groupOf 15 ∧ ¬ inStep.cfg.IsLevelAddr (inStep.cfg.pinControl 15).toNat ∧
      ¬ inStep.cfg.IsLevelAddr (inStep.cfg.groupOf 15).toNat) ∧ Coherent inStep ∧
    inStep.env.devices = some (devs 0x08 0xC1 [(0xC160, 0x50)]) ∧ (devs 0x08 0xC1 [(0xC160, 0x50)]).wf ∧
    inStep.env.script = [] := ⟨by decide, inStep_coherent, rfl, by decide, rfl⟩

theorem witness_slotChannels : Params.t0.hasSfp = true ∧ (0x00 : Byte).toNat < 1 ∧ 4 < (0x05 : Byte).toNat := by decide

theorem witness_exactReads :
    Exact (infoReads Params.t0 block32 block32 block32) ∧ Exact (diagReads Params.t0 block32 block32 block32 block32) := by
  unfold Exact
  decide

/-- The environment's part of a poll of slot 1 or slot 4 in which every transaction before the status byte succeeds. -/
def pollReplies : List BusEvent := .reply [] :: List.replicate 7 (.reply block32)

/-- The first and the last slot, from a closed multiplexer. -/
theorem witness_poll :
    slotOf 0x01 = some 0 ∧ slotOf 0x04 = some 3 ∧
    (at_ (some 0x00) none (pollReplies ++ [.reply [0xB4], .reply []])).env.script =
      repliesOf (selectTraffic Params.t0 (some 0x00) (slotChannel 3) ++ infoReads Params.t0 block32 block32 block32 ++
        diagReads Params.t0 block32 block32 block32 block32 ++
        [(.rb 0x51 110, [0xB4]), (closeWrite Params.t0, [])]) ++ [] := ⟨rfl, rfl, rfl⟩

/-- The first and the last vendor-info read fail. -/
theorem witness_absentModule :
    (at_ (some 0x00) none [.reply [], .fail 0, .reply []]).env.script =
      repliesOf (selectTraffic Params.t0 (some 0x00) (slotChannel 0) ++
        (infoReads Params.t0 block32 block32 block32).take (0 : Fin 3)) ++ .fail 0 :: .reply [] :: [] ∧
    (at_ (some 0x00) none [.reply [], .reply block32, .reply block32, .fail 0, .reply []]).env.script =
      repliesOf (selectTraffic Params.t0 (some 0x00) (slotChannel 0) ++
        (infoReads Params.t0 block32 block32 block32).take (2 : Fin 3)) ++ .fail 0 :: .reply [] :: [] := ⟨rfl, rfl⟩

/-- The last diagnostics read fails. -/
theorem witness_diagnosticsFailure :
    (at_ (some 0x00) none (.reply [] :: List.replicate 6 (.reply block32) ++ [.fail 0, .reply []])).env.script =
      repliesOf (selectTraffic Params.t0 (some 0x00) (slotChannel 3) ++ infoReads Params.t0 block32 block32 block32 ++
        (diagReads Params.t0 block32 block32 block32 block32).take (3 : Fin 4)) ++ .fail 0 :: .reply [] :: [] := by
  rfl

theorem witness_statusFailure :
    (at_ (some 0x00) none (pollReplies ++ [.fail 0, .reply []])).env.script =
      repliesOf (selectTraffic Params.t0 (some 0x00) (slotChannel 3) ++ infoReads Params.t0 block32 block32 block32 ++
        diagReads Params.t0 block32 block32 block32 block32) ++ .fail 0 :: .reply [] :: [] := by rfl

/-- F11, F10, F12: one witness for each clause. -/
theorem witness_failedSelect :
    ((at_ (some 0x00) none [.fail 0]).mux ≠ some (slotChannel 2) ∧ (at_ (some 0x00) none [.fail 0]).mux = some 0x00 ∧
      (at_ (some 0x00) none [.fail 0]).env.script = .fail 0 :: []) ∧
    ((at_ (some 0x08) none [.fail 0, .reply []]).mux ≠ some 0x00 ∧
      (at_ (some 0x08) none [.fail 0, .reply []]).env.script = .fail 0 :: .reply [] :: []) ∧
    (at_ none none [.fail 0, .fail 0]).mux ≠ some 0x00 ∧
      (at_ none none [.fail 0, .fail 0]).env.script = .fail 0 :: .fail 0 :: [] := by decide

/-- The close fails after every read, after the last vendor-info read failed, after the first diagnostics read failed, and after the
status read failed. -/
theorem witness_failedClose :
    let select := selectTraffic Params.t0 (some 0x00) (slotChannel 3)
    let info := infoReads Params.t0 block32 block32 block32
    let diag := diagReads Params.t0 block32 block32 block32 block32
    (at_ (some 0x00) none (pollReplies ++ [.reply [0xB4], .fail 0])).env.script =
      repliesOf (select ++ info ++ diag ++ [(.rb 0x51 110, [0xB4])]) ++ .fail 0 :: [] ∧
    (at_ (some 0x00) none [.reply [], .reply block32, .reply block32, .fail 0, .fail 1]).env.script =
      repliesOf (select ++ info.take (2 : Fin 3)) ++ .fail 0 :: .fail 1 :: [] ∧
    (at_ (some 0x00) none [.reply [], .reply block32, .reply block32, .reply block32, .fail 0, .fail 1]).env.script =
      repliesOf (select ++ info ++ diag.take (0 : Fin 4)) ++ .fail 0 :: .fail 1 :: [] ∧
    (at_ (some 0x00) none (pollReplies ++ [.fail 0, .fail 1])).env.script =
      repliesOf (select ++ info ++ diag) ++ .fail 0 :: .fail 1 :: [] := ⟨rfl, rfl, rfl, rfl⟩

theorem witness_regions :
    (block32 ++ block32 ++ block32).length = 96 ∧ (block32 ++ block32 ++ block32 ++ block32).length = 128 := by decide

/-- A whole result, and the three partial ones. -/
theorem witness_payloadLayout :
    let v := decodeVendor (block32 ++ block32 ++ block32)
    let d := decodeDiag (block32 ++ block32 ++ block32 ++ block32)
    ∀ r ∈ ([⟨none, none, none⟩, ⟨some v, none, none⟩, ⟨some v, some d, none⟩, ⟨some v, some d, some 0xB4⟩] : List PollResult),
      (∀ v ∈ r.vendor, v.vendor.length = 16 ∧ v.part.length = 16 ∧ v.serial.length = 16) ∧
      (r.status.isSome = true → r.diag.isSome = true) ∧ (r.diag.isSome = true → r.vendor.isSome = true) := by decide

theorem witness_trimLen : 0 < trimLen Params.t0.trimSet [0x41, 0x20] ∧ 1 < ([0x41, 0x20] : List Byte).length := by decide

theorem witness_receivePower : (0 : BitVec 16).toNat ≤ (1 : BitVec 16).toNat := by decide

end Sys2Proof.Tests
end

section
/-! The steps of the core (spec/00_scope.md rules R5, R6 and R9): what a line and a step leave unchanged, how many transactions a
step and a command issue, and the statements about them. -/

namespace Sys2Proof.Machine

/-! ### What one line leaves unchanged, and what it adds to the two ports -/

/-- One transaction adds one record to the bus master port and touches neither the parameters nor the other ports. -/
theorem State.transact_frame (line : Line) (r : BusRequest) (tix : BitVec 8) (w : Work) (s : State) :
    (s.transact line r tix w).cfg = s.cfg ∧ (s.transact line r tix w).cmdPort = s.cmdPort ∧
      (s.transact line r tix w).resetIn = s.resetIn ∧ (s.transact line r tix w).respPort = s.respPort ∧
      ∃ record, (s.transact line r tix w).busLog = s.busLog ++ [record] := by
  rcases s.transact_cases line r tix w with ⟨bytes, _, _, he⟩ | ⟨_, he⟩ | ⟨_, he⟩ | ⟨_, he⟩ <;> rw [he] <;> simp

/-- The end of a command emits one response frame (R97, R231). -/
theorem State.endCommand_respPort (tix : BitVec 8) (w : Work) (s : State) :
    ∃ frame, (s.endCommand tix w).respPort = s.respPort ++ [frame] := by
  unfold State.endCommand
  split
  · exact ⟨_, rfl⟩
  · rename_i e _
    cases e <;> exact ⟨_, rfl⟩

/-- A line keeps the parameters, the command port and the reset input, and only adds to the response port and the bus master
port. -/
theorem State.execLine_frame (s : State) :
    s.execLine.cfg = s.cfg ∧ s.execLine.cmdPort = s.cmdPort ∧ s.execLine.resetIn = s.resetIn ∧
      s.respPort <+: s.execLine.respPort ∧ s.busLog <+: s.execLine.busLog := by
  rcases s.execLine_cases with ⟨_, he⟩ | ⟨tix, w, _, ⟨_, he⟩ | ⟨line, rest, _, ⟨_, he⟩ | ⟨r, _, he⟩⟩⟩ <;> rw [he]
  · simp
  · obtain ⟨frame, hf⟩ := s.endCommand_respPort tix w
    simp [hf]
  · simp
  · obtain ⟨hcfg, hcmd, hreset, hresp, record, hlog⟩ := s.transact_frame line r tix { w with todo := rest }
    simp [hcfg, hcmd, hreset, hresp, hlog]

/-- A line that issues a transaction adds exactly one record to the bus master port. -/
theorem State.execLine_busLog_of_issuesNext {s : State} (h : s.issuesNext = true) :
    ∃ record, s.execLine.busLog = s.busLog ++ [record] := by
  rcases s.execLine_cases with ⟨hs | ⟨tix, hs⟩, _⟩ | ⟨tix, w, hs, ⟨ht, _⟩ | ⟨line, rest, ht, ⟨hr, _⟩ | ⟨r, _, he⟩⟩⟩
  · simp [issuesNext, hs] at h
  · simp [issuesNext, hs] at h
  · simp [issuesNext, hs, ht] at h
  · simp [issuesNext, hs, ht, hr] at h
  · obtain ⟨_, _, _, _, hlog⟩ := s.transact_frame line r tix { w with todo := rest }
    rwa [he]

/-- R5: no line changes a parameter. -/
theorem State.execLines_cfg (n : Nat) (s : State) : (s.execLines n).cfg = s.cfg :=
  State.execLines_induct (P := fun t => t.cfg = s.cfg) (fun t ht => t.execLine_frame.1.trans ht) n rfl

/-- The core's own step keeps the command port and the reset input (R23, R260). -/
theorem State.coreStep_inputs (s : State) : s.coreStep.cmdPort = s.cmdPort ∧ s.coreStep.resetIn = s.resetIn := by
  refine State.coreStep_induct (P := fun t => t.cmdPort = s.cmdPort ∧ t.resetIn = s.resetIn)
    (fun t ⟨hcmd, hreset⟩ => ?_) ⟨rfl, rfl⟩
  obtain ⟨_, hcmd', hreset', _, _⟩ := t.execLine_frame
  exact ⟨hcmd'.trans hcmd, hreset'.trans hreset⟩

/-! ### What a step does when the reset input is not asserted -/

theorem step_of_not_reset {s : State} (hw : s.cfg.WellFormed) (h : s.resetIn.head? ≠ some true) :
    step s = .next ({ s with resetIn := s.resetIn.tail } : State).advance := by
  rcases s.blockStep_cases with ⟨hr, _⟩ | ⟨_, he⟩
  · exact absurd hr h
  · rw [step_next hw, he]

/-- R9: a busy core makes its own step. -/
theorem step_of_busy {s : State} {tix : BitVec 8} {work : Option Work} (hw : s.cfg.WellFormed)
    (hs : s.seq = .busy tix work) (h : s.resetIn.head? ≠ some true) :
    step s = .next ({ s with resetIn := s.resetIn.tail } : State).coreStep := by
  rw [step_of_not_reset hw h]
  simp [State.advance, hs]

/-- R23: an idle core accepts the frame at the head of the command port. -/
theorem step_of_offered {s : State} {frame : List Byte} {later : List (List Byte)} (hw : s.cfg.WellFormed)
    (hs : s.seq = .idle) (hc : s.cmdPort = frame :: later) (h : s.resetIn.head? ≠ some true) :
    step s = .next (({ s with cmdPort := later, resetIn := s.resetIn.tail } : State).accept (frameWork s.cfg frame)) := by
  rw [step_of_not_reset hw h]
  simp [State.advance, State.takeFrame, hs, hc]

/-- R23: an idle core with no frame offered waits. -/
theorem step_of_not_offered {s : State} (hw : s.cfg.WellFormed) (hs : s.seq = .idle) (hc : s.cmdPort = [])
    (h : s.resetIn.head? ≠ some true) : step s = .next { s with resetIn := s.resetIn.tail } := by
  rw [step_of_not_reset hw h]
  simp [State.advance, State.takeFrame, hs, hc]

/-- R95: the latches of a frame that is a command. -/
theorem frameWork_of_decode {c : Params} {frame : List Byte} {i : Instr} (h : decodeFrame c.hasSfp frame = .ok i) :
    frameWork c frame = workOf c i := by
  simp [frameWork, h]

/-! ### A step issues at most one transaction -/

/-- A core that is to issue a transaction executes a command, and the line that issues it is not the command's end. -/
theorem State.busy_of_issuesNext {s : State} (h : s.issuesNext = true) :
    ∃ tix w, s.seq = .busy tix (some w) ∧ 1 < s.linesLeft := by
  unfold State.issuesNext at h
  split at h
  · cases h
  · cases h
  · rename_i tix w hs
    split at h
    · cases h
    · rename_i ht
      exact ⟨tix, w, hs, by simp [linesLeft_busy hs, ht]⟩

theorem State.settle_of_rest {s : State} (h : s.linesLeft = 0) : s.settle = s := by
  simp [State.settle, h, State.settleFor]

/-- A command that comes to rest without a transaction has ended with one response. -/
theorem State.settle_responds {s : State} {tix : BitVec 8} {w : Work} (hs : s.seq = .busy tix (some w))
    (h : s.settle.linesLeft = 0) : s.settle.seq = .idle ∧ ∃ frame, s.settle.respPort = s.respPort ++ [frame] := by
  have key : (s.settle.linesLeft ≠ 0 ∧ s.settle.respPort = s.respPort) ∨
      (s.settle.seq = .idle ∧ ∃ frame, s.settle.respPort = s.respPort ++ [frame]) := by
    refine State.settleFor_induct (P := fun t => (t.linesLeft ≠ 0 ∧ t.respPort = s.respPort) ∨
      (t.seq = .idle ∧ ∃ frame, t.respPort = s.respPort ++ [frame])) (fun t hi ht => ?_) _
      (.inl ⟨by simp [linesLeft_busy hs], rfl⟩)
    rcases ht with ⟨hleft, hresp⟩ | ⟨hidle, hframe⟩
    · rcases t.execLine_cases with ⟨hrest | ⟨k, hrest⟩, _⟩ | ⟨k, v, ht, ⟨_, he⟩ | ⟨line, rest, htodo, ⟨_, he⟩ | ⟨r, hr, _⟩⟩⟩
      · exact absurd (linesLeft_idle hrest) hleft
      · exact absurd (linesLeft_hung hrest) hleft
      · rw [he, ← hresp]
        exact .inr ⟨by simp, t.endCommand_respPort k v⟩
      · rw [he]
        exact .inl ⟨by simp [linesLeft_busy (State.goOn_seq _ _ _)], by simpa using hresp⟩
      · simp [State.issuesNext, ht, htodo, hr] at hi
    · rw [State.execLine_idle hidle]
      exact .inr ⟨hidle, hframe⟩
  rcases key with ⟨hleft, _⟩ | hend
  · exact absurd h hleft
  · exact hend

/-- The core's own step: one transaction, or the end of a command that needs none (R9). -/
theorem State.coreStep_cases {s : State} {tix : BitVec 8} {w : Work} (hs : s.seq = .busy tix (some w)) :
    (∃ record, s.coreStep.busLog = s.busLog ++ [record]) ∨
      (s.coreStep.busLog = s.busLog ∧ s.coreStep.env = s.env ∧ s.coreStep.seq = .idle ∧
        ∃ frame, s.coreStep.respPort = s.respPort ++ [frame]) := by
  obtain ⟨hlog, henv, _⟩ := s.settle_quiet
  rcases s.settle_issues with hrest | hissues
  · have he : s.coreStep = s.settle := by
      rw [State.coreStep, State.execLine_rest hrest, State.settle_of_rest hrest]
    rw [he]
    exact .inr ⟨hlog, henv, State.settle_responds hs hrest⟩
  · obtain ⟨record, hrecord⟩ := State.execLine_busLog_of_issuesNext hissues
    refine .inl ⟨record, ?_⟩
    rw [State.coreStep, (State.settle_quiet _).1, hrecord, hlog]

/-! ### How many transactions a command issues -/

/-- From `s` on, the core issues at most `n` transactions before it comes to rest. -/
inductive State.IssuesAtMost : Nat → State → Prop
  | rest {n : Nat} {s : State} (h : s.linesLeft = 0) : State.IssuesAtMost n s
  | quiet {n : Nat} {s : State} (h : s.issuesNext = false) (next : State.IssuesAtMost n s.execLine) : State.IssuesAtMost n s
  | issue {n : Nat} {s : State} (h : s.issuesNext = true) (next : State.IssuesAtMost n s.execLine) :
      State.IssuesAtMost (n + 1) s

theorem State.IssuesAtMost.execLine_quiet {n : Nat} {s : State} (hi : s.issuesNext = false) (h : s.IssuesAtMost n) :
    s.execLine.IssuesAtMost n := by
  cases h with
  | rest h => rw [State.execLine_rest h]; exact .rest h
  | quiet _ next => exact next
  | issue h _ => simp [hi] at h

theorem State.IssuesAtMost.execLine_issue {n : Nat} {s : State} (hi : s.issuesNext = true) (h : s.IssuesAtMost n) :
    ∃ m, n = m + 1 ∧ s.execLine.IssuesAtMost m := by
  cases h with
  | rest h => obtain ⟨_, _, _, hleft⟩ := State.busy_of_issuesNext hi; omega
  | quiet h _ => simp [hi] at h
  | issue _ next => exact ⟨_, rfl, next⟩

theorem State.IssuesAtMost.settle {n : Nat} {s : State} (h : s.IssuesAtMost n) : s.settle.IssuesAtMost n :=
  State.settleFor_induct (P := State.IssuesAtMost n) (fun _ => State.IssuesAtMost.execLine_quiet) _ h

/-- After the core's own step the core is at rest, or it has issued one of its transactions and is about to issue another. -/
theorem State.IssuesAtMost.coreStep {n : Nat} {s : State} (h : s.IssuesAtMost (n + 1)) :
    s.coreStep.linesLeft = 0 ∨ s.coreStep.issuesNext = true ∧ s.coreStep.IssuesAtMost n := by
  rcases s.settle_issues with hrest | hissues
  · left
    rw [State.coreStep, State.execLine_rest hrest, State.settle_of_rest hrest, hrest]
  · obtain ⟨m, hm, hnext⟩ := h.settle.execLine_issue hissues
    obtain rfl : n = m := by omega
    exact (State.settle_issues _).imp id fun hi => ⟨hi, hnext.settle⟩

/-- As each line issues at most one transaction, and the end of the command none. -/
theorem State.issuesAtMost_of_linesLeft {n : Nat} {s : State} (h : s.linesLeft ≤ n + 1) : s.IssuesAtMost n := by
  induction hk : s.linesLeft using Nat.strong_induction_on generalizing s n with
  | _ k ih =>
    by_cases h0 : s.linesLeft = 0
    · exact .rest h0
    · have hlt := State.execLine_linesLeft (s := s) (by omega)
      cases hi : s.issuesNext with
      | false => exact .quiet hi (ih _ (hk ▸ hlt) (by omega) rfl)
      | true =>
        obtain ⟨_, _, _, hleft⟩ := State.busy_of_issuesNext hi
        obtain ⟨m, rfl⟩ := Nat.exists_eq_add_of_le' (show 1 ≤ n by omega)
        exact .issue hi (ih _ (hk ▸ hlt) (by omega) rfl)

/-- The transactions still to come depend on the parameters and the caches only. -/
theorem State.mostTransactions_congr (lines : List Line) {s t : State} (hc : t.cfg = s.cfg) (hm : t.mux = s.mux)
    (hp : t.page = s.page) : t.mostTransactions lines = s.mostTransactions lines := by
  induction lines generalizing s t with
  | nil => rfl
  | cons line rest ih =>
    simp only [State.mostTransactions, hc, hm, hp]
    cases line.request s.cfg s.mux s.page [] with
    | none => exact ih (by simpa using hc) (by cases line <;> simp [Line.pass, hm]) (by cases line <;> simp [Line.pass, hp])
    | some r => simpa using ih (by simpa using hc) (line.commit_mux s hm) (line.commit_page s hp)

/-- R8: the failure of every one of these lines ends the command at once; none is tolerated. -/
def RaisesOnFailure (lines : List Line) : Prop :=
  ∀ line ∈ lines, ∀ w tix, line.failed w tix = w.raise (.busError tix)

/-- Where no failure is tolerated, a command issues the most transactions when each of them succeeds. -/
theorem State.issuesAtMost_of_mostTransactions {n : Nat} {s : State} {tix : BitVec 8} {w : Work}
    (hs : s.seq = .busy tix (some w)) (hf : RaisesOnFailure w.todo) (hn : s.mostTransactions w.todo ≤ n) :
    s.IssuesAtMost n := by
  have ended : ∀ {n : Nat} {s : State} {tix : BitVec 8} {w : Work}, s.seq = .busy tix (some w) → w.todo = [] →
      s.IssuesAtMost n :=
    fun hs ht => State.issuesAtMost_of_linesLeft (by simp [State.linesLeft_busy hs, ht])
  obtain ⟨todo, bytes, ending⟩ := w
  induction todo generalizing n s tix bytes with
  | nil => exact ended hs rfl
  | cons line rest ih =>
    have hf' : RaisesOnFailure rest := fun l hl => hf l (List.mem_cons_of_mem _ hl)
    have hsome := line.request_isSome s.cfg s.mux s.page [] bytes
    cases hr : line.request s.cfg s.mux s.page bytes with
    | none =>
      have hr' : line.request s.cfg s.mux s.page [] = none := by simpa [hr] using hsome
      refine .quiet (by simp [State.issuesNext, hs, hr]) ?_
      rw [State.execLine_pass hs rfl hr]
      refine ih bytes (State.goOn_seq _ _ _) hf' (le_of_eq_of_le ?_ hn)
      simp only [State.mostTransactions, hr']
      exact State.mostTransactions_congr rest (by simp) rfl rfl
    | some r =>
      obtain ⟨q, hq⟩ : ∃ q, line.request s.cfg s.mux s.page [] = some q :=
        Option.isSome_iff_exists.1 (by simp [hsome, hr])
      simp only [State.mostTransactions, hq] at hn
      obtain ⟨m, rfl⟩ := Nat.exists_eq_add_of_le' (show 1 ≤ n by omega)
      refine .issue (by simp [State.issuesNext, hs, hr]) ?_
      rw [State.execLine_transact hs rfl hr]
      rcases s.transact_cases line r tix ⟨rest, bytes, ending⟩ with ⟨answer, _, _, he⟩ | ⟨_, he⟩ | ⟨_, he⟩ | ⟨_, he⟩ <;> rw [he]
      · refine ih (tix := tix + 1) (bytes ++ answer) (by simp) hf' (le_of_eq_of_le ?_ (Nat.le_of_succ_le_succ hn))
        exact State.mostTransactions_congr rest (by simp) (line.commit_mux s rfl) (line.commit_page s rfl)
      · exact ended (State.goOn_seq _ _ _) (by rw [hf line (by simp)]; rfl)
      · exact .rest (State.linesLeft_hung (State.hang_seq _ _))
      · exact .rest (State.linesLeft_idle (State.coreReset_seq _))

/-! ### The transactions of an output configure -/

/-- A data transaction of a paged access: it is always issued and changes no cache (R153). -/
structure Line.IsData (line : Line) : Prop where
  issues : ∀ c mux page bytes, (line.request c mux page bytes).isSome = true
  keeps : ∀ s, line.commit s = s

theorem State.mostTransactions_data {data : Line} (hd : data.IsData) (rest : List Line) (s : State) :
    s.mostTransactions (data :: rest) = s.mostTransactions rest + 1 := by
  obtain ⟨r, hr⟩ := Option.isSome_iff_exists.1 (hd.issues s.cfg s.mux s.page [])
  simp [State.mostTransactions, hr, hd.keeps]

/-- R130: a select issues at most one write, and leaves the cache at its channel. -/
theorem State.mostTransactions_muxSelect_le (chan : Byte) (rest : List Line) (s : State) :
    ∃ page, s.mostTransactions (.muxSelect chan :: rest) ≤
      ({ s with mux := some chan, page := page } : State).mostTransactions rest + 1 := by
  by_cases h : s.mux = some chan
  · refine ⟨s.page, ?_⟩
    have hsame : ({ s with mux := some chan, page := s.page } : State) = s := by rw [← h]
    rw [hsame]
    simp [State.mostTransactions, Line.request, selectRequest, h, Line.pass]
  · refine ⟨none, ?_⟩
    simp [State.mostTransactions, Line.request, selectRequest, h, Line.commit, State.commitMux]

/-- R151: a window select issues at most one write, and leaves the cache at its upper byte. -/
theorem State.mostTransactions_pageSelect_le (addr : Addr) (rest : List Line) (s : State) :
    s.mostTransactions (.pageSelect addr :: rest) ≤
      ({ s with page := some (upperOf addr) } : State).mostTransactions rest + 1 := by
  by_cases h : s.page = some (upperOf addr)
  · have hsame : ({ s with page := some (upperOf addr) } : State) = s := by rw [← h]
    rw [hsame]
    simp [State.mostTransactions, Line.request, windowRequest, h, Line.pass]
  · simp [State.mostTransactions, Line.request, windowRequest, h, Line.commit, State.commitPage]

/-- R153: a paged access issues at most three transactions. -/
theorem State.mostTransactions_paged_le {data : Line} (hd : data.IsData) (addr : Addr) (rest : List Line) (s : State) :
    s.mostTransactions (pagedLines s.cfg addr data ++ rest) ≤
      ({ s with mux := some s.cfg.dpllChannel, page := some (upperOf addr) } : State).mostTransactions rest + 3 := by
  obtain ⟨page, hmux⟩ := s.mostTransactions_muxSelect_le s.cfg.dpllChannel (.pageSelect addr :: data :: rest)
  have hpage := State.mostTransactions_pageSelect_le addr (data :: rest)
    { s with mux := some s.cfg.dpllChannel, page := page }
  rw [State.mostTransactions_data hd] at hpage
  exact hmux.trans (Nat.succ_le_succ hpage)

/-- R153: an access to the page that is already selected issues its data transaction only. -/
theorem State.mostTransactions_paged_again {data : Line} (hd : data.IsData) {addr : Addr} {s : State}
    (hm : s.mux = some s.cfg.dpllChannel) (hp : s.page = some (upperOf addr)) (rest : List Line) :
    s.mostTransactions (pagedLines s.cfg addr data ++ rest) = s.mostTransactions rest + 1 := by
  rw [← State.mostTransactions_data hd]
  simp [pagedLines, ensureChannel, State.mostTransactions, Line.request, selectRequest, windowRequest, hm, hp, Line.pass]

theorem Line.isData_readByte (addr : Addr) : (Line.readByte addr).IsData := ⟨fun _ _ _ _ => rfl, fun _ => rfl⟩

theorem Line.isData_writeByte (addr : Addr) (v : Byte) : (Line.writeByte addr v).IsData :=
  ⟨fun _ _ _ _ => rfl, fun _ => rfl⟩

theorem Line.isData_writeModified (addr : Addr) (k : Nat) (value : Bool) : (Line.writeModified addr k value).IsData :=
  ⟨fun _ _ _ _ => rfl, fun _ => rfl⟩

theorem Line.isData_writeBack (addr : Addr) : (Line.writeBack addr).IsData := ⟨fun _ _ _ _ => rfl, fun _ => rfl⟩

/-- R184: the second write of the group register, on the page that is already selected. -/
theorem State.mostTransactions_relatch_le {group : Addr} {s : State} (hm : s.mux = some s.cfg.dpllChannel)
    (hp : s.page = some (upperOf group)) (k : Nat) (value : Bool) (rest : List Line) :
    s.mostTransactions (relatchLines s.cfg group k value ++ rest) ≤ s.mostTransactions rest + 2 := by
  unfold relatchLines
  split
  · rw [List.append_assoc, State.mostTransactions_paged_again (Line.isData_readByte group) hm hp,
      State.mostTransactions_paged_again (Line.isData_writeBack group) hm hp]
  · rw [State.mostTransactions_paged_again (Line.isData_writeModified group k value) hm hp]
    omega

/-- R183: an output configure issues no more than ten transactions: only its first and its last access may have to select. -/
theorem State.mostTransactions_configureOutput_le (p : Fin 16) (value : Bool) (s : State) :
    s.mostTransactions (configureOutputLines s.cfg p value) ≤ 10 := by
  let group := s.cfg.groupOf p
  let control := s.cfg.pinControl p
  let selected : State := { s with mux := some s.cfg.dpllChannel, page := some (upperOf group) }
  let modify := pagedLines s.cfg group (.writeModified group (groupBit p) value)
  let relatch := relatchLines s.cfg group (groupBit p) value
  let commit := pagedLines s.cfg control (.writeByte control outputTrigger)
  have hrelatch : selected.mostTransactions (relatch ++ commit) ≤ selected.mostTransactions commit + 2 :=
    State.mostTransactions_relatch_le (s := selected) rfl rfl (groupBit p) value commit
  have hlast : selected.mostTransactions commit ≤ 3 := by
    simpa [State.mostTransactions] using
      selected.mostTransactions_paged_le (Line.isData_writeByte control outputTrigger) control []
  calc s.mostTransactions (configureOutputLines s.cfg p value)
    _ = s.mostTransactions (pagedLines s.cfg group (.readByte group) ++ (modify ++ (relatch ++ commit))) := by
      simp [configureOutputLines, group, control, modify, relatch, commit]
    _ ≤ selected.mostTransactions (modify ++ (relatch ++ commit)) + 3 :=
      s.mostTransactions_paged_le (Line.isData_readByte group) group _
    _ = selected.mostTransactions (relatch ++ commit) + 1 + 3 :=
      congrArg (· + 3) (State.mostTransactions_paged_again (s := selected) (Line.isData_writeModified group _ value) rfl rfl _)
    _ ≤ 10 := by omega

/-- No failure of an output configure is tolerated (R231). -/
theorem raisesOnFailure_configureOutput (c : Params) (p : Fin 16) (value : Bool) :
    RaisesOnFailure (configureOutputLines c p value) := by
  have paged : ∀ {addr data}, (∀ w tix, Line.failed w tix data = w.raise (.busError tix)) →
      RaisesOnFailure (pagedLines c addr data) := by
    intro addr data hd line hl
    simp only [pagedLines, ensureChannel, List.mem_cons, List.not_mem_nil, or_false] at hl
    rcases hl with rfl | rfl | rfl
    · exact fun _ _ => rfl
    · exact fun _ _ => rfl
    · exact hd
  have append : ∀ {l₁ l₂}, RaisesOnFailure l₁ → RaisesOnFailure l₂ → RaisesOnFailure (l₁ ++ l₂) :=
    fun h₁ h₂ line hl => (List.mem_append.1 hl).elim (h₁ line) (h₂ line)
  have relatch : RaisesOnFailure (relatchLines c (c.groupOf p) (groupBit p) value) := by
    unfold relatchLines
    split
    · exact append (paged fun _ _ => rfl) (paged fun _ _ => rfl)
    · exact paged fun _ _ => rfl
  exact append (append (append (paged fun _ _ => rfl) (paged fun _ _ => rfl)) relatch) (paged fun _ _ => rfl)

/-! ### How long a procedure is -/

theorem withEffective_todo_length_le {n : Nat} (base off : Addr) {f : Addr → Work} (h : ∀ a, (f a).todo.length ≤ n) :
    (withEffective base off f).todo.length ≤ n := by
  unfold withEffective
  split
  · exact h _
  · exact Nat.zero_le n

theorem withBlockCount_todo_length_le {n : Nat} (c : Params) (count : Nat) {w : Work} (h : w.todo.length ≤ n) :
    (withBlockCount c count w).todo.length ≤ n := by
  unfold withBlockCount
  split
  · exact h
  · exact Nat.zero_le n

theorem withPin_todo_length_le {n : Nat} (pin : Byte) (reply : Reply) {f : Fin 16 → Work}
    (h : ∀ p, (f p).todo.length ≤ n) : (withPin pin reply f).todo.length ≤ n := by
  unfold withPin
  split
  · exact Nat.zero_le n
  · exact h _

theorem sfpPollWork_todo_length_le (c : Params) (slot : Byte) : (sfpPollWork c slot).todo.length ≤ 10 := by
  unfold sfpPollWork whenHasSfp withSlot
  split
  · split
    · exact Nat.zero_le 10
    · exact le_rfl
  · exact Nat.zero_le 10

/-! ### No command issues more than ten transactions -/

/-- R23: no command issues more than ten transactions. Only an output configure has more than ten lines. -/
theorem workOf_issuesAtMost (i : Instr) (s : State) : (s.accept (workOf s.cfg i)).IssuesAtMost 10 := by
  have short : ∀ {w : Work}, w.todo.length ≤ 10 → (s.accept w).IssuesAtMost 10 := fun h =>
    State.issuesAtMost_of_linesLeft (by rw [State.linesLeft_busy (State.accept_seq s _)]; omega)
  have access : ∀ c addr data, (pagedLines c addr data).length ≤ 10 := fun _ _ _ => by simp [pagedLines]
  cases i with
  | muxSel | muxClose | inval | prsEnsure => exact short (show 1 ≤ 10 by decide)
  | prsWrb | prsRdb => exact short (access ..)
  | prsWrblk | prsRdblk => exact short (withBlockCount_todo_length_le _ _ (access ..))
  | prsWrbo | prsRdbo => exact short (withEffective_todo_length_le _ _ fun _ => access ..)
  | prsWrblko | prsRdblko =>
    exact short (withBlockCount_todo_length_le _ _ (withEffective_todo_length_le _ _ fun _ => access ..))
  | gpioCfgin => exact short (withPin_todo_length_le _ _ fun _ => access ..)
  | gpioRdmode => exact short (withPin_todo_length_le _ _ fun _ => by simp [Work.answering, readModeLines, pagedLines])
  | sfpPoll slot => exact short (sfpPollWork_todo_length_le s.cfg slot)
  | gpioCfgout pin value =>
    cases hp : pinOf pin with
    | none => exact short (by simp [workOf, gpioCfgoutWork, withPin_out hp, Work.answering])
    | some p =>
      have hw : workOf s.cfg (.gpioCfgout pin value) = .answering .empty (configureOutputLines s.cfg p value) :=
        withPin_eq hp _ _
      rw [hw]
      exact State.issuesAtMost_of_mostTransactions (State.accept_seq s _) (raisesOnFailure_configureOutput s.cfg p value)
        (State.mostTransactions_configureOutput_le p value (s.accept _))

/-! ### The core's own steps run a whole command -/

/-- The core does not look at the coming samples of the reset input. -/
theorem State.execLine_resetIn (s : State) (l : List Bool) :
    ({ s with resetIn := l } : State).execLine = { s.execLine with resetIn := l } := by
  unfold State.execLine
  dsimp only
  split
  · rfl
  · rfl
  · split
    · unfold State.endCommand State.raiseError
      split
      · rfl
      · split <;> rfl
    · rename_i line _ _
      split
      · cases line <;> rfl
      · unfold State.transact
        dsimp only
        split
        · cases line <;> rfl
        · rfl
        · rfl
        · rfl

theorem State.execLines_resetIn (n : Nat) (s : State) (l : List Bool) :
    ({ s with resetIn := l } : State).execLines n = { s.execLines n with resetIn := l } := by
  induction n generalizing s with
  | zero => rfl
  | succ n ih => rw [State.execLines, State.execLine_resetIn, ih, State.execLines]

theorem State.IssuesAtMost.with_resetIn {n : Nat} {s : State} (h : s.IssuesAtMost n) (l : List Bool) :
    ({ s with resetIn := l } : State).IssuesAtMost n := by
  induction h with
  | rest h => exact .rest h
  | quiet h _ ih => exact .quiet h (by rwa [State.execLine_resetIn])
  | issue h _ ih => exact .issue h (by rwa [State.execLine_resetIn])

theorem stepN_succ {n : Nat} {s t : State} (h : step s = .next t) : stepN (n + 1) s = stepN n t := by
  simp [stepN, h]

/-- The reset input is not asserted in this step, nor in the `n` steps after it. -/
theorem not_reset_of_take {n : Nat} {l : List Bool} (h : ∀ b ∈ l.take (n + 1), b = false) :
    l.head? ≠ some true ∧ ∀ b ∈ l.tail.take n, b = false := by
  cases l with
  | nil => simp
  | cons b l => simpa using h

/-- A step of a busy core executes some of its lines, at least one; after it the core is at rest, or it has issued one of its
transactions and is about to issue another. -/
theorem step_executes_lines {n : Nat} {s : State} {tix : BitVec 8} {w : Work} (hw : s.cfg.WellFormed)
    (hs : s.seq = .busy tix (some w)) (hn : s.IssuesAtMost (n + 1)) (hr : s.resetIn.head? ≠ some true) :
    ∃ m, let t : State := { s.execLines (m + 1) with resetIn := s.resetIn.tail }
      step s = .next t ∧ (t.linesLeft = 0 ∨ t.issuesNext = true ∧ t.IssuesAtMost n) := by
  obtain ⟨m, hm⟩ := State.coreStep_eq_execLines { s with resetIn := s.resetIn.tail }
  have hcore := (hn.with_resetIn s.resetIn.tail).coreStep
  rw [hm, State.execLines_resetIn] at hcore
  exact ⟨m, by rw [step_of_busy hw hs hr, hm, State.execLines_resetIn], hcore⟩

/-- A core that is to issue at most `n + 1` transactions comes to rest within `n + 1` steps, at least one, and executes its lines in
them (R9). -/
theorem stepN_executes_lines {n : Nat} {s : State} {tix : BitVec 8} {w : Work} (hw : s.cfg.WellFormed)
    (hs : s.seq = .busy tix (some w)) (hn : s.IssuesAtMost (n + 1)) (hr : ∀ b ∈ s.resetIn.take (n + 1), b = false) :
    ∃ k m, 1 ≤ k ∧ k ≤ n + 1 ∧ (s.execLines m).linesLeft = 0 ∧
      stepN k s = .next { s.execLines m with resetIn := s.resetIn.drop k } := by
  have one : ∀ {n m : Nat} {s : State}, step s = .next { s.execLines m with resetIn := s.resetIn.tail } →
      (s.execLines m).linesLeft = 0 → ∃ k m, 1 ≤ k ∧ k ≤ n + 1 ∧ (s.execLines m).linesLeft = 0 ∧
        stepN k s = .next { s.execLines m with resetIn := s.resetIn.drop k } :=
    fun hstep hrest => ⟨1, _, le_rfl, by omega, hrest, by rw [stepN_succ hstep, List.drop_one]; rfl⟩
  induction n generalizing s tix w with
  | zero =>
    obtain ⟨m, hstep, hrest | ⟨hissues, hnone⟩⟩ := step_executes_lines hw hs hn (not_reset_of_take hr).1
    · exact one hstep hrest
    · obtain ⟨_, h, _⟩ := hnone.execLine_issue hissues
      omega
  | succ n ih =>
    obtain ⟨hhead, htail⟩ := not_reset_of_take hr
    obtain ⟨m, hstep, hrest | ⟨hissues, hmore⟩⟩ := step_executes_lines hw hs hn hhead
    · exact one hstep hrest
    · obtain ⟨_, _, hbusy, _⟩ := State.busy_of_issuesNext hissues
      obtain ⟨k, m', _, hk, hrest, hsteps⟩ := ih (by rwa [State.execLines_cfg]) hbusy hmore htail
      have hlines : ({ s.execLines (m + 1) with resetIn := s.resetIn.tail } : State).execLines m' =
          { s.execLines (m + 1 + m') with resetIn := s.resetIn.tail } := by
        rw [State.execLines_add (m + 1) m']
        exact State.execLines_resetIn m' (s.execLines (m + 1)) s.resetIn.tail
      rw [hlines] at hrest hsteps
      refine ⟨k + 1, m + 1 + m', by omega, by omega, hrest, ?_⟩
      rw [stepN_succ hstep, ← List.drop_tail]
      exact hsteps

/-! ### The statements -/

/-- Settles O15, by what every line, the acceptance of a frame and the reset input keep. -/
theorem parametersNeverChange : Obligations.ParametersNeverChange := by
  refine ⟨fun s t h => ?_, fun s hw => ⟨if_neg hw, fun i => ?_⟩⟩
  · refine step_induct (P := fun t => t.cfg = s.cfg ∧ s.respPort <+: t.respPort ∧ s.busLog <+: t.busLog) h
      ⟨rfl, by simp, by simp⟩ (fun _ _ hu => hu) (fun _ hu => hu) (fun _ _ _ _ hu => hu) ?_
    intro u ⟨hcfg, hresp, hlog⟩
    obtain ⟨hcfg', _, _, hresp', hlog'⟩ := u.execLine_frame
    exact ⟨hcfg'.trans hcfg, hresp.trans hresp', hlog.trans hlog'⟩
  · rw [exec_eq_runCommand]
    exact if_neg hw

/-- Settles O59: the core's own step either issues the one transaction in front of which it settles, or ends the command. -/
theorem eachStepIsAtMostOneTransaction : Obligations.EachStepIsAtMostOneTransaction := by
  intro s t tix w hs hreset h
  rw [step_of_busy (step_eq_next h).1 hs hreset] at h
  cases h
  obtain ⟨hcmd, hin⟩ := State.coreStep_inputs { s with resetIn := s.resetIn.tail }
  exact ⟨hcmd, hin, State.coreStep_cases hs⟩

/-- Settles O8: a command issues at most ten transactions, so ten of the core's own steps bring it where `exec` ends. -/
theorem stepRunsTheDecodedCommand : Obligations.StepRunsTheDecodedCommand := by
  intro s hw hs hr
  obtain ⟨hhead, htail⟩ := not_reset_of_take hr
  refine ⟨fun frame later i hc hd => ?_, fun hc => step_of_not_offered hw hs hc hhead⟩
  have haccept := step_of_offered hw hs hc hhead
  rw [frameWork_of_decode hd] at haccept
  refine ⟨haccept, ?_⟩
  let offered : State := { s with cmdPort := later }
  have hn := (workOf_issuesAtMost i offered).with_resetIn s.resetIn.tail
  obtain ⟨k, m, hk1, hk10, hrest, hsteps⟩ :=
    stepN_executes_lines (s := { offered.accept (workOf s.cfg i) with resetIn := s.resetIn.tail }) (n := 9) hw rfl hn htail
  rw [State.execLines_resetIn] at hrest hsteps
  refine ⟨k, _, hk1, hk10, (exec_eq_runCommand i offered).trans (runCommand_eq hw rfl hrest), ?_⟩
  rw [stepN_succ haccept, ← List.drop_tail]
  exact hsteps

end Sys2Proof.Machine
end

section
/-! Coherence (spec/10_state.md rule R34, spec/20_memory.md rule R66, spec/41_paged.md rules R151 and R153): what a transaction of
the core does to what the caches stand for, that every procedure selects the DPLL before it writes the window, and that the caches
stay equal to the devices' state. -/

namespace Sys2Proof.Machine

/-! ### Which requests move what the caches stand for -/

/-- Only the mux control write of a channel selects it (R28), and only the write of a `PageSelect` moves the window (R29, R63):
every other branch of `Devices.classify` gives an access of another kind. -/
theorem Devices.classify_moves (c : Params) (d : Devices) (window : Bool) (r : BusRequest) :
    (∀ chan, d.classify c window r = .muxSelect chan → c.MuxWrite chan r) ∧
      ∀ upper, d.classify c window r = .window upper → window = true := by
  cases r with
  | wb dev reg value =>
    simp only [Devices.classify, Devices.dpllAccess, regionWrite]
    split
    · rename_i hreg
      exact ⟨fun chan h => by cases h; rw [Params.MuxWrite, hreg.1, hreg.2], nofun⟩
    · repeat' split
      all_goals exact ⟨nofun, nofun⟩
  | wk dev reg bytes =>
    simp only [Devices.classify, Devices.dpllAccess, regionWrite]
    repeat' split
    case isTrue.isTrue hwindow => exact ⟨nofun, fun _ _ => hwindow.1⟩
    all_goals exact ⟨nofun, nofun⟩
  | rb | rk =>
    simp only [Devices.classify, Devices.classifyRead, Devices.dpllAccess, regionRead]
    repeat' split
    all_goals exact ⟨nofun, nofun⟩

/-- A request that is neither a mux write nor a window write leaves the multiplexer and the window where they are. -/
theorem take_keeps_selects {c : Params} {d d' : Devices} {r : BusRequest} {extent : Nat} (hmux : ∀ chan, ¬ c.MuxWrite chan r)
    (h : d' ∈ d.take c false r extent) : d'.muxSel = d.muxSel ∧ d'.winUpper = d.winUpper := by
  obtain ⟨hselect, hwindow⟩ := d.classify_moves c false r
  unfold Devices.take at h
  split at h
  case h_1 chan hcl => exact absurd (hselect chan hcl) (hmux chan)
  case h_2 upper hcl => cases hwindow upper hcl
  case h_6 => split at h <;> cases h; exact ⟨rfl, rfl⟩
  all_goals cases h; exact ⟨rfl, rfl⟩

/-! ### One transaction keeps the caches coherent -/

/-- R34: the devices hold what the caches say. -/
abbrev Devices.Matches (mux page : Option Byte) (d : Devices) : Prop :=
  (∀ c, mux = some c → d.muxSel = c) ∧ ∀ u, page = some u → d.winUpper = u

theorem coherent_iff {s : State} : Coherent s ↔ ∀ d ∈ s.env.devices, d.Matches s.mux s.page := Iff.rfl

theorem Devices.Matches.unknown (d : Devices) : d.Matches none none := ⟨nofun, nofun⟩

/-- A change of the pins alone does not concern the caches. -/
theorem Devices.Matches.sameBut {mux page : Option Byte} {d d' : Devices} (h : d.Matches mux page) (hs : SameBut d d') :
    d'.Matches mux page :=
  ⟨fun c hc => hs.muxSel.trans (h.1 c hc), fun u hu => hs.winUpper.trans (h.2 u hu)⟩

/-- R130: a mux write that succeeds makes the mux cache equal to the multiplexer, and the page cache unknown. -/
theorem Devices.Matches.muxWrite {c : Params} {d d' : Devices} {window : Bool} {chan : Byte} {r : BusRequest}
    (hr : c.MuxWrite chan r) (h : d' ∈ d.take c window r wholeExtent) : d'.Matches (some chan) none := by
  subst hr
  rw [take_muxWrite h]
  exact ⟨fun _ hc => Option.some.inj hc, nofun⟩

/-- R151: a window write that succeeds, with the DPLL selected, makes the page cache equal to the window. -/
theorem Devices.Matches.windowWrite {c : Params} {d d' : Devices} {mux page : Option Byte} {addr : Addr} {r : BusRequest}
    (hd : d.Matches mux page) (hsel : mux = some c.dpllChannel) (hr : c.WindowWrite addr r)
    (h : d' ∈ d.take c true r wholeExtent) : d'.Matches mux (some (upperOf addr)) := by
  subst hr
  rw [take_windowWrite (hd.1 _ hsel) h]
  exact ⟨hd.1, fun _ hu => Option.some.inj hu⟩

/-- A data transaction that succeeds leaves coherent caches coherent. -/
theorem Devices.Matches.data {c : Params} {d d' : Devices} {mux page : Option Byte} {r : BusRequest}
    (hd : d.Matches mux page) (hr : ∀ chan, ¬ c.MuxWrite chan r) (h : d' ∈ d.take c false r wholeExtent) :
    d'.Matches mux page := by
  obtain ⟨hmux, hwin⟩ := take_keeps_selects hr h
  exact ⟨fun c hc => hmux.trans (hd.1 c hc), fun u hu => hwin.trans (hd.2 u hu)⟩

/-- R66: where the transaction of a line succeeds, the devices hold what the caches say after it, if the line is no window write or
the DPLL is selected. -/
theorem Line.commit_matches {s : State} {line : Line} {bytes : List Byte} {r : BusRequest} {d d' : Devices}
    (hne : s.cfg.muxAddr ≠ s.cfg.dpllAddr) (hr : line.request s.cfg s.mux s.page bytes = some r)
    (hsel : line.isWindow = true → s.mux = some s.cfg.dpllChannel) (hd : d.Matches s.mux s.page)
    (h : d' ∈ d.take s.cfg line.isWindow r wholeExtent) : d'.Matches (line.commit s).mux (line.commit s).page := by
  cases line with
  | muxSelect | selectSlot | closeMux => exact .muxWrite (selectRequest_eq hr).2 h
  | pageSelect addr => exact hd.windowWrite (hsel rfl) (windowRequest_eq hr).2 h
  | invalidate mask => cases hr
  | writeByte | writeBlock | readByte | readBlock | writeModified | writeBack | readInfo | readDiag | readStatus =>
    refine hd.data (fun chan hmux => ?_) h
    -- the request is a write to `DPLL_ADDR`, where the multiplexer is not, or a read
    cases hr
    simp_all [Params.MuxWrite]

/-- R133: a line that issues nothing forgets caches at most. -/
theorem Line.pass_matches {s : State} {d : Devices} (line : Line) (h : d.Matches s.mux s.page) :
    d.Matches (line.pass s).mux (line.pass s).page := by
  cases line with
  | invalidate mask =>
    simp only [Line.pass, State.invalidate_mux, State.invalidate_page]
    exact ⟨fun c hc => h.1 c (by split at hc <;> simp_all), fun u hu => h.2 u (by split at hu <;> simp_all)⟩
  | _ => exact h

/-! ### Every procedure selects the DPLL before it writes the window -/

/-- The caches after a line that issues nothing depend on the caches before it only. -/
theorem Line.pass_mux (line : Line) {s t : State} (h : t.mux = s.mux) : (line.pass t).mux = (line.pass s).mux := by
  cases line <;> simp [Line.pass, h]

theorem Line.pass_page (line : Line) {s t : State} (h : t.page = s.page) : (line.pass t).page = (line.pass s).page := by
  cases line <;> simp [Line.pass, h]

/-- Whether the lines select the DPLL first depends on the parameters and the caches only. -/
theorem State.SelectsBeforeWindows.congr {lines : List Line} {s t : State} (h : s.SelectsBeforeWindows lines)
    (hc : t.cfg = s.cfg) (hm : t.mux = s.mux) (hp : t.page = s.page) : t.SelectsBeforeWindows lines := by
  induction lines generalizing s t with
  | nil => trivial
  | cons line rest ih =>
    revert h
    simp only [State.SelectsBeforeWindows, hc, hm, hp]
    cases line.request s.cfg s.mux s.page [] with
    | none => exact fun h => ih h (by simpa using hc) (line.pass_mux hm) (line.pass_page hp)
    | some r => exact fun h => ⟨h.1, ih h.2 (by simpa using hc) (line.commit_mux s hm) (line.commit_page s hp)⟩

/-- Lines without a window write need no select. -/
theorem State.selectsBeforeWindows_of_no_window {lines : List Line} (h : ∀ line ∈ lines, line.isWindow = false) (s : State) :
    s.SelectsBeforeWindows lines := by
  induction lines generalizing s with
  | nil => trivial
  | cons line rest ih =>
    have hrest := ih fun l hl => h l (List.mem_cons_of_mem _ hl)
    unfold State.SelectsBeforeWindows
    split
    · exact hrest _
    · exact ⟨by simp [h line (by simp)], hrest _⟩

/-- Whatever the caches are, the lines select the DPLL before each window write they issue. -/
def SelectsFirst (c : Params) (lines : List Line) : Prop := ∀ s : State, s.cfg = c → s.SelectsBeforeWindows lines

theorem SelectsFirst.of_no_window {lines : List Line} (h : ∀ line ∈ lines, line.isWindow = false) (c : Params) :
    SelectsFirst c lines := fun s _ => s.selectsBeforeWindows_of_no_window h

theorem State.SelectsBeforeWindows.append {first later : List Line} {s : State} (h : s.SelectsBeforeWindows first)
    (h' : SelectsFirst s.cfg later) : s.SelectsBeforeWindows (first ++ later) := by
  induction first generalizing s with
  | nil => exact h' s rfl
  | cons line rest ih =>
    simp only [List.cons_append, State.SelectsBeforeWindows] at h ⊢
    split at h
    · exact ih h (by simpa using h')
    · exact ⟨h.1, ih h.2 (by simpa using h')⟩

theorem SelectsFirst.append {c : Params} {first later : List Line} (h : SelectsFirst c first) (h' : SelectsFirst c later) :
    SelectsFirst c (first ++ later) := fun s hs => (h s hs).append (hs ▸ h')

/-- R153: a paged access does, "in this order, `EnsureChannel()`, then `PageSelect(upper, lower)`". -/
theorem SelectsFirst.paged (c : Params) (addr : Addr) {data : Line} (hd : data.isWindow = false) :
    SelectsFirst c (pagedLines c addr data) := by
  rintro s rfl
  have hdata : ∀ t : State, t.SelectsBeforeWindows [data] := State.selectsBeforeWindows_of_no_window (by simpa using hd)
  have hpage : ∀ t : State, t.mux = some t.cfg.dpllChannel → t.SelectsBeforeWindows [.pageSelect addr, data] := by
    intro t ht
    unfold State.SelectsBeforeWindows
    split
    · exact hdata _
    · exact ⟨fun _ => ht, hdata _⟩
  unfold pagedLines ensureChannel State.SelectsBeforeWindows
  split
  · rename_i hnone
    exact hpage s (by simpa [Line.request, selectRequest] using hnone)
  · exact ⟨nofun, hpage _ rfl⟩

theorem SelectsFirst.raising (c : Params) (e : CommandError) : SelectsFirst c (Work.raising e).todo := fun _ _ => trivial

theorem SelectsFirst.withEffective {c : Params} (base off : Addr) {f : Addr → Work} (h : ∀ a, SelectsFirst c (f a).todo) :
    SelectsFirst c (withEffective base off f).todo := by
  unfold Machine.withEffective
  split
  · exact h _
  · exact .raising c _

theorem SelectsFirst.withBlockCount {c : Params} (n : Nat) {w : Work} (h : SelectsFirst c w.todo) :
    SelectsFirst c (withBlockCount c n w).todo := by
  unfold Machine.withBlockCount
  split
  · exact h
  · exact .raising c _

theorem SelectsFirst.withPin {c : Params} (pin : Byte) (reply : Reply) {f : Fin 16 → Work} (h : ∀ p, SelectsFirst c (f p).todo) :
    SelectsFirst c (withPin pin reply f).todo := by
  unfold Machine.withPin
  split
  · exact fun _ _ => trivial
  · exact h _

theorem SelectsFirst.configureOutput (c : Params) (p : Fin 16) (value : Bool) :
    SelectsFirst c (configureOutputLines c p value) := by
  have relatch : SelectsFirst c (relatchLines c (c.groupOf p) (groupBit p) value) := by
    unfold relatchLines
    split
    · exact .append (.paged c _ rfl) (.paged c _ rfl)
    · exact .paged c _ rfl
  exact .append (.append (.append (.paged c _ rfl) (.paged c _ rfl)) relatch) (.paged c _ rfl)

theorem SelectsFirst.sfpPoll (c : Params) (slot : Byte) : SelectsFirst c (sfpPollWork c slot).todo := by
  refine .of_no_window (fun line hl => ?_) c
  obtain ⟨_, i, _, hl⟩ := mem_sfpPollWork hl
  simp only [pollLines, readVendorInfo, readDiagnostics, List.mem_append, List.mem_cons, List.not_mem_nil, or_false] at hl
  rcases hl with rfl | ((rfl | rfl | rfl) | rfl | rfl | rfl | rfl) | rfl | rfl <;> rfl

/-- R151, R153: every command's procedure selects the DPLL before each window write. -/
theorem workOf_selectsFirst (c : Params) (i : Instr) : SelectsFirst c (workOf c i).todo := by
  cases i with
  | muxSel | muxClose | inval | prsEnsure => exact .of_no_window (List.forall_mem_singleton.2 rfl) c
  | prsWrb | prsRdb => exact .paged c _ rfl
  | prsWrblk | prsRdblk => exact .withBlockCount _ (.paged c _ rfl)
  | prsWrbo | prsRdbo => exact .withEffective _ _ fun _ => .paged c _ rfl
  | prsWrblko | prsRdblko => exact .withBlockCount _ (.withEffective _ _ fun _ => .paged c _ rfl)
  | gpioCfgin pin => exact .withPin pin _ fun _ => .paged c _ rfl
  | gpioCfgout pin value => exact .withPin pin _ fun p => .configureOutput c p value
  | gpioRdmode pin => exact .withPin pin _ fun _ => .append (.paged c _ rfl) (.paged c _ rfl)
  | sfpPoll slot => exact .sfpPoll c slot

theorem frameWork_selectsFirst (c : Params) (frame : List Byte) : SelectsFirst c (frameWork c frame).todo := by
  unfold frameWork
  split
  · exact workOf_selectsFirst c _
  · exact .raising c _

/-- After a failed transaction the command writes no window: of the lines left, at most the close is executed. -/
theorem Line.failed_no_window {c : Params} {mux page : Option Byte} {bytes : List Byte} {line : Line} {r : BusRequest}
    (hr : line.request c mux page bytes = some r) (w : Work) (tix : BitVec 8) :
    ∀ l ∈ (line.failed w tix).todo, l.isWindow = false := by
  have close : ∀ l ∈ w.toClose.todo, l.isWindow = false := by
    intro l hl
    obtain rfl : l = .closeMux := by simpa using (List.mem_filter.1 hl).2
    rfl
  cases line with
  | selectSlot | readInfo | readDiag | readStatus => exact close
  | closeMux =>
    simp only [Line.failed, Work.closeFailed]
    split <;> exact nofun
  | invalidate mask => cases hr
  | _ => exact nofun

/-! ### Every step keeps the caches coherent -/

/-- What the lines left ask for before and after one of them is executed. -/
theorem State.selectsBeforeWindows_cons {s : State} {line : Line} {rest : List Line} (h : s.SelectsBeforeWindows (line :: rest))
    (bytes : List Byte) :
    (line.request s.cfg s.mux s.page bytes = none → (line.pass s).SelectsBeforeWindows rest) ∧
      ∀ r, line.request s.cfg s.mux s.page bytes = some r →
        (line.isWindow = true → s.mux = some s.cfg.dpllChannel) ∧ (line.commit s).SelectsBeforeWindows rest := by
  have hsome := line.request_isSome s.cfg s.mux s.page [] bytes
  unfold State.SelectsBeforeWindows at h
  split at h
  · exact ⟨fun _ => h, fun r hr => by simp_all⟩
  · exact ⟨fun hr => by simp_all, fun _ _ => h⟩

/-- Of the devices as they were but for the pins, the caches say what they said. -/
theorem Coherent.of_sameBut {s t : State} (h : Coherent s) (hm : t.mux = s.mux) (hp : t.page = s.page)
    (hd : ∀ d' ∈ t.env.devices, ∃ d ∈ s.env.devices, SameBut d d') : Coherent t := by
  rw [coherent_iff, hm, hp]
  intro d' hd'
  obtain ⟨d, hmem, hsame⟩ := hd d' hd'
  exact (coherent_iff.1 h d hmem).sameBut hsame

/-- Nothing is claimed of unknown caches. -/
theorem Coherent.of_unknown {s : State} (hm : s.mux = none) (hp : s.page = none) : Coherent s := by
  rw [coherent_iff, hm, hp]
  exact fun d _ => .unknown d

theorem Synchronised.faithfulEnv {s : State} (h : Synchronised s) (ho : s.cfg.singleOwner = true) : Faithful s.cfg s :=
  ⟨rfl, ho, h.faithful⟩

/-- An idle core whose caches are coherent is synchronised. -/
theorem Synchronised.of_idle {s : State} (hs : s.seq = .idle) (hc : Coherent s) (hf : ∀ e ∈ s.env.script, e.Faithful) :
    Synchronised s := ⟨hc, hf, fun tix w h => by simp [hs] at h⟩

/-- R66: the transaction of a line keeps the caches coherent, however it ends. -/
theorem Synchronised.transact {s : State} {tix : BitVec 8} {w : Work} {line : Line} {rest : List Line} {r : BusRequest}
    (h : Synchronised s) (ho : s.cfg.singleOwner = true) (hne : s.cfg.muxAddr ≠ s.cfg.dpllAddr)
    (hs : s.seq = .busy tix (some w)) (ht : w.todo = line :: rest)
    (hr : line.request s.cfg s.mux s.page w.bytes = some r) :
    Synchronised (s.transact line r tix { w with todo := rest }) := by
  obtain ⟨hsel, hrest⟩ := (State.selectsBeforeWindows_cons (ht ▸ h.windows tix w hs) w.bytes).2 r hr
  obtain ⟨hfaith, hok | hfail | hreset⟩ :=
    transact_faithful (line := line) (r := r) (tix := tix) (w := { w with todo := rest }) (h.faithfulEnv ho)
  · obtain ⟨bytes, hseq, hmux, hpage, hdev⟩ := hok
    refine ⟨?_, hfaith.script, fun k v hkv => ?_⟩
    · rw [coherent_iff, hmux, hpage]
      intro d' hd'
      obtain ⟨d, hd, d₁, hsame, htake⟩ := hdev d' hd'
      exact Line.commit_matches hne hr hsel ((coherent_iff.1 h.coherent d hd).sameBut hsame) htake
    · obtain ⟨rfl, rfl⟩ : tix + 1 = k ∧ _ = v := by simpa [hseq] using hkv
      exact hrest.congr (by simpa using hfaith.cfg) hmux hpage
  · obtain ⟨hseq, hmux, hpage, hdev⟩ := hfail
    refine ⟨h.coherent.of_sameBut hmux hpage hdev, hfaith.script, fun k v hkv => ?_⟩
    rcases hseq with hseq | hseq <;> rw [hseq] at hkv <;> cases hkv
    exact State.selectsBeforeWindows_of_no_window (Line.failed_no_window hr _ tix) _
  · obtain ⟨hseq, hmux, hpage, _⟩ := hreset
    exact .of_idle hseq (.of_unknown hmux hpage) hfaith.script

/-- A line that issues nothing keeps the caches coherent. -/
theorem Synchronised.pass {s : State} {tix : BitVec 8} {w : Work} {line : Line} {rest : List Line} (h : Synchronised s)
    (hs : s.seq = .busy tix (some w)) (ht : w.todo = line :: rest)
    (hr : line.request s.cfg s.mux s.page w.bytes = none) :
    Synchronised ((line.pass s).goOn tix { w with todo := rest }) := by
  have hrest := (State.selectsBeforeWindows_cons (ht ▸ h.windows tix w hs) w.bytes).1 hr
  refine ⟨fun d hd => Line.pass_matches line (h.coherent d (by simpa using hd)), by simpa using h.faithful, fun k v hkv => ?_⟩
  cases hkv
  exact hrest.congr rfl rfl rfl

theorem Synchronised.execLine {s : State} (h : Synchronised s) (ho : s.cfg.singleOwner = true)
    (hne : s.cfg.muxAddr ≠ s.cfg.dpllAddr) : Synchronised s.execLine := by
  rcases s.execLine_cases with ⟨_, he⟩ | ⟨tix, w, hs, ⟨_, he⟩ | ⟨line, rest, ht, ⟨hr, he⟩ | ⟨r, hr, he⟩⟩⟩ <;> rw [he]
  · exact h
  · exact .of_idle (by simp) (fun d hd => by simpa using h.coherent d (by simpa using hd)) (by simpa using h.faithful)
  · exact h.pass hs ht hr
  · exact h.transact ho hne hs ht hr

/-- R23: a core that accepts a frame holds the lines of a procedure, which selects first. -/
theorem Synchronised.accept {s : State} (h : Synchronised s) (later : List (List Byte)) (frame : List Byte) :
    Synchronised (({ s with cmdPort := later } : State).accept (frameWork s.cfg frame)) := by
  refine ⟨h.coherent, h.faithful, fun tix w hw => ?_⟩
  cases hw
  exact frameWork_selectsFirst s.cfg frame _ rfl

/-- Settles O16: the reset input, the acceptance of a frame and every line keep the caches coherent, and a procedure selects the
DPLL before it writes the window. -/
theorem cachesStayCoherent : Obligations.CachesStayCoherent := by
  intro s t ho hne h hstep
  refine (step_induct (P := fun u => u.cfg = s.cfg ∧ Synchronised u) hstep ⟨rfl, h⟩ ?_ ?_ ?_ ?_).2
  · intro u l ⟨hcfg, hu⟩
    exact ⟨hcfg, hu.coherent, hu.faithful, fun tix w hw =>
      (hu.windows tix w hw).congr rfl rfl rfl⟩
  · exact fun u ⟨hcfg, hu⟩ => ⟨hcfg, .of_idle rfl (.of_unknown rfl rfl) hu.faithful⟩
  · exact fun u later frame _ ⟨hcfg, hu⟩ => ⟨hcfg, hu.accept later frame⟩
  · exact fun u ⟨hcfg, hu⟩ => ⟨u.execLine_frame.1.trans hcfg, hu.execLine (hcfg ▸ ho) (hcfg ▸ hne)⟩

end Sys2Proof.Machine
end

section
/-! The sequencer (spec/10_state.md rules R23, R24 and R35, spec/60_exceptions.md rule R241): how a command ends, how many
transactions it issues, a core whose transaction never completes, and the state after reset. -/

namespace Sys2Proof.Machine

/-! ### How a command ends -/

/-- Only the reset input, asserted while it is in flight, abandons a transaction (R260). -/
theorem Arrival.event_of_abandoned {c : Params} {log : List BusRecord} {window : Bool} {r : BusRequest} {a : Arrival}
    (h : a.completion c log window r = .abandoned) : ∃ taken, a.event = .reset taken := by
  have hfree : freeCompletion log r ≠ .abandoned := by
    unfold freeCompletion
    split <;> nofun
  have hown : ownCompletion c log window r a.devices ≠ .abandoned := by
    unfold ownCompletion Devices.completion
    split
    · exact hfree
    · split
      case h_6 => exact hfree
      all_goals nofun
  unfold Arrival.completion at h
  split at h
  case h_5 taken he => exact ⟨taken, he⟩
  case h_6 | h_7 | h_8 => exact absurd h hown
  all_goals cases h

/-- Every transaction of a trace has succeeded or failed (R52). -/
def AllCompleted (log : List BusRecord) : Prop := ∀ x ∈ log, x.completion ≠ .never ∧ x.completion ≠ .abandoned

theorem AllCompleted.nil : AllCompleted [] := nofun

theorem AllCompleted.concat {log : List BusRecord} {x : BusRecord} (h : AllCompleted log)
    (hx : x.completion ≠ .never ∧ x.completion ≠ .abandoned) : AllCompleted (log ++ [x]) :=
  List.forall_mem_append.2 ⟨h, List.forall_mem_singleton.2 hx⟩

/-- A command accepted in `s` is under way in `t`: it has lines left, all its transactions `log` have completed, and it has not
responded. -/
structure UnderWay (s t : State) (log : List BusRecord) : Prop where
  busy : ∃ tix w, t.seq = .busy tix (some w)
  respPort : t.respPort = s.respPort
  completed : AllCompleted log
  script : ∀ e ∈ t.env.script, e ∈ s.env.script

/-- A command accepted in `s` has ended in `t` with one response, and all its transactions `log` have completed (R23). -/
structure Responded (s t : State) (log : List BusRecord) : Prop where
  idle : t.seq = .idle
  response : ∃ frame, t.respPort = s.respPort ++ [frame]
  completed : AllCompleted log

/-- The last transaction of a command accepted in `s` never completes (R241). -/
structure Hung (s t : State) (log : List BusRecord) : Prop where
  busy : ∃ k, t.seq = .busy k none
  respPort : t.respPort = s.respPort
  last : ∃ before r, log = before ++ [⟨r, .never⟩] ∧ AllCompleted before

/-- The reset input has abandoned a command accepted in `s` with its last transaction in flight (R260). -/
structure Abandoned (s t : State) (log : List BusRecord) : Prop where
  idle : t.seq = .idle
  mux : t.mux = none
  page : t.page = none
  respPort : t.respPort = s.respPort
  asserted : ∃ taken, .reset taken ∈ s.env.script
  last : ∃ before r, log = before ++ [⟨r, .abandoned⟩] ∧ AllCompleted before

/-- A command accepted in `s` has got to `t` with the transactions `log`. -/
def Progress (s t : State) (log : List BusRecord) : Prop :=
  UnderWay s t log ∨ Responded s t log ∨ Hung s t log ∨ Abandoned s t log

theorem UnderWay.accept (s : State) (w : Work) : UnderWay s (s.accept w) [] :=
  ⟨⟨0, w, rfl⟩, rfl, .nil, fun _ he => he⟩

/-- The transaction of a line takes a command on, or leaves it hung or abandoned (R8, R241, R260). -/
theorem UnderWay.transact {s t : State} {log : List BusRecord} (h : UnderWay s t log) (line : Line) (r : BusRequest)
    (tix : BitVec 8) (w : Work) :
    ∃ record, (t.transact line r tix w).busLog = t.busLog ++ [record] ∧
      Progress s (t.transact line r tix w) (log ++ [record]) := by
  have hscript : ∀ e ∈ ((t.env.arrival t.cfg).after t.cfg line.isWindow r).script, e ∈ s.env.script :=
    fun e he => h.script e (arrive_rest_subset _ _ _ e he)
  rcases t.transact_cases line r tix w with ⟨bytes, _, _, he⟩ | ⟨_, he⟩ | ⟨_, he⟩ | ⟨hc, he⟩ <;> rw [he]
  · exact ⟨⟨r, .ok bytes⟩, by simp, .inl ⟨⟨tix + 1, _, Line.commit_seq _ line⟩, by simpa using h.respPort,
      h.completed.concat ⟨nofun, nofun⟩, by simpa using hscript⟩⟩
  · exact ⟨⟨r, .fail⟩, rfl, .inl ⟨⟨_, _, rfl⟩, h.respPort, h.completed.concat ⟨nofun, nofun⟩, hscript⟩⟩
  · exact ⟨⟨r, .never⟩, rfl, .inr (.inr (.inl ⟨⟨_, rfl⟩, h.respPort, log, r, rfl, h.completed⟩))⟩
  · obtain ⟨taken, hevent⟩ := Arrival.event_of_abandoned hc
    have hmem : BusEvent.reset taken ∈ t.env.script := by
      rcases arrive_event_mem t.cfg.singleOwner t.env.script t.env.devices with ha | ha
      · exact absurd (hevent.symm.trans ha) nofun
      · exact hevent ▸ ha
    exact ⟨⟨r, .abandoned⟩, rfl,
      .inr (.inr (.inr ⟨rfl, rfl, rfl, h.respPort, ⟨taken, h.script _ hmem⟩, log, r, rfl, h.completed⟩))⟩

/-- A line takes a command that is under way on, or ends it. -/
theorem UnderWay.execLine {s t : State} {log : List BusRecord} (h : UnderWay s t log) :
    ∃ more, t.execLine.busLog = t.busLog ++ more ∧ Progress s t.execLine (log ++ more) := by
  obtain ⟨tix, w, hbusy⟩ := h.busy
  rcases t.execLine_cases with ⟨hrest, _⟩ | ⟨k, v, _, ⟨_, he⟩ | ⟨line, rest, _, ⟨_, he⟩ | ⟨r, _, he⟩⟩⟩
  · simp [hbusy] at hrest
  · obtain ⟨frame, hframe⟩ := t.endCommand_respPort k v
    rw [he]
    exact ⟨[], by simp, .inr (.inl ⟨by simp, ⟨frame, by rw [hframe, h.respPort]⟩, by simpa using h.completed⟩)⟩
  · rw [he]
    exact ⟨[], by simp, .inl ⟨⟨k, _, rfl⟩, by simpa using h.respPort, by simpa using h.completed, by simpa using h.script⟩⟩
  · obtain ⟨record, hlog, hp⟩ := h.transact line r k { v with todo := rest }
    rw [he]
    exact ⟨[record], hlog, hp⟩

/-- A command that has ended stays as it is; one that is under way goes on. -/
theorem Progress.execLine {s t : State} {log : List BusRecord} (h : Progress s t log) :
    ∃ more, t.execLine.busLog = t.busLog ++ more ∧ Progress s t.execLine (log ++ more) := by
  have stays : t.execLine = t → ∃ more, t.execLine.busLog = t.busLog ++ more ∧ Progress s t.execLine (log ++ more) := by
    intro he
    rw [he]
    exact ⟨[], by simp, by simpa using h⟩
  rcases h with h | h | h | h
  · exact h.execLine
  · exact stays (State.execLine_idle h.idle)
  · obtain ⟨k, hbusy⟩ := h.busy
    exact stays (State.execLine_hung hbusy)
  · exact stays (State.execLine_idle h.idle)

/-- R23: a command has ended when the core has come to rest. -/
theorem exec_progress {i : Instr} {s t : State} (h : exec i s = .next t) :
    ∃ log, t.busLog = s.busLog ++ log ∧ (Responded s t log ∨ Hung s t log ∨ Abandoned s t log) := by
  obtain ⟨log, hlog, hp⟩ : ∃ log, t.busLog = s.busLog ++ log ∧ Progress s t log := by
    refine exec_induct (P := fun u => ∃ log, u.busLog = s.busLog ++ log ∧ Progress s u log) h
      ⟨[], by simp, .inl (.accept s _)⟩ ?_
    rintro u ⟨log, hlog, hp⟩
    obtain ⟨more, hmore, hp'⟩ := hp.execLine
    exact ⟨log ++ more, by rw [hmore, hlog, List.append_assoc], hp'⟩
  refine ⟨log, hlog, hp.resolve_left fun hway => ?_⟩
  obtain ⟨tix, w, hbusy⟩ := hway.busy
  have hrests := runCommand_rests (exec_eq_runCommand i s ▸ h)
  simp [hbusy] at hrests

/-- R5, R23, R260: a command leaves the parameters, the frames offered and the reset input alone. -/
theorem exec_inputs {i : Instr} {s t : State} (h : exec i s = .next t) :
    t.cfg = s.cfg ∧ t.cmdPort = s.cmdPort ∧ t.resetIn = s.resetIn := by
  refine exec_induct (P := fun u => u.cfg = s.cfg ∧ u.cmdPort = s.cmdPort ∧ u.resetIn = s.resetIn) h ⟨rfl, rfl, rfl⟩ ?_
  intro u ⟨hcfg, hcmd, hreset⟩
  obtain ⟨hcfg', hcmd', hreset', _, _⟩ := u.execLine_frame
  exact ⟨hcfg'.trans hcfg, hcmd'.trans hcmd, hreset'.trans hreset⟩

/-- Settles O11: a command is under way until a line ends it, and it has ended when the core comes to rest. -/
theorem everyCommandRespondsOnceOrHangsOrIsReset : Obligations.EveryCommandRespondsOnceOrHangsOrIsReset := by
  intro i s hw
  have hnext := exec_next i hw
  obtain ⟨log, hlog, hend⟩ := exec_progress hnext
  obtain ⟨hcfg, hcmd, hreset⟩ := exec_inputs hnext
  refine ⟨_, log, hnext, hlog, hcfg, hcmd, hreset, ?_⟩
  rcases hend with ⟨hidle, hresp, hall⟩ | ⟨hbusy, hresp, hlast⟩ | ⟨hidle, hmux, hpage, hresp, hscript, hlast⟩
  · exact .inl ⟨hidle, hresp, hall⟩
  · exact .inr (.inl ⟨hbusy, hresp, hlast⟩)
  · exact .inr (.inr ⟨hidle, hmux, hpage, hresp, hscript, hlast⟩)

/-! ### A core whose transaction never completes -/

theorem State.coreStep_rest {s : State} (h : s.linesLeft = 0) : s.coreStep = s := by
  rw [State.coreStep, State.settle_of_rest h, State.execLine_rest h, State.settle_of_rest h]

/-- R241: a step without the reset input leaves a hung core as it is. -/
theorem step_of_hung {s : State} {tix : BitVec 8} (hw : s.cfg.WellFormed) (hs : s.seq = .busy tix none)
    (h : s.resetIn.head? ≠ some true) : step s = .next { s with resetIn := s.resetIn.tail } := by
  rw [step_of_busy hw hs h]
  exact congrArg _ (State.coreStep_rest (s := { s with resetIn := s.resetIn.tail }) (State.linesLeft_hung hs))

/-- Settles O12, by induction on the number of steps. -/
theorem busyCoreWaitsForReset : Obligations.BusyCoreWaitsForReset := by
  intro n
  induction n with
  | zero => exact fun s k _ _ _ => rfl
  | succ n ih =>
    intro s k hw hs hr
    obtain ⟨hhead, htail⟩ := not_reset_of_take hr
    rw [stepN_succ (step_of_hung hw hs hhead), ← List.drop_tail]
    exact ih { s with resetIn := s.resetIn.tail } k hw hs htail

/-! ### How many transactions a command issues -/

/-- A core that is to issue at most `n` transactions adds at most `n` records to the bus master port, whatever it executes. -/
theorem State.IssuesAtMost.busLog_length_le {n : Nat} {s : State} (h : s.IssuesAtMost n) (m : Nat) :
    (s.execLines m).busLog.length ≤ s.busLog.length + n := by
  induction h generalizing m with
  | rest h => simp [State.execLines_rest h]
  | quiet hi _ ih =>
    cases m with
    | zero => exact Nat.le_add_right _ _
    | succ m => exact (State.execLine_quiet hi).1 ▸ ih m
  | issue hi _ ih =>
    cases m with
    | zero => exact Nat.le_add_right _ _
    | succ m =>
      obtain ⟨record, hrecord⟩ := State.execLine_busLog_of_issuesNext hi
      have := ih m
      simp only [hrecord, List.length_append, List.length_singleton] at this
      simp only [State.execLines]
      omega

/-- Settles O33: the procedure of every command issues at most ten transactions. -/
theorem noCommandIssuesMoreThanTen : Obligations.NoCommandIssuesMoreThanTen := by
  intro i s t log h hlog
  have hle := (workOf_issuesAtMost i s).busLog_length_le ((workOf s.cfg i).todo.length + 1)
  rw [← (exec_eq_next h).2, hlog, List.length_append, State.accept_busLog] at hle
  omega

/-! ### The state after reset -/

/-- An idle core that has put nothing on its ports, with an environment of which nothing is known, has the form. -/
theorem State.inv_of_blank {s : State} (hs : s.seq = .idle) (henv : s.env = { script := [], devices := none })
    (hlog : s.busLog = []) (hresp : s.respPort = []) : s.Inv where
  devices := by simp [henv]
  actors := by simp [henv]
  tix := by simp [hs]
  work := by simp [hs]
  requests := by simp [hlog]
  responses := by simp [hresp]

/-- Settles O14: after reset nothing is known of the devices, and nothing is on the ports (R35). -/
theorem resetSatisfiesInv : Obligations.ResetSatisfiesInv :=
  ⟨State.inv_of_blank rfl rfl rfl rfl, rfl, rfl, rfl⟩

end Sys2Proof.Machine
end

section
/-! The form of every state (spec/00_scope.md rule R5, spec/10_state.md rule R23, spec/20_memory.md rules R50 and R70,
spec/30_encoding.md rule R97): what one line puts on the bus and does to the environment, what is left of a command after it, and
that every step keeps `State.Inv`. -/

namespace Sys2Proof.Machine

/-! ### What one line puts on the bus -/

/-- R51: a transaction puts its own request on the bus master port, and moves the environment by it, however it ends. -/
theorem State.transact_traffic (line : Line) (r : BusRequest) (tix : BitVec 8) (w : Work) (s : State) :
    (s.transact line r tix w).env = (s.env.arrival s.cfg).after s.cfg line.isWindow r ∧
      ∃ completion, (s.transact line r tix w).busLog = s.busLog ++ [⟨r, completion⟩] := by
  rcases s.transact_cases line r tix w with ⟨bytes, _, _, he⟩ | ⟨_, he⟩ | ⟨_, he⟩ | ⟨_, he⟩ <;> rw [he] <;> simp

/-- R8: a line leaves the bus master port and the environment alone, or issues its one request. -/
theorem State.execLine_traffic (s : State) :
    (s.execLine.busLog = s.busLog ∧ s.execLine.env = s.env) ∨
    ∃ tix w line rest r completion, s.seq = .busy tix (some w) ∧ w.todo = line :: rest ∧
      line.request s.cfg s.mux s.page w.bytes = some r ∧ s.execLine.busLog = s.busLog ++ [⟨r, completion⟩] ∧
      s.execLine.env = (s.env.arrival s.cfg).after s.cfg line.isWindow r := by
  rcases s.execLine_cases with ⟨_, he⟩ | ⟨tix, w, hs, ⟨_, he⟩ | ⟨line, rest, ht, ⟨_, he⟩ | ⟨r, hr, he⟩⟩⟩
  · exact .inl (by simp [he])
  · exact .inl (by simp [he])
  · exact .inl (by simp [he])
  · obtain ⟨henv, completion, hlog⟩ := s.transact_traffic line r tix { w with todo := rest }
    exact .inr ⟨tix, w, line, rest, r, completion, hs, ht, hr, he ▸ hlog, he ▸ henv⟩

/-! ### Which lines are left -/

/-- Every line that the core still has to execute is one of `L`. -/
def State.LinesAmong (L : Line → Prop) (s : State) : Prop :=
  ∀ tix w, s.seq = .busy tix (some w) → ∀ line ∈ w.todo, L line

theorem State.LinesAmong.accept {L : Line → Prop} {w : Work} (h : ∀ line ∈ w.todo, L line) (s : State) :
    (s.accept w).LinesAmong L := by
  intro tix v hv
  cases hv
  exact h

/-- No line adds to the lines left. -/
theorem State.LinesAmong.execLine {L : Line → Prop} {s : State} (h : s.LinesAmong L) : s.execLine.LinesAmong L := by
  intro k v hv
  rcases s.execLine_cases with ⟨_, he⟩ | ⟨tix, w, hs, ⟨_, he⟩ | ⟨line, rest, ht, hline⟩⟩
  · exact h k v (he ▸ hv)
  · simp [he] at hv
  · have hrest : ∀ l ∈ rest, L l := fun l hl => h tix w hs l (by simp [ht, hl])
    rcases hline with ⟨_, he⟩ | ⟨r, _, he⟩ <;> rw [he] at hv
    · cases hv
      exact hrest
    · rcases s.transact_cases line r tix { w with todo := rest } with ⟨bytes, _, _, he⟩ | ⟨_, he⟩ | ⟨_, he⟩ | ⟨_, he⟩ <;>
        rw [he] at hv
      · obtain ⟨_, rfl⟩ : tix + 1 = k ∧ _ = v := by simpa using hv
        exact hrest
      · cases hv
        exact fun l hl => hrest l ((line.failed_sublist _ _).subset hl)
      · cases hv
      · cases hv

/-! ### How many transactions the lines left can issue -/

/-- Before and after one line is executed, whatever has been read. -/
theorem State.mostTransactions_cons (s : State) (line : Line) (rest : List Line) (bytes : List Byte) :
    (line.request s.cfg s.mux s.page bytes = none →
      s.mostTransactions (line :: rest) = (line.pass s).mostTransactions rest) ∧
    ∀ r, line.request s.cfg s.mux s.page bytes = some r →
      s.mostTransactions (line :: rest) = (line.commit s).mostTransactions rest + 1 := by
  have hsome := line.request_isSome s.cfg s.mux s.page [] bytes
  rw [State.mostTransactions]
  split
  · exact ⟨fun _ => rfl, fun r hr => by simp_all⟩
  · exact ⟨fun hr => by simp_all, fun _ _ => rfl⟩

theorem State.mostTransactions_le_length (lines : List Line) (s : State) : s.mostTransactions lines ≤ lines.length := by
  induction lines generalizing s with
  | nil => exact le_rfl
  | cons line rest ih =>
    unfold State.mostTransactions
    split
    · exact (ih _).trans (Nat.le_succ _)
    · exact Nat.succ_le_succ (ih _)

/-- R207: once the multiplexer is closed, closing it again issues nothing. -/
theorem State.mostTransactions_closes {lines : List Line} (h : ∀ line ∈ lines, line = .closeMux) {s : State}
    (hm : s.mux = some noChannel) : s.mostTransactions lines = 0 := by
  induction lines with
  | nil => rfl
  | cons line rest ih =>
    obtain ⟨rfl, hrest⟩ := List.forall_mem_cons.1 h
    rw [(s.mostTransactions_cons .closeMux rest []).1 (by simp [Line.request, selectRequest, hm])]
    exact ih hrest

/-- R207: lines that only close the multiplexer issue at most one transaction. -/
theorem State.mostTransactions_closes_le {lines : List Line} (h : ∀ line ∈ lines, line = .closeMux) (s : State) :
    s.mostTransactions lines ≤ 1 := by
  cases lines with
  | nil => exact Nat.zero_le 1
  | cons line rest =>
    obtain ⟨rfl, hrest⟩ := List.forall_mem_cons.1 h
    by_cases hm : s.mux = some noChannel
    · rw [State.mostTransactions_closes h hm]
      exact Nat.zero_le 1
    · rw [(s.mostTransactions_cons .closeMux rest []).2 (.wb s.cfg.muxAddr s.cfg.muxReg noChannel)
          (by simp [Line.request, selectRequest, hm]), State.mostTransactions_closes hrest rfl]

/-- R23: all but one of the procedures have at most ten lines. -/
theorem workOf_short_or_configureOutput (c : Params) (i : Instr) :
    (workOf c i).todo.length ≤ 10 ∨ ∃ p value, (workOf c i).todo = configureOutputLines c p value := by
  have access : ∀ addr data, (pagedLines c addr data).length ≤ 10 := fun _ _ => by simp [pagedLines]
  cases i with
  | muxSel | muxClose | inval | prsEnsure => exact .inl (show 1 ≤ 10 by decide)
  | prsWrb | prsRdb => exact .inl (access ..)
  | prsWrblk | prsRdblk => exact .inl (withBlockCount_todo_length_le _ _ (access ..))
  | prsWrbo | prsRdbo => exact .inl (withEffective_todo_length_le _ _ fun _ => access ..)
  | prsWrblko | prsRdblko =>
    exact .inl (withBlockCount_todo_length_le _ _ (withEffective_todo_length_le _ _ fun _ => access ..))
  | gpioCfgin => exact .inl (withPin_todo_length_le _ _ fun _ => access ..)
  | gpioRdmode => exact .inl (withPin_todo_length_le _ _ fun _ => by simp [Work.answering, readModeLines, pagedLines])
  | sfpPoll slot => exact .inl (sfpPollWork_todo_length_le c slot)
  | gpioCfgout pin value =>
    cases hp : pinOf pin with
    | none => exact .inl (by simp [workOf, gpioCfgoutWork, withPin_out hp, Work.answering])
    | some p => exact .inr ⟨p, value, congrArg Work.todo (withPin_eq hp _ _)⟩

/-- R23: a procedure issues at most ten transactions, whatever the caches are when it begins. -/
theorem workOf_mostTransactions_le (i : Instr) (s : State) : s.mostTransactions (workOf s.cfg i).todo ≤ 10 := by
  rcases workOf_short_or_configureOutput s.cfg i with h | ⟨p, value, h⟩
  · exact (s.mostTransactions_le_length _).trans h
  · rw [h]
    exact s.mostTransactions_configureOutput_le p value

/-! ### The latches of a command -/

/-- R233: no command begins with a `BusError` to raise. -/
theorem workOf_ending_ne_busError (c : Params) (i : Instr) (info : BitVec 8) :
    (workOf c i).ending ≠ .raise (.busError info) := by
  cases i with
  | muxSel | muxClose | inval | prsEnsure | prsWrb | prsRdb => nofun
  | prsWrblk | prsRdblk =>
    simp only [workOf, withBlockCount]
    split <;> nofun
  | prsWrbo | prsRdbo =>
    simp only [workOf, withEffective]
    split <;> nofun
  | prsWrblko | prsRdblko =>
    simp only [workOf, withBlockCount, withEffective]
    repeat' split
    all_goals nofun
  | gpioCfgin | gpioCfgout | gpioRdmode =>
    simp only [workOf, gpioCfginWork, gpioCfgoutWork, gpioRdmodeWork, withPin]
    split <;> nofun
  | sfpPoll =>
    simp only [workOf, sfpPollWork, whenHasSfp, withSlot]
    repeat' split
    all_goals nofun

/-- The form of the latches depends on the parameters and the caches only. -/
theorem Work.Inv.congr {s t : State} {tix : BitVec 8} {w : Work} (h : w.Inv s tix) (hc : t.cfg = s.cfg) (hm : t.mux = s.mux)
    (hp : t.page = s.page) : w.Inv t tix where
  transactions := by
    rw [State.mostTransactions_congr w.todo hc hm hp]
    exact h.transactions
  lines := hc ▸ h.lines
  ending := h.ending

theorem Work.Inv.tix_le {s : State} {tix : BitVec 8} {w : Work} (h : w.Inv s tix) : tix.toNat ≤ 10 :=
  (Nat.le_add_right _ _).trans h.transactions

/-- R23, R95: what the core holds of a frame that it has just accepted has the form. -/
theorem frameWork_inv (s : State) (frame : List Byte) : (frameWork s.cfg frame).Inv s 0 := by
  unfold frameWork
  split
  · rename_i i _
    exact ⟨by simpa using workOf_mostTransactions_le i s, fun line hl => ⟨i, hl⟩,
      fun info h => absurd h (workOf_ending_ne_busError s.cfg i info)⟩
  · exact ⟨by simp [Work.raising, State.mostTransactions], nofun, nofun⟩

section
variable {s : State} {tix : BitVec 8} {w : Work} {line : Line} {rest : List Line}

/-- A line that issues nothing keeps the form of the latches. -/
theorem Work.Inv.pass (h : w.Inv s tix) (ht : w.todo = line :: rest)
    (hr : line.request s.cfg s.mux s.page w.bytes = none) : ({ w with todo := rest } : Work).Inv (line.pass s) tix where
  transactions := by
    have := h.transactions
    rwa [ht, (s.mostTransactions_cons line rest w.bytes).1 hr] at this
  lines l hl := by simpa using h.lines l (by simp [ht, hl])
  ending := h.ending

/-- R23: a transaction that succeeds is one less to come. -/
theorem Work.Inv.commit (h : w.Inv s tix) (ht : w.todo = line :: rest) {r : BusRequest}
    (hr : line.request s.cfg s.mux s.page w.bytes = some r) (bytes : List Byte) :
    ({ w with todo := rest, bytes := bytes } : Work).Inv (line.commit s) (tix + 1) where
  transactions := by
    have := h.transactions
    rw [ht, (s.mostTransactions_cons line rest w.bytes).2 r hr] at this
    have hone : (1 : BitVec 8).toNat = 1 := rfl
    rw [BitVec.toNat_add_of_lt (by omega)]
    dsimp only
    omega
  lines l hl := by simpa using h.lines l (by simp [ht, hl])
  ending := h.ending

/-- R8, R203 to R208: after a failed transaction the command ends as it was to end, or with a `BusError` of this index; the lines
left are none, or those that close the multiplexer. -/
theorem Line.failed_cases {c : Params} {mux page : Option Byte} {bytes : List Byte} {r : BusRequest}
    (hr : line.request c mux page bytes = some r) (w : Work) (tix : BitVec 8) :
    (∀ l ∈ (line.failed w tix).todo, l = .closeMux) ∧
      ((line.failed w tix).ending = w.ending ∨ (line.failed w tix).ending = .raise (.busError tix)) := by
  have close : ∀ l ∈ w.toClose.todo, l = .closeMux := by simp [Work.toClose]
  cases line with
  | selectSlot => exact ⟨close, .inr rfl⟩
  | readInfo | readDiag | readStatus => exact ⟨close, .inl rfl⟩
  | closeMux =>
    simp only [Line.failed, Work.closeFailed]
    split
    · exact ⟨nofun, .inr rfl⟩
    · rename_i e he
      exact ⟨nofun, .inl he.symm⟩
  | invalidate => cases hr
  | muxSelect | pageSelect | writeByte | writeBlock | readByte | readBlock | writeModified | writeBack =>
    exact ⟨nofun, .inr rfl⟩

/-- R23, R207: a transaction that fails leaves at most the closing write to come. -/
theorem Work.Inv.failed (h : w.Inv s tix) (ht : w.todo = line :: rest) {r : BusRequest}
    (hr : line.request s.cfg s.mux s.page w.bytes = some r) : (line.failed { w with todo := rest } tix).Inv s tix := by
  obtain ⟨hclose, hending⟩ := Line.failed_cases hr { w with todo := rest } tix
  have htix : tix.toNat + 1 ≤ 10 := by
    have := h.transactions
    rw [ht, (s.mostTransactions_cons line rest w.bytes).2 r hr] at this
    omega
  refine ⟨?_, fun l hl => ?_, fun info hinfo => ?_⟩
  · have := s.mostTransactions_closes_le hclose
    omega
  · exact h.lines l (by simp [ht, (line.failed_sublist { w with todo := rest } tix).subset hl])
  · rcases hending with he | he <;> rw [he] at hinfo
    · exact h.ending info hinfo
    · cases hinfo
      omega

end

/-! ### Every line keeps the form of the state -/

/-- What a transaction leaves of the environment keeps its form (R70). -/
theorem BusEnv.after_wf {c : Params} {env : BusEnv} (hd : ∀ d ∈ env.devices, d.wf)
    (ha : ∀ d, BusEvent.external d ∈ env.script → d.wf) (window : Bool) (r : BusRequest) :
    (∀ d ∈ ((env.arrival c).after c window r).devices, d.wf) ∧
      ∀ d, BusEvent.external d ∈ ((env.arrival c).after c window r).script → d.wf := by
  refine ⟨fun d hmem => ?_, fun d hmem => ha d (arrive_rest_subset _ _ _ _ hmem)⟩
  obtain ⟨y, hy, htake⟩ := Option.bind_eq_some_iff.1 hmem
  have hwf : y.wf := arrive_devices (P := Devices.wf) c.singleOwner env.script env.devices
    (fun _ ext => Devices.wf_pins ext) (fun _ => ha) hd y hy
  exact Devices.take_wf hwf d htake

/-- The response that ends a command has the form of R97. -/
theorem State.endCommand_response {s : State} {tix : BitVec 8} {w : Work} (h : w.Inv s tix) :
    ∃ frame, (s.endCommand tix w).respPort = s.respPort ++ [frame] ∧ ResponseForm frame := by
  unfold State.endCommand
  split
  · exact ⟨_, rfl, .ok, tix, _, rfl, h.tix_le, nofun, nofun⟩
  · rename_i e he
    cases e with
    | busError info => exact ⟨_, rfl, .busError, info, [], rfl, h.ending info he, fun _ => rfl, nofun⟩
    | invalidArgument => exact ⟨_, rfl, .invalidArgument, 0, [], rfl, by decide, fun _ => rfl, fun _ => rfl⟩
    | illegalCommand => exact ⟨_, rfl, .illegalCommand, 0, [], rfl, by decide, fun _ => rfl, fun _ => rfl⟩

namespace State.Inv
variable {s : State}

/-- Every response has the form: a line adds one only where it ends the command. -/
theorem execLine_responses (h : s.Inv) : ∀ f ∈ s.execLine.respPort, ResponseForm f := by
  rcases s.execLine_cases with ⟨_, he⟩ | ⟨tix, w, hs, ⟨_, he⟩ | ⟨line, rest, _, ⟨_, he⟩ | ⟨r, _, he⟩⟩⟩ <;> rw [he]
  · exact h.responses
  · obtain ⟨frame, hresp, hform⟩ := State.endCommand_response (h.work tix w hs)
    rw [hresp]
    exact List.forall_mem_append.2 ⟨h.responses, List.forall_mem_singleton.2 hform⟩
  · simpa using h.responses
  · obtain ⟨_, _, _, hresp, _⟩ := s.transact_frame line r tix { w with todo := rest }
    rw [hresp]
    exact h.responses

/-- What the core holds of a command after a line has the form. -/
theorem execLine_seq (h : s.Inv) (k : BitVec 8) (work : Option Work) (hk : s.execLine.seq = .busy k work) :
    k.toNat ≤ 10 ∧ ∀ v, work = some v → v.Inv s.execLine k := by
  have held : ∀ {t : State} {tix : BitVec 8} {w : Work}, t.seq = .busy tix (some w) → w.Inv t tix →
      t.seq = .busy k work → k.toNat ≤ 10 ∧ ∀ v, work = some v → v.Inv t k := by
    intro t tix w ht hinv hk
    rw [ht] at hk
    cases hk
    exact ⟨hinv.tix_le, fun v hv => Option.some.inj hv ▸ hinv⟩
  rcases s.execLine_cases with ⟨_, he⟩ | ⟨tix, w, hs, ⟨_, he⟩ | ⟨line, rest, ht, ⟨hr, he⟩ | ⟨r, hr, he⟩⟩⟩ <;> rw [he] at hk ⊢
  · exact ⟨h.tix k work hk, fun v hv => h.work k v (hv ▸ hk)⟩
  · simp at hk
  · exact held (State.goOn_seq _ _ _) (((h.work tix w hs).pass ht hr).congr rfl rfl rfl) hk
  · have hw := h.work tix w hs
    rcases s.transact_cases line r tix { w with todo := rest } with ⟨bytes, _, _, he⟩ | ⟨_, he⟩ | ⟨_, he⟩ | ⟨_, he⟩ <;>
      rw [he] at hk ⊢
    · exact held (by simp) ((hw.commit ht hr (w.bytes ++ bytes)).congr (by simp) (line.commit_mux s rfl)
        (line.commit_page s rfl)) hk
    · exact held (State.goOn_seq _ _ _) ((hw.failed ht hr).congr rfl rfl rfl) hk
    · cases hk
      exact ⟨hw.tix_le, nofun⟩
    · cases hk

/-- Every request is one that some command issues (R50): a line left is a line of a command. -/
theorem execLine_requests (h : s.Inv) : ∀ x ∈ s.execLine.busLog, FromCore s.execLine.cfg x.request := by
  rw [s.execLine_frame.1]
  rcases s.execLine_traffic with ⟨hlog, _⟩ | ⟨tix, w, line, rest, r, completion, hs, ht, hr, hlog, _⟩ <;> rw [hlog]
  · exact h.requests
  · obtain ⟨i, hi⟩ := (h.work tix w hs).lines line (by simp [ht])
    exact List.forall_mem_append.2 ⟨h.requests, List.forall_mem_singleton.2 ⟨i, issues_of_mem hi hr⟩⟩

theorem execLine (h : s.Inv) : s.execLine.Inv := by
  obtain ⟨hdev, hact⟩ : (∀ d ∈ s.execLine.env.devices, d.wf) ∧
      ∀ d, BusEvent.external d ∈ s.execLine.env.script → d.wf := by
    rcases s.execLine_traffic with ⟨_, henv⟩ | ⟨_, _, line, _, r, _, _, _, _, _, henv⟩ <;> rw [henv]
    · exact ⟨h.devices, h.actors⟩
    · exact BusEnv.after_wf h.devices h.actors line.isWindow r
  exact
    { devices := hdev
      actors := hact
      tix := fun k work hk => (h.execLine_seq k work hk).1
      work := fun k v hk => (h.execLine_seq k (some v) hk).2 v rfl
      requests := h.execLine_requests
      responses := h.execLine_responses }

/-- R260: the reset input keeps the form. -/
theorem coreReset (h : s.Inv) : s.coreReset.Inv := ⟨h.devices, h.actors, nofun, nofun, h.requests, h.responses⟩

/-- R23: a core that accepts a frame keeps the form. -/
theorem accept (h : s.Inv) (later : List (List Byte)) (frame : List Byte) :
    (({ s with cmdPort := later } : State).accept (frameWork s.cfg frame)).Inv := by
  refine ⟨h.devices, h.actors, fun tix work ht => ?_, fun tix w ht => ?_, h.requests, h.responses⟩
  · cases ht
    decide
  · cases ht
    exact (frameWork_inv s frame).congr rfl rfl rfl

end State.Inv

/-- Settles O13: the reset input, the acceptance of a frame and every line keep the form of the state. -/
theorem stepKeepsInv : Obligations.StepKeepsInv := by
  intro s t h hstep
  refine step_induct hstep h (fun u l hu => ?_) (fun _ => State.Inv.coreReset) (fun u later frame _ hu => hu.accept later frame)
    fun _ => State.Inv.execLine
  exact ⟨hu.devices, hu.actors, hu.tix, fun tix w hw => (hu.work tix w hw).congr rfl rfl rfl, hu.requests, hu.responses⟩

/-! ### The requests of a command -/

/-- Settles O32: the lines left of a command are lines of its procedure, and these issue only its own requests. -/
theorem commandsIssueOnlyTheirOwnRequests : Obligations.CommandsIssueOnlyTheirOwnRequests := by
  intro i s t h
  refine (exec_induct (P := fun u => u.cfg = s.cfg ∧ u.LinesAmong (· ∈ (workOf s.cfg i).todo) ∧
    ∃ log, u.busLog = s.busLog ++ log ∧ ∀ x ∈ log, i.Issues s.cfg x.request) h ⟨rfl, .accept (fun _ => id) s, [], by simp, nofun⟩
    ?_).2.2
  rintro u ⟨hcfg, hlines, log, hlog, hissues⟩
  refine ⟨u.execLine_frame.1.trans hcfg, hlines.execLine, ?_⟩
  rcases u.execLine_traffic with ⟨hu, _⟩ | ⟨tix, w, line, rest, r, completion, hs, ht, hr, hu, _⟩ <;> rw [hu, hlog]
  · exact ⟨log, rfl, hissues⟩
  · refine ⟨log ++ [⟨r, completion⟩], List.append_assoc .., List.forall_mem_append.2 ⟨hissues, List.forall_mem_singleton.2 ?_⟩⟩
    exact issues_of_mem (hlines tix w hs line (by simp [ht])) (hcfg ▸ hr)

end Sys2Proof.Machine
end

section
/-! The paged accesses (spec/20_memory.md rules R57, R58 and R67, spec/41_paged.md rules R153 to R164): what the eight commands
have in common, what they do when the environment replies to every transaction, and the statements about the block commands and
about a paged access after `INVAL`. -/

namespace Sys2Proof.Machine

/-! ### One procedure for the eight commands -/

/-- R52: the device register at which a request begins. -/
def BusRequest.reg : BusRequest → Byte
  | .wb _ reg _ => reg
  | .wk _ reg _ => reg
  | .rb _ reg => reg
  | .rk _ reg _ => reg

/-- The line `data` is the data transaction `r` of a paged access to `addr` that answers with `reply`, the bytes read (R153 to
R161). -/
structure Line.Transfers (c : Params) (addr : Addr) (reply : Reply) (r : BusRequest) (data : Line) : Prop where
  reg : BusRequest.reg r = lowerOf addr
  request : ∀ mux page bytes, data.request c mux page bytes = some r
  commit : ∀ s, data.commit s = s
  failed : ∀ w tix, data.failed w tix = w.raise (.busError tix)
  isWindow : data.isWindow = false
  payload : ∀ bytes, bytes.length = readLength r → reply.payload c bytes = bytes

/-- A write answers with nothing, as it reads nothing. -/
theorem Reply.payload_empty {c : Params} {bytes : List Byte} (h : bytes.length = 0) : Reply.empty.payload c bytes = bytes :=
  (List.eq_nil_of_length_eq_zero h).symm

theorem Line.transfers_writeByte (c : Params) (addr : Addr) (v : Byte) :
    (Line.writeByte addr v).Transfers c addr .empty (.wb c.dpllAddr (lowerOf addr) v) :=
  ⟨rfl, fun _ _ _ => rfl, fun _ => rfl, fun _ _ => rfl, rfl, fun _ => Reply.payload_empty⟩

theorem Line.transfers_writeBlock (c : Params) (addr : Addr) (data : List Byte) :
    (Line.writeBlock addr data).Transfers c addr .empty (.wk c.dpllAddr (lowerOf addr) data) :=
  ⟨rfl, fun _ _ _ => rfl, fun _ => rfl, fun _ _ => rfl, rfl, fun _ => Reply.payload_empty⟩

theorem Line.transfers_readByte (c : Params) (addr : Addr) :
    (Line.readByte addr).Transfers c addr .bytesRead (.rb c.dpllAddr (lowerOf addr)) :=
  ⟨rfl, fun _ _ _ => rfl, fun _ => rfl, fun _ _ => rfl, rfl, fun _ _ => rfl⟩

theorem Line.transfers_readBlock (c : Params) (addr : Addr) (n : Nat) :
    (Line.readBlock addr n).Transfers c addr .bytesRead (.rk c.dpllAddr (lowerOf addr) n) :=
  ⟨rfl, fun _ _ _ => rfl, fun _ => rfl, fun _ _ => rfl, rfl, fun _ _ => rfl⟩

/-- R54: an address in base-and-offset form. -/
theorem withEffective_of_some {base off addr : Addr} (h : effectiveAddr base off = some addr) (f : Addr → Work) :
    withEffective base off f = f addr := by
  simp [withEffective, h]

theorem effectiveAddr_eq {base off : Addr} (h : base.toNat + off.toNat ≤ 0xFFFF) : effectiveAddr base off = some (base + off) :=
  if_pos h

/-- R153: a command that is one paged access has the lines of `pagedLines`, around its data transaction. -/
theorem workOf_access {c : Params} {i : Instr} {addr : Addr} {r : BusRequest} (h : i.access c = some (addr, r)) :
    ∃ data reply, workOf c i = .answering reply (pagedLines c addr data) ∧ data.Transfers c addr reply r := by
  cases i with
  | prsWrb a val => cases h; exact ⟨_, _, rfl, Line.transfers_writeByte ..⟩
  | prsRdb a => cases h; exact ⟨_, _, rfl, Line.transfers_readByte ..⟩
  | prsWrblk a data =>
    obtain ⟨hn, h⟩ := Option.ite_none_right_eq_some.1 h
    cases h
    exact ⟨_, _, withBlockCount_eq hn _, Line.transfers_writeBlock ..⟩
  | prsRdblk a cnt =>
    obtain ⟨hn, h⟩ := Option.ite_none_right_eq_some.1 h
    cases h
    exact ⟨_, _, withBlockCount_eq hn _, Line.transfers_readBlock ..⟩
  | prsWrbo base off val =>
    obtain ⟨a, ha, h⟩ := Option.map_eq_some_iff.1 h
    cases h
    exact ⟨_, _, withEffective_of_some ha _, Line.transfers_writeByte ..⟩
  | prsRdbo base off =>
    obtain ⟨a, ha, h⟩ := Option.map_eq_some_iff.1 h
    cases h
    exact ⟨_, _, withEffective_of_some ha _, Line.transfers_readByte ..⟩
  | prsWrblko base off data =>
    obtain ⟨hn, h⟩ := Option.ite_none_right_eq_some.1 h
    obtain ⟨a, ha, h⟩ := Option.map_eq_some_iff.1 h
    cases h
    exact ⟨_, _, (withBlockCount_eq hn _).trans (withEffective_of_some ha _), Line.transfers_writeBlock ..⟩
  | prsRdblko base off cnt =>
    obtain ⟨hn, h⟩ := Option.ite_none_right_eq_some.1 h
    obtain ⟨a, ha, h⟩ := Option.map_eq_some_iff.1 h
    cases h
    exact ⟨_, _, (withBlockCount_eq hn _).trans (withEffective_of_some ha _), Line.transfers_readBlock ..⟩
  | muxSel | muxClose | inval | prsEnsure | gpioCfgin | gpioCfgout | gpioRdmode | sfpPoll => cases h

/-- R153: a paged access of which every transaction succeeds. -/
theorem exec_access_completes {i : Instr} {s : State} {addr : Addr} {r : BusRequest} {bytes : List Byte} {rest : List BusEvent}
    (hw : s.cfg.WellFormed) (h : i.access s.cfg = some (addr, r)) (hlen : bytes.length = readLength r)
    (hscript : s.env.script = repliesOf (pagedTraffic s.cfg s.mux s.page addr (r, bytes)) ++ rest) :
    ∃ t, exec i s = .next t ∧ Completed s t (pagedTraffic s.cfg s.mux s.page addr (r, bytes)) rest (some s.cfg.dpllChannel)
      (some (upperOf addr)) bytes := by
  obtain ⟨data, reply, hwork, hd⟩ := workOf_access h
  rw [exec_eq_runCommand, hwork]
  have hdone := completed_of_runs (reply := reply) hw (runs_paged (s := s.accept (.answering reply (pagedLines s.cfg addr data)))
    (bytes := []) (e := (r, bytes)) hscript (fun mux page => hd.request mux page []) hd.commit hlen)
  rwa [answersOf_pagedTraffic, hd.payload bytes hlen] at hdone

/-! ### The block commands -/

/-- Settles O26: a block write is a paged access whose data transaction writes all the bytes. -/
theorem blockWritesComplete : Obligations.BlockWritesComplete := by
  intro data s rest hw hpos hmax
  have hcount : s.cfg.BlockCount data.length := ⟨by omega, hmax⟩
  refine ⟨fun addr hscript => ?_, fun base off hsum hscript => ?_⟩
  · exact exec_access_completes (i := .prsWrblk addr data) hw (if_pos hcount) rfl hscript
  · exact exec_access_completes hw (by simp [Instr.access, hcount, effectiveAddr_eq hsum]) rfl hscript

/-- Settles O27: a block read is a paged access whose data transaction answers the bytes. -/
theorem blockReadsComplete : Obligations.BlockReadsComplete := by
  intro cnt bytes s rest hw hpos hmax hlen
  have hcount : s.cfg.BlockCount cnt.toNat := ⟨by omega, hmax⟩
  refine ⟨fun addr hscript => ?_, fun base off hsum hscript => ?_⟩
  · exact exec_access_completes (i := .prsRdblk addr cnt) hw (if_pos hcount) hlen hscript
  · exact exec_access_completes hw (by simp [Instr.access, hcount, effectiveAddr_eq hsum]) hlen hscript

/-! ### After `INVAL` -/

/-- R133: `INVAL` issues nothing and clears the named caches. -/
theorem exec_inval_completes (mask : BitVec 2) {s : State} (hw : s.cfg.WellFormed) :
    ∃ t, exec (.inval mask) s = .next t ∧ Completed s t [] s.env.script (if mask.getLsbD 1 then none else s.mux)
      (if mask.getLsbD 0 then none else s.page) [] :=
  completed_of_runs hw (runs_pass rfl)

/-- R130: a select of which the write, if there is one, succeeds. -/
theorem exec_muxSel_completes (chan : Byte) {s : State} {rest : List BusEvent} (hw : s.cfg.WellFormed)
    (hscript : s.env.script = repliesOf (selectTraffic s.cfg s.mux chan) ++ rest) :
    ∃ t, exec (.muxSel chan) s = .next t ∧ Completed s t (selectTraffic s.cfg s.mux chan) rest (some chan)
      (if s.mux = some chan then s.page else none) [] :=
  completed_of_runs hw (runs_select (.inl rfl) hscript)

/-- R151: where the page cache is unknown behind the select of the DPLL, a paged access writes the window. -/
theorem pagedTraffic_of_unknown_page {c : Params} {mux page : Option Byte} (h : pageAfterEnsure c mux page = none) (addr : Addr)
    (e : Exchange) : pagedTraffic c mux page addr e =
      selectTraffic c mux c.dpllChannel ++ [(.wk c.dpllAddr c.pageReg [lowerOf addr, upperOf addr, 0x10, 0x20], []), e] := by
  simp [pagedTraffic, windowTraffic, h]

/-- R67: with either bit of the mask, the page cache is unknown behind the select of the DPLL. -/
theorem pageAfterEnsure_of_inval {mask : BitVec 2} (h : mask ≠ 0) (c : Params) (mux page : Option Byte) :
    pageAfterEnsure c (if mask.getLsbD 1 then none else mux) (if mask.getLsbD 0 then none else page) = none := by
  have hbit : mask.getLsbD 0 = true ∨ mask.getLsbD 1 = true := by
    revert mask
    decide
  rcases hbit with hbit | hbit <;> simp [pageAfterEnsure, hbit]

/-- Settles O22: `INVAL` leaves caches that the paged accesses and `MUX.SEL` miss. -/
theorem invalForcesTheNextWrites : Obligations.InvalForcesTheNextWrites := by
  intro mask s rest hw mux page
  obtain ⟨t, ht, hinval⟩ := exec_inval_completes mask hw
  have htw : t.cfg.WellFormed := hinval.cfg ▸ hw
  refine ⟨fun i addr r bytes haccess hlen hmask => ⟨fun hbit => ?_, fun hscript => ?_⟩, fun chan hbit hscript => ?_⟩
  · simp [mux, selectTraffic, hbit]
  · rw [← pagedTraffic_of_unknown_page (pageAfterEnsure_of_inval hmask s.cfg s.mux s.page)] at hscript ⊢
    rw [← hinval.cfg] at haccess
    obtain ⟨u, hu, hdone⟩ := exec_access_completes (s := t) (rest := rest) htw haccess hlen
      (by rw [hinval.script, hinval.cfg, hinval.mux, hinval.page]; exact hscript)
    rw [hinval.cfg, hinval.mux, hinval.page] at hdone
    exact ⟨t, u, ht, hinval.mux, hinval.page, hu, hdone⟩
  · have hmux : t.mux = none := by rw [hinval.mux, if_pos hbit]
    have htraffic : selectTraffic t.cfg t.mux chan = [(.wb s.cfg.muxAddr s.cfg.muxReg chan, [])] := by
      simp [selectTraffic, hmux, hinval.cfg]
    obtain ⟨u, hu, hdone⟩ := exec_muxSel_completes chan (s := t) (rest := rest) htw
      (by rw [hinval.script, htraffic]; exact hscript)
    rw [htraffic, hmux] at hdone
    exact ⟨t, u, ht, hu, hdone⟩

end Sys2Proof.Machine
end

section
/-! What stays as it was in the reference devices (spec/20_memory.md rules R53, R56, R60 and R70): what a transaction can change
in the memories, which lines change nothing there, and the statements about the commands that store nothing and about a paged
access. -/

namespace Sys2Proof.Machine

/-! ### What a transaction changes in the memories -/

/-- DPLL memory and the cages are the same. -/
structure SameContents (d d' : Devices) : Prop where
  dpllMem : d'.dpllMem = d.dpllMem
  cages : d'.cages = d.cages

theorem SameContents.refl (d : Devices) : SameContents d d := ⟨rfl, rfl⟩

theorem SameContents.trans {d d' d'' : Devices} (h : SameContents d d') (h' : SameContents d' d'') : SameContents d d'' :=
  ⟨h'.dpllMem.trans h.dpllMem, h'.cages.trans h.cages⟩

theorem SameBut.sameContents {d d' : Devices} (h : SameBut d d') : SameContents d d' := ⟨h.dpllMem, h.cages⟩

/-- At most the `n` bytes of DPLL memory that stand in the window of `d'` from register `reg` on have changed, and no cage. -/
structure ChangedAtMost (reg : Byte) (n : Nat) (d d' : Devices) : Prop where
  memory : ∀ a, a < d'.logical reg ∨ d'.logical reg + n ≤ a → Memory.read d'.dpllMem a = Memory.read d.dpllMem a
  cages : d'.cages = d.cages

theorem SameContents.changedAtMost {d d' : Devices} (h : SameContents d d') (reg : Byte) (n : Nat) :
    ChangedAtMost reg n d d' := ⟨fun _ _ => by rw [h.dpllMem], h.cages⟩

theorem SameContents.trans_changedAtMost {d d' d'' : Devices} {reg : Byte} {n : Nat} (h : SameContents d d')
    (h' : ChangedAtMost reg n d' d'') : ChangedAtMost reg n d d'' :=
  ⟨fun a ha => by rw [h'.memory a ha, h.dpllMem], h'.cages.trans h.cages⟩

/-- R53, R56 (b): a request that means a write of DPLL memory writes its bytes from the logical address of its register on. -/
theorem Devices.classify_dpllWrite {c : Params} {d : Devices} {window : Bool} {r : BusRequest} {a : Nat} {bytes : List Byte}
    (h : d.classify c window r = .dpllWrite a bytes) : a = d.logical (BusRequest.reg r) ∧ bytes = r.written := by
  cases r with
  | wb | wk =>
    simp only [Devices.classify, Devices.dpllAccess, regionWrite] at h
    repeat' split at h
    all_goals cases h
    exact ⟨rfl, rfl⟩
  | rb | rk =>
    simp only [Devices.classify, Devices.classifyRead, Devices.dpllAccess, regionRead] at h
    repeat' split at h
    all_goals cases h

/-- A request that does not mean a write of DPLL memory changes no memory. -/
theorem take_sameContents {c : Params} {d d' : Devices} {window : Bool} {r : BusRequest} {extent : Nat}
    (hr : ∀ a bytes, d.classify c window r ≠ .dpllWrite a bytes) (h : d' ∈ d.take c window r extent) : SameContents d d' := by
  unfold Devices.take at h
  split at h
  case h_1 =>
    cases h
    split <;> exact ⟨rfl, rfl⟩
  case h_2 =>
    repeat' split at h
    all_goals cases h
    all_goals exact ⟨rfl, rfl⟩
  case h_3 hcl => exact absurd hcl (hr _ _)
  case h_6 =>
    split at h <;> cases h
    exact .refl d
  all_goals
    cases h
    exact .refl d

/-- R53: a request other than a window write changes at most the bytes it writes. -/
theorem take_changedAtMost {c : Params} {d d' : Devices} {r : BusRequest} {extent : Nat} (h : d' ∈ d.take c false r extent) :
    ChangedAtMost (BusRequest.reg r) r.written.length d d' := by
  by_cases hr : ∃ a bytes, d.classify c false r = .dpllWrite a bytes
  · obtain ⟨a, bytes, hcl⟩ := hr
    obtain ⟨rfl, rfl⟩ := Devices.classify_dpllWrite hcl
    rw [Devices.take, hcl] at h
    cases h
    refine ⟨fun a ha => read_storeBytes_other d.dpllMem _ ?_, rfl⟩
    have hlen := List.length_take_le' extent r.written
    change a < d.logical _ ∨ d.logical _ + _ ≤ a at ha
    omega
  · exact (take_sameContents (fun a bytes hcl => hr ⟨a, bytes, hcl⟩) h).changedAtMost _ _

/-- R10: under `SINGLE_OWNER` nothing but the transaction itself, and the pins, changes the devices. -/
theorem BusEnv.after_devices {c : Params} {env : BusEnv} {window : Bool} {r : BusRequest} {d' : Devices}
    (ho : c.singleOwner = true) (h : d' ∈ ((env.arrival c).after c window r).devices) :
    ∃ d ∈ env.devices, ∃ d₁, SameBut d d₁ ∧ d' ∈ d₁.take c window r (env.arrival c).extent := by
  obtain ⟨d₁, hd₁, htake⟩ := Option.bind_eq_some_iff.1 h
  rw [BusEnv.arrival, ho] at hd₁
  obtain ⟨d, hd, hsame⟩ := arrive_sameBut env.script env.devices d₁ hd₁
  exact ⟨d, hd, d₁, hsame, htake⟩

/-! ### Lines that store nothing -/

/-- Whether a line writes registers of the DPLL other than the paging register. -/
def Line.stores : Line → Bool
  | .writeByte _ _ => true
  | .writeBlock _ _ => true
  | .writeModified _ _ _ => true
  | .writeBack _ => true
  | .muxSelect _ => false
  | .selectSlot _ => false
  | .closeMux => false
  | .pageSelect _ => false
  | .readByte _ => false
  | .readBlock _ _ => false
  | .readInfo _ => false
  | .readDiag _ => false
  | .readStatus => false
  | .invalidate _ => false

/-- The mux write goes to the multiplexer (R28) and the window write moves the window (R29); a read has no effect (R70). -/
theorem Line.classify_ne_dpllWrite {c : Params} {mux page : Option Byte} {bytes : List Byte} {line : Line} {r : BusRequest}
    (hl : line.stores = false) (hr : line.request c mux page bytes = some r) (d : Devices) (a : Nat) (written : List Byte) :
    d.classify c line.isWindow r ≠ .dpllWrite a written := by
  intro h
  cases line with
  | muxSelect | selectSlot | closeMux =>
    rw [(selectRequest_eq hr).2] at h
    simp [Devices.classify] at h
  | pageSelect addr =>
    rw [(windowRequest_eq hr).2] at h
    simp only [Devices.classify, Line.isWindow, regionWrite] at h
    split at h
    · simp at h
    · split at h <;> cases h
  | readByte | readBlock | readInfo | readDiag | readStatus =>
    cases hr
    simp only [Devices.classify, Devices.classifyRead, Devices.dpllAccess, regionRead] at h
    repeat' split at h
    all_goals cases h
  | invalidate => cases hr
  | writeByte | writeBlock | writeModified | writeBack => cases hl

/-- A transaction of such a line, however it ends, leaves the memories alone. -/
theorem BusEnv.after_sameContents {c : Params} {env : BusEnv} {mux page : Option Byte} {bytes : List Byte} {line : Line}
    {r : BusRequest} {d' : Devices} (ho : c.singleOwner = true) (hl : line.stores = false)
    (hr : line.request c mux page bytes = some r) (h : d' ∈ ((env.arrival c).after c line.isWindow r).devices) :
    ∃ d ∈ env.devices, SameContents d d' := by
  obtain ⟨d, hd, d₁, hsame, htake⟩ := BusEnv.after_devices ho h
  exact ⟨d, hd, hsame.sameContents.trans (take_sameContents (Line.classify_ne_dpllWrite hl hr d₁) htake)⟩

/-- The lines of a paged read store nothing, nor do the selects of any paged access. -/
theorem pagedLines_stores {c : Params} {addr : Addr} {data : Line} (hd : data.stores = false) :
    ∀ line ∈ pagedLines c addr data, line.stores = false := by
  simp only [pagedLines, ensureChannel, List.forall_mem_cons]
  exact ⟨rfl, rfl, hd, nofun⟩

/-- R53, R60: the lines of a command that stores nothing. -/
theorem workOf_storesNothing {c : Params} {i : Instr} (h : i.StoresNothing) :
    ∀ line ∈ (workOf c i).todo, line.stores = false := by
  intro line hl
  cases i with
  | muxSel | muxClose | inval | prsEnsure =>
    obtain rfl := List.mem_singleton.1 hl
    rfl
  | prsRdb => exact pagedLines_stores rfl line hl
  | prsRdblk => exact pagedLines_stores rfl line (mem_withBlockCount hl).2
  | prsRdbo => exact pagedLines_stores rfl line (mem_withEffective hl).2
  | prsRdblko => exact pagedLines_stores rfl line (mem_withEffective (mem_withBlockCount hl).2).2
  | gpioRdmode pin =>
    obtain ⟨p, _, hl⟩ := mem_withPin hl
    rcases List.mem_append.1 hl with hl | hl <;> exact pagedLines_stores rfl line hl
  | sfpPoll slot =>
    obtain ⟨_, k, _, hl⟩ := mem_sfpPollWork hl
    simp only [pollLines, readVendorInfo, readDiagnostics, List.mem_append, List.mem_cons, List.not_mem_nil, or_false] at hl
    rcases hl with rfl | ((rfl | rfl | rfl) | rfl | rfl | rfl | rfl) | rfl | rfl <;> rfl
  | prsWrb | prsWrblk | prsWrbo | prsWrblko | gpioCfgin | gpioCfgout => cases h

/-- Where the lines left store nothing, the next one leaves the memories alone. -/
theorem State.LinesAmong.execLine_sameContents {s : State} (h : s.LinesAmong (·.stores = false)) (ho : s.cfg.singleOwner = true) :
    ∀ x ∈ s.execLine.env.devices, ∃ d ∈ s.env.devices, SameContents d x := by
  rcases s.execLine_traffic with ⟨_, henv⟩ | ⟨tix, w, line, rest, r, _, hs, ht, hr, _, henv⟩ <;> rw [henv]
  · exact fun x hx => ⟨x, hx, .refl x⟩
  · exact fun x hx => BusEnv.after_sameContents ho (h tix w hs line (by simp [ht])) hr hx

/-- Settles O35: no line of such a command stores anything. -/
theorem nonStoringCommandsLeaveMemoryAlone : Obligations.NonStoringCommandsLeaveMemoryAlone := by
  intro i s t d d' ho hi h hd hd'
  have hd0 : ∀ x ∈ s.env.devices, SameContents d x := fun x hx => Option.some.inj (hd.symm.trans hx) ▸ .refl d
  obtain ⟨_, _, hall⟩ := exec_induct
    (P := fun u => u.cfg = s.cfg ∧ u.LinesAmong (·.stores = false) ∧ ∀ x ∈ u.env.devices, SameContents d x) h
    ⟨rfl, .accept (workOf_storesNothing hi) s, hd0⟩ fun u ⟨hcfg, hlines, hu⟩ =>
      ⟨u.execLine_frame.1.trans hcfg, hlines.execLine, fun x hx => by
        obtain ⟨y, hy, hyx⟩ := hlines.execLine_sameContents (hcfg ▸ ho) x hx
        exact (hu y hy).trans hyx⟩
  have hsame := hall d' hd'
  exact ⟨fun a => by rw [hsame.dpllMem], hsame.cages⟩

/-! ### A paged access -/

/-- The lines that the core still has to execute are an end of `lines`. -/
def State.Ends (lines : List Line) (s : State) : Prop := ∀ tix w, s.seq = .busy tix (some w) → w.todo <:+ lines

theorem State.Ends.mono {lines lines' : List Line} {s : State} (h : s.Ends lines) (hl : lines <:+ lines') : s.Ends lines' :=
  fun tix w hw => (h tix w hw).trans hl

/-- R8: behind a line whose failure is not tolerated come the lines after it, or none. -/
theorem State.ends_execLine {s : State} {tix : BitVec 8} {w : Work} {line : Line} {rest : List Line}
    (hs : s.seq = .busy tix (some w)) (ht : w.todo = line :: rest)
    (hf : ∀ w tix, line.failed w tix = w.raise (.busError tix)) : s.execLine.Ends rest := by
  intro k v hv
  cases hr : line.request s.cfg s.mux s.page w.bytes with
  | none =>
    rw [State.execLine_pass hs ht hr] at hv
    cases hv
    exact List.suffix_rfl
  | some r =>
    rw [State.execLine_transact hs ht hr] at hv
    rcases s.transact_cases line r tix { w with todo := rest } with ⟨bytes, _, _, he⟩ | ⟨_, he⟩ | ⟨_, he⟩ | ⟨_, he⟩ <;>
      rw [he] at hv
    · obtain ⟨_, rfl⟩ : tix + 1 = k ∧ _ = v := by simpa using hv
      exact List.suffix_rfl
    · rw [hf] at hv
      cases hv
      exact List.nil_suffix
    · cases hv
    · cases hv

/-- Where no failure is tolerated, the lines left stay an end of the procedure. -/
theorem State.Ends.execLine {lines : List Line} {s : State} (h : s.Ends lines) (hf : RaisesOnFailure lines) :
    s.execLine.Ends lines := by
  rcases s.execLine_cases with ⟨_, he⟩ | ⟨tix, w, hs, ⟨_, he⟩ | ⟨line, rest, ht, _⟩⟩
  · rwa [he]
  · rw [he]
    exact fun k v hv => by simp at hv
  · have hsuffix : line :: rest <:+ lines := ht ▸ h tix w hs
    exact (State.ends_execLine hs ht (hf line (hsuffix.subset (by simp)))).mono ((List.suffix_cons line rest).trans hsuffix)

/-- R153: a line of a paged access with the lines behind it: a select, or the data transaction as the last one. -/
theorem suffix_pagedLines {c : Params} {addr : Addr} {data line : Line} {rest : List Line}
    (h : line :: rest <:+ pagedLines c addr data) :
    line = ensureChannel c ∨ line = .pageSelect addr ∨ (line = data ∧ rest = []) := by
  simp only [pagedLines, List.suffix_cons_iff, List.cons.injEq, List.suffix_nil, reduceCtorEq, or_false] at h
  tauto

/-- R153: a paged access that found the devices as in `d`: up to its data transaction, which writes `n` bytes, the memories are as
they were, and behind it no line comes. -/
def PagedProgress (lines : List Line) (addr : Addr) (n : Nat) (d : Devices) (u : State) : Prop :=
  (u.Ends lines ∧ ∀ x ∈ u.env.devices, SameContents d x) ∨
    (u.Ends [] ∧ ∀ x ∈ u.env.devices, ChangedAtMost (lowerOf addr) n d x)

theorem PagedProgress.execLine {c : Params} {addr : Addr} {data : Line} {reply : Reply} {r : BusRequest} {d : Devices} {u : State}
    (ho : c.singleOwner = true) (hdata : data.Transfers c addr reply r) (hcfg : u.cfg = c)
    (h : PagedProgress (pagedLines c addr data) addr r.written.length d u) :
    PagedProgress (pagedLines c addr data) addr r.written.length d u.execLine := by
  subst hcfg
  have hraises : RaisesOnFailure (pagedLines u.cfg addr data) := by
    simp only [RaisesOnFailure, pagedLines, ensureChannel, List.forall_mem_cons]
    exact ⟨fun _ _ => rfl, fun _ _ => rfl, hdata.failed, nofun⟩
  unfold PagedProgress
  rcases u.execLine_traffic with ⟨_, henv⟩ | ⟨tix, w, line, rest, q, _, hs, ht, hr, _, henv⟩ <;> rw [henv]
  · exact h.imp (fun ⟨hends, hsame⟩ => ⟨hends.execLine hraises, hsame⟩) fun ⟨hends, hchanged⟩ => ⟨hends.execLine nofun, hchanged⟩
  · rcases h with ⟨hends, hsame⟩ | ⟨hends, _⟩
    · have select : line.stores = false → ∀ x ∈ ((u.env.arrival u.cfg).after u.cfg line.isWindow q).devices,
          SameContents d x := by
        intro hl x hx
        obtain ⟨y, hy, hyx⟩ := BusEnv.after_sameContents ho hl hr hx
        exact (hsame y hy).trans hyx
      rcases suffix_pagedLines (ht ▸ hends tix w hs) with rfl | rfl | ⟨rfl, rfl⟩
      · exact .inl ⟨hends.execLine hraises, select rfl⟩
      · exact .inl ⟨hends.execLine hraises, select rfl⟩
      · refine .inr ⟨State.ends_execLine hs ht hdata.failed, fun x hx => ?_⟩
        rw [hdata.request] at hr
        cases hr
        rw [hdata.isWindow] at hx
        obtain ⟨y, hy, y₁, hyy₁, htake⟩ := BusEnv.after_devices ho hx
        rw [← hdata.reg]
        exact ((hsame y hy).trans hyy₁.sameContents).trans_changedAtMost (take_changedAtMost htake)
    · simpa [ht] using hends tix w hs

/-- Settles O36: up to the data transaction the memories are as before, and no line comes behind it. -/
theorem pagedAccessStoresOnlyItsBytes : Obligations.PagedAccessStoresOnlyItsBytes := by
  intro i addr r s t d d' ho haccess h hd hd'
  obtain ⟨data, reply, hwork, hdata⟩ := workOf_access haccess
  have haccept : PagedProgress (pagedLines s.cfg addr data) addr r.written.length d (s.accept (workOf s.cfg i)) := by
    rw [hwork]
    refine .inl ⟨fun tix w hw => ?_, fun x hx => Option.some.inj (hd.symm.trans hx) ▸ .refl d⟩
    cases hw
    exact List.suffix_rfl
  obtain ⟨_, hend⟩ := exec_induct
    (P := fun u => u.cfg = s.cfg ∧ PagedProgress (pagedLines s.cfg addr data) addr r.written.length d u) h ⟨rfl, haccept⟩
    fun u ⟨hcfg, hu⟩ => ⟨u.execLine_frame.1.trans hcfg, hu.execLine ho hdata hcfg⟩
  have hchanged : ChangedAtMost (lowerOf addr) r.written.length d d' :=
    hend.elim (fun hu => (hu.2 d' hd').changedAtMost _ _) fun hu => hu.2 d' hd'
  exact ⟨hchanged.memory, hchanged.cages⟩

end Sys2Proof.Machine
end

section
/-! Runs on the reference devices (spec/20_memory.md rule R70) with no event in store: what the devices answer, what a paged
access then does to them, and the statement that a block write is read back byte by byte. -/

namespace Sys2Proof.Machine

/-! ### What the reference devices answer -/

/-- The reference devices `d` answer a request with `answer` and are then `d'` (R70). -/
structure Devices.Answers (c : Params) (window : Bool) (r : BusRequest) (answer : List Byte) (d d' : Devices) : Prop where
  completion : ∀ log, d.completion c log window r = .ok answer
  take : d.take c window r wholeExtent = some d'

/-- R51: an answer has the length asked for. -/
theorem Devices.Answers.length {c : Params} {window : Bool} {r : BusRequest} {answer : List Byte} {d d' : Devices}
    (h : Devices.Answers c window r answer d d') : answer.length = readLength r := Devices.completion_length (h.completion [])

/-- R28: the multiplexer takes the channel. -/
theorem Devices.answers_muxWrite (c : Params) (window : Bool) (chan : Byte) (d : Devices) :
    Devices.Answers c window (.wb c.muxAddr c.muxReg chan) [] d { d with muxSel := chan } :=
  ⟨fun log => by simp [Devices.completion, Devices.classify], by simp [Devices.take, Devices.classify, wholeExtent]⟩

section
variable {c : Params} {d : Devices} (hsel : d.muxSel = c.dpllChannel)
include hsel

/-- R29: the DPLL moves its window. -/
theorem Devices.answers_windowWrite (upper lower : Byte) :
    Devices.Answers c true (.wk c.dpllAddr c.pageReg (windowBytes upper lower)) [] d { d with winUpper := upper } := by
  have hcl : d.classify c true (.wk c.dpllAddr c.pageReg (windowBytes upper lower)) = .window upper := by
    simp [Devices.classify, Devices.ReachesDpll, hsel, windowBytes, byteAt]
  exact ⟨fun log => by simp [Devices.completion, hcl], by simp [Devices.take, hcl, wholeExtent]⟩

/-- R53, R56 (b): the DPLL stores the bytes of a block that is in-page and clear of the paging register. -/
theorem Devices.answers_writeBlock {reg : Byte} {bytes : List Byte} (hclear : c.BlockClear reg bytes.length) :
    Devices.Answers c false (.wk c.dpllAddr reg bytes) [] d
      { d with dpllMem := storeBytes c d.dpllMem (d.logical reg) bytes } := by
  have hcl : d.classify c false (.wk c.dpllAddr reg bytes) = .dpllWrite (d.logical reg) bytes := by
    simp [Devices.classify, Devices.ReachesDpll, hsel, Devices.dpllAccess, hclear]
  have hlen : bytes.length ≤ wholeExtent := by
    unfold wholeExtent
    omega
  exact ⟨fun log => by simp [Devices.completion, hcl], by simp [Devices.take, hcl, List.take_of_length_le hlen]⟩

/-- R53: the DPLL answers a read of a register that is not the paging register with the byte there. -/
theorem Devices.answers_readByte {reg : Byte} (hclear : c.BlockClear reg 1) :
    Devices.Answers c false (.rb c.dpllAddr reg) [d.dpllByte c (d.logical reg)] d d := by
  have hcl : d.classify c false (.rb c.dpllAddr reg) = .dpllRead (d.logical reg) 1 := by
    rw [Devices.classify, Devices.classifyRead, if_pos ⟨rfl, hsel⟩, Devices.dpllAccess, if_pos hclear]
  exact ⟨fun log => by simp [Devices.completion, hcl, bytesFrom], by simp [Devices.take, hcl]⟩

end

/-! ### Lines on the reference devices -/

/-- As `Runs`, where the environment is the reference devices and has no event in store; they are `d` at the end. -/
def RunsOn (s : State) (lines : List Line) (bytes : List Byte) (x : List Exchange) (mux page : Option Byte) (d : Devices) :
    Prop :=
  ∀ (k : BitVec 8) (more : List Line) (ending : Ending), s.seq = .busy k (some ⟨lines ++ more, bytes, ending⟩) →
    ∃ (n : Nat) (t : State), s.execLines n = t ∧ Ran s t x [] mux page ∧ t.env.devices = some d ∧
      t.seq = .busy (k + BitVec.ofNat 8 x.length) (some ⟨more, bytes ++ answersOf x, ending⟩)

theorem RunsOn.runs {s : State} {lines : List Line} {bytes : List Byte} {x : List Exchange} {mux page : Option Byte} {d : Devices}
    (h : RunsOn s lines bytes x mux page d) : Runs s lines bytes x [] mux page := by
  intro k more ending hs
  obtain ⟨n, t, hn, hran, _, ht⟩ := h k more ending hs
  exact ⟨n, t, hn, hran, ht⟩

theorem RunsOn.append {s : State} {l₁ l₂ : List Line} {bytes : List Byte} {x y : List Exchange} {m₁ p₁ m₂ p₂ : Option Byte}
    {d₁ d₂ : Devices} (h : RunsOn s l₁ bytes x m₁ p₁ d₁)
    (h' : ∀ t, Ran s t x [] m₁ p₁ → t.env.devices = some d₁ → RunsOn t l₂ (bytes ++ answersOf x) y m₂ p₂ d₂) :
    RunsOn s (l₁ ++ l₂) bytes (x ++ y) m₂ p₂ d₂ := by
  intro k more ending hs
  obtain ⟨n, t, hn, hst, hdt, ht⟩ := h k (l₂ ++ more) ending (by simpa using hs)
  obtain ⟨m, u, hm, htu, hdu, hu⟩ := h' t hst hdt _ more ending ht
  refine ⟨n + m, u, by rw [State.execLines_add, hn, hm], hst.trans htu, hdu, ?_⟩
  rw [hu]
  simp [BitVec.ofNat_add, BitVec.add_assoc]

section
variable {s : State} {d : Devices} (hscript : s.env.script = []) (hd : s.env.devices = some d)
include hscript hd

/-- A line that issues nothing. -/
theorem runsOn_pass {line : Line} {bytes : List Byte} (hr : line.request s.cfg s.mux s.page bytes = none) :
    RunsOn s [line] bytes [] (line.pass s).mux (line.pass s).page d := by
  intro k more ending hs
  refine ⟨1, _, State.execLine_pass hs rfl hr, ?_, by simpa using hd, by simp⟩
  exact ⟨by simp, by simp, by simp, rfl, rfl, by simp, by simp, by simpa using hscript⟩

/-- A line whose transaction the devices answer. -/
theorem runsOn_transact {line : Line} {bytes answer : List Byte} {r : BusRequest} {d' : Devices}
    (hr : line.request s.cfg s.mux s.page bytes = some r) (ha : Devices.Answers s.cfg line.isWindow r answer d d') :
    RunsOn s [line] bytes [(r, answer)] (line.commit s).mux (line.commit s).page d' := by
  intro k more ending hs
  have hown : ownCompletion s.cfg s.busLog line.isWindow r s.env.devices = .ok answer := by
    simpa [ownCompletion, hd] using ha.completion s.busLog
  refine ⟨1, _, (State.execLine_transact hs rfl hr).trans (State.transact_own hscript hown), ?_, by simp [hd, ha.take], by simp⟩
  exact ⟨by simp, by simp, by simp, line.commit_mux s rfl, line.commit_page s rfl, by simp, by simp, by simp⟩

/-- R130: a select, from coherent caches. -/
theorem runsOn_muxSelect {bytes : List Byte} (hm : d.Matches s.mux s.page) (chan : Byte) :
    RunsOn s [.muxSelect chan] bytes (selectTraffic s.cfg s.mux chan) (some chan) (if s.mux = some chan then s.page else none)
      { d with muxSel := chan } := by
  by_cases h : s.mux = some chan
  · have hsame : { d with muxSel := chan } = d := by rw [← hm.1 chan h]
    simpa [selectTraffic, h, Line.pass, hsame] using
      runsOn_pass hscript hd (line := .muxSelect chan) (bytes := bytes) (by simp [Line.request, selectRequest, h])
  · simpa [selectTraffic, h, Line.commit] using
      runsOn_transact hscript hd (line := .muxSelect chan) (bytes := bytes) (by simp [Line.request, selectRequest, h])
        (Devices.answers_muxWrite s.cfg false chan d)

/-- R151: `PageSelect`, from coherent caches with the DPLL selected. -/
theorem runsOn_pageSelect {bytes : List Byte} (hm : d.Matches s.mux s.page) (hsel : d.muxSel = s.cfg.dpllChannel) (addr : Addr) :
    RunsOn s [.pageSelect addr] bytes (windowTraffic s.cfg s.page addr) s.mux (some (upperOf addr))
      { d with winUpper := upperOf addr } := by
  by_cases h : s.page = some (upperOf addr)
  · have hsame : { d with winUpper := upperOf addr } = d := by rw [← hm.2 _ h]
    simpa [windowTraffic, h, Line.pass, hsame] using
      runsOn_pass hscript hd (line := .pageSelect addr) (bytes := bytes) (by simp [Line.request, windowRequest, h])
  · simpa [windowTraffic, h, Line.commit, windowBytes] using
      runsOn_transact hscript hd (line := .pageSelect addr) (bytes := bytes) (by simp [Line.request, windowRequest, h])
        (Devices.answers_windowWrite hsel (upperOf addr) (lowerOf addr))

end

/-- R150, R151: the devices with the DPLL selected and its window on the page of an address. -/
def Devices.selected (c : Params) (addr : Addr) (d : Devices) : Devices :=
  { d with muxSel := c.dpllChannel, winUpper := upperOf addr }

/-- R53: in that window the lower byte of the address stands for the address. -/
@[simp] theorem Devices.selected_logical (c : Params) (addr : Addr) (d : Devices) :
    (d.selected c addr).logical (lowerOf addr) = addr.toNat := (toNat_eq_upper_lower addr).symm

section
variable {s : State} {d : Devices} (hscript : s.env.script = []) (hd : s.env.devices = some d) (hm : d.Matches s.mux s.page)
include hscript hd hm

/-- R153: the two selects of a paged access, from coherent caches. -/
theorem runsOn_ensure (bytes : List Byte) (addr : Addr) :
    RunsOn s [ensureChannel s.cfg, .pageSelect addr] bytes (selectTraffic s.cfg s.mux s.cfg.dpllChannel ++
      windowTraffic s.cfg (pageAfterEnsure s.cfg s.mux s.page) addr) (some s.cfg.dpllChannel) (some (upperOf addr))
      (d.selected s.cfg addr) := by
  refine (runsOn_muxSelect hscript hd hm s.cfg.dpllChannel).append (l₂ := [.pageSelect addr]) fun t ht hdt => ?_
  have hmatch : Devices.Matches t.mux t.page { d with muxSel := s.cfg.dpllChannel } := by
    rw [ht.mux, ht.page]
    refine ⟨fun _ hc => Option.some.inj hc, fun u hu => hm.2 u ?_⟩
    split at hu
    · exact hu
    · cases hu
  have h := runsOn_pageSelect ht.script hdt (bytes := bytes ++ answersOf (selectTraffic s.cfg s.mux s.cfg.dpllChannel)) hmatch
    (by rw [ht.cfg]) addr
  rw [ht.cfg, ht.mux, ht.page] at h
  exact h

/-- R153: a paged access, from coherent caches; its data transaction finds the DPLL selected and the page of its address. -/
theorem runsOn_paged {bytes answer : List Byte} {addr : Addr} {data : Line} {reply : Reply} {r : BusRequest} {d' : Devices}
    (hdata : data.Transfers s.cfg addr reply r) (ha : Devices.Answers s.cfg false r answer (d.selected s.cfg addr) d') :
    RunsOn s (pagedLines s.cfg addr data) bytes (pagedTraffic s.cfg s.mux s.page addr (r, answer)) (some s.cfg.dpllChannel)
      (some (upperOf addr)) d' := by
  refine (runsOn_ensure hscript hd hm bytes addr).append (l₂ := [data]) fun t ht hdt => ?_
  have hmux : (data.commit t).mux = some s.cfg.dpllChannel := by rw [hdata.commit, ht.mux]
  have hpage : (data.commit t).page = some (upperOf addr) := by rw [hdata.commit, ht.page]
  rw [← hmux, ← hpage]
  exact runsOn_transact ht.script hdt (by rw [ht.cfg]; exact hdata.request _ _ _)
    (by rw [ht.cfg, hdata.isWindow]; exact ha)

end

/-- R97: the end of a command on the reference devices. -/
theorem completed_of_runsOn {s : State} {lines : List Line} {reply : Reply} {x : List Exchange} {mux page : Option Byte}
    {d : Devices} (hw : s.cfg.WellFormed) (h : RunsOn (s.accept (.answering reply lines)) lines [] x mux page d) :
    ∃ t, runCommand (.answering reply lines) s = .next t ∧
      Completed s t x [] mux page (reply.payload s.cfg (answersOf x)) ∧ t.env.devices = some d := by
  obtain ⟨t, hrun, hdone⟩ := completed_of_runs hw h.runs
  obtain ⟨n, u, hn, _, hdu, hu⟩ := h 0 [] (.respond reply) (by simp [Work.answering])
  have he := State.execLine_end hu rfl
  have hend : runCommand (.answering reply lines) s = .next u.execLine :=
    runCommand_eq (n := n + 1) hw (by rw [State.execLines_add, hn]; rfl) (by rw [he, State.linesLeft_idle (by simp)])
  cases hrun.symm.trans hend
  exact ⟨_, hrun, hdone, by rw [he]; simpa using hdu⟩

/-- R153: a paged access on the reference devices, from coherent caches. -/
theorem exec_access_on_devices {i : Instr} {s : State} {addr : Addr} {r : BusRequest} {answer : List Byte} {d d' : Devices}
    (hw : s.cfg.WellFormed) (h : i.access s.cfg = some (addr, r)) (hscript : s.env.script = []) (hd : s.env.devices = some d)
    (hm : d.Matches s.mux s.page) (ha : Devices.Answers s.cfg false r answer (d.selected s.cfg addr) d') :
    ∃ t, exec i s = .next t ∧ Completed s t (pagedTraffic s.cfg s.mux s.page addr (r, answer)) [] (some s.cfg.dpllChannel)
      (some (upperOf addr)) answer ∧ t.env.devices = some d' := by
  obtain ⟨data, reply, hwork, hdata⟩ := workOf_access h
  rw [exec_eq_runCommand, hwork]
  have hdone := completed_of_runsOn (reply := reply) hw
    (runsOn_paged (s := s.accept (.answering reply (pagedLines s.cfg addr data))) (bytes := []) hscript hd hm hdata ha)
  rwa [State.accept_cfg, answersOf_pagedTraffic, hdata.payload answer ha.length] at hdone

/-! ### A block write is read back -/

/-- R56 (b): byte `j` of a block stands at its address plus `j`, if no byte of the block is at a level-readback address. -/
theorem read_storeBytes {c : Params} {m : Memory} (hm : Memory.wf m) {a j : Nat} {bytes : List Byte} (hj : j < bytes.length)
    (hlevel : ¬ c.IsLevelAddr (a + j)) : Memory.read (storeBytes c m a bytes) (a + j) = byteAt bytes j := by
  induction bytes generalizing m a j with
  | nil => simp at hj
  | cons b bytes ih =>
    unfold storeBytes
    cases j with
    | zero =>
      rw [read_storeBytes_other _ bytes (.inl (by omega)), if_neg (show ¬ c.IsLevelAddr a from hlevel)]
      exact Memory.read_write_same hm a b
    | succ j =>
      have hwf : Memory.wf (if c.IsLevelAddr a then m else Memory.write m a b) := by
        split
        · exact hm
        · exact Memory.write_wf hm a b
      rw [show a + (j + 1) = a + 1 + j by omega] at hlevel ⊢
      exact ih hwf (by simpa using hj) hlevel

/-- R53, R57: an address on the same page. -/
theorem addr_add_in_page {addr : Addr} {j : Nat} (h : (lowerOf addr).toNat + j < 256) :
    (addr + BitVec.ofNat 16 j).toNat = addr.toNat + j ∧ upperOf (addr + BitVec.ofNat 16 j) = upperOf addr ∧
      (lowerOf (addr + BitVec.ofNat 16 j)).toNat = (lowerOf addr).toNat + j := by
  have hupper := (upperOf addr).isLt
  have hsplit := toNat_eq_upper_lower addr
  have hsum : (addr + BitVec.ofNat 16 j).toNat = addr.toNat + j := by
    simp only [BitVec.toNat_add, BitVec.toNat_ofNat]
    omega
  have hsplit' := toNat_eq_upper_lower (addr + BitVec.ofNat 16 j)
  have hlower' := (lowerOf (addr + BitVec.ofNat 16 j)).isLt
  exact ⟨hsum, BitVec.eq_of_toNat_eq (by omega), by omega⟩

/-- R153: an access to the page that is already selected issues its data transaction only. -/
theorem pagedTraffic_again {c : Params} {addr : Addr} (e : Exchange) :
    pagedTraffic c (some c.dpllChannel) (some (upperOf addr)) addr e = [e] := by
  simp [pagedTraffic, selectTraffic, windowTraffic, pageAfterEnsure]

/-- Settles O38: the block write leaves the DPLL selected, the page of the block in its window and the bytes stored, so each byte
read is one transaction that finds its byte. -/
theorem blockWriteIsReadBackByteByByte : Obligations.BlockWriteIsReadBackByteByByte := by
  intro addr data s d hw hcount hclear hlevel hcoh hd hwf hscript
  let stored : Devices :=
    { d.selected s.cfg addr with dpllMem := storeBytes s.cfg d.dpllMem ((d.selected s.cfg addr).logical (lowerOf addr)) data }
  obtain ⟨t, ht, hdone, hdt⟩ := exec_access_on_devices (i := .prsWrblk addr data) (d' := stored) hw (if_pos hcount) hscript hd
    (coherent_iff.1 hcoh d hd) (Devices.answers_writeBlock rfl hclear)
  refine ⟨t, _, ht, hdone.respPort, fun j hj => ?_⟩
  obtain ⟨hsum, hupper, hlower⟩ := addr_add_in_page (addr := addr) (j := j) (by omega)
  have hselected : stored.selected t.cfg (addr + BitVec.ofNat 16 j) = stored := by
    simp [Devices.selected, stored, hdone.cfg, hupper]
  have hmatch : stored.Matches t.mux t.page := by
    rw [hdone.mux, hdone.page]
    exact ⟨fun _ hc => Option.some.inj hc, fun _ hu => Option.some.inj hu⟩
  have hread : stored.dpllByte t.cfg (stored.logical (lowerOf (addr + BitVec.ofNat 16 j))) = byteAt data j := by
    have hlogical : stored.logical (lowerOf (addr + BitVec.ofNat 16 j)) = addr.toNat + j := by
      rw [← hselected, Devices.selected_logical, hsum]
    have hnot := hlevel j hj
    rw [hlogical, hdone.cfg, Devices.dpllByte, if_neg fun h => hnot (.inl h), if_neg fun h => hnot (.inr h)]
    simpa [stored] using read_storeBytes hwf.1 hj hnot
  have hanswer := Devices.answers_readByte (c := t.cfg) (d := stored) (by rw [hdone.cfg]; rfl)
    (reg := lowerOf (addr + BitVec.ofNat 16 j)) (by rw [hdone.cfg]; omega)
  rw [hread] at hanswer
  obtain ⟨u, hu, hdone', _⟩ := exec_access_on_devices (i := .prsRdb (addr + BitVec.ofNat 16 j)) (hdone.cfg ▸ hw) rfl
    hdone.script hdt hmatch (by rw [hselected]; exact hanswer)
  refine ⟨u, hu, ?_⟩
  have hresp := hdone'.respPort
  rw [hdone.mux, hdone.page, hdone.cfg, ← hupper, pagedTraffic_again] at hresp
  exact hresp

end Sys2Proof.Machine
end

section
/-! Frames (spec/30_encoding.md rules R91 to R96): the length and the reserved bits each format asks for, that decoding and
encoding are inverse to each other, and the order of the decoder's checks. -/

namespace Sys2Proof

/-! ### Encoding, then decoding -/

theorem bytesLE_u16le (lo hi : Byte) : bytesLE (u16le lo hi) = [lo, hi] := by simp

/-- R93: `SFP.POLL` is well-formed only where `HAS_SFP`. -/
theorem Instr.hasSfp_of_wf {hasSfp : Bool} {i : Instr} (h : i.wf hasSfp = true) (hk : i.opcode = .sfpPoll) :
    hasSfp = true := by
  cases i with
  | sfpPoll => exact h
  | _ => cases hk

/-- R91: the operands of a command are read back in the format of its opcode. -/
theorem decodeOperands_encodeOperands {hasSfp : Bool} {i : Instr} (h : i.wf hasSfp = true) :
    decodeOperands i.opcode (encodeOperands i) = .ok i := by
  cases i with
  | muxSel | muxClose | prsEnsure | gpioRdmode | sfpPoll => rfl
  | inval mask => exact decodeMask_encode mask
  | prsWrb | prsRdb | prsRdblk => simp [Instr.opcode, encodeOperands, decodeOperands, formatA0, formatA1]
  | prsWrbo | prsRdbo | prsRdblko => simp [Instr.opcode, encodeOperands, decodeOperands, formatB0, formatB1]
  | prsWrblk addr data =>
    have hn : (countByte data).toNat = data.length := countByte_toNat (of_decide_eq_true h)
    simp [Instr.opcode, encodeOperands, decodeOperands, formatAP, hn]
  | prsWrblko base off data =>
    have hn : (countByte data).toNat = data.length := countByte_toNat (of_decide_eq_true h)
    simp [Instr.opcode, encodeOperands, decodeOperands, formatBP, hn]
  | gpioCfgin pin value => exact decodeConfigure_encode pin false value
  | gpioCfgout pin value => exact decodeConfigure_encode pin true value

/-- Settles O1: the opcode byte selects the format in which the operands were written. -/
theorem decodeOfEncodeGivesTheCommand : Obligations.DecodeOfEncodeGivesTheCommand := by
  intro hasSfp i h
  have hop : opcodeOf hasSfp i.opcode.toByte = some i.opcode := opcodeOf_toByte hasSfp i.opcode (Instr.hasSfp_of_wf h)
  simp only [encode, decodeFrame, hop]
  exact decodeOperands_encodeOperands h

/-! ### Each format: the wrong length, or operands that it is the encoding of -/

/-- The byte count is the byte it was read from. -/
theorem countByte_of_length {data : List Byte} {n : Byte} (h : data.length = n.toNat) : countByte data = n := by
  simp [countByte, h]

theorem formatZ_cases (i : Instr) (l : List Byte) :
    (l.length ≠ 0 ∧ formatZ i l = .error .wrongLength) ∨ l = [] ∧ formatZ i l = .ok i := by
  match l with
  | [] => exact .inr ⟨rfl, rfl⟩
  | _ :: _ => exact .inl ⟨by simp, rfl⟩

theorem formatC_cases (f : Byte → Except DecodeError Instr) (l : List Byte) :
    (l.length ≠ 1 ∧ formatC f l = .error .wrongLength) ∨ ∃ a, l = [a] ∧ formatC f l = f a := by
  match l with
  | [a] => exact .inr ⟨a, rfl, rfl⟩
  | [] => exact .inl ⟨by simp, rfl⟩
  | _ :: _ :: _ => exact .inl ⟨by simp, rfl⟩

theorem formatA0_cases (f : Addr → Instr) (l : List Byte) :
    (l.length ≠ 2 ∧ formatA0 f l = .error .wrongLength) ∨ ∃ addr, l = bytesLE addr ∧ formatA0 f l = .ok (f addr) := by
  match l with
  | [lo, hi] => exact .inr ⟨u16le lo hi, (bytesLE_u16le lo hi).symm, rfl⟩
  | [] | [_] => exact .inl ⟨by simp, rfl⟩
  | _ :: _ :: _ :: _ => exact .inl ⟨by simp, rfl⟩

theorem formatA1_cases (f : Addr → Byte → Instr) (l : List Byte) :
    (l.length ≠ 3 ∧ formatA1 f l = .error .wrongLength) ∨
      ∃ addr d, l = bytesLE addr ++ [d] ∧ formatA1 f l = .ok (f addr d) := by
  match l with
  | [lo, hi, d] => exact .inr ⟨u16le lo hi, d, by simp, rfl⟩
  | [] | [_] | [_, _] => exact .inl ⟨by simp, rfl⟩
  | _ :: _ :: _ :: _ :: _ => exact .inl ⟨by simp, rfl⟩

theorem formatAP_cases (f : Addr → List Byte → Instr) (l : List Byte) :
    (l.length ≠ 3 + (byteAt l 2).toNat ∧ formatAP f l = .error .wrongLength) ∨
      ∃ addr data, data.length ≤ 255 ∧ l = bytesLE addr ++ countByte data :: data ∧ formatAP f l = .ok (f addr data) := by
  match l with
  | lo :: hi :: n :: data =>
    by_cases hn : data.length = n.toNat
    · exact .inr ⟨u16le lo hi, data, by omega, by simp [countByte_of_length hn], if_pos hn⟩
    · exact .inl ⟨by simp [byteAt]; omega, if_neg hn⟩
  | [] | [_] | [_, _] => exact .inl ⟨by simp [byteAt], rfl⟩

theorem formatB0_cases (f : Addr → Addr → Instr) (l : List Byte) :
    (l.length ≠ 4 ∧ formatB0 f l = .error .wrongLength) ∨
      ∃ base off, l = bytesLE base ++ bytesLE off ∧ formatB0 f l = .ok (f base off) := by
  match l with
  | [baseLo, baseHi, offLo, offHi] => exact .inr ⟨u16le baseLo baseHi, u16le offLo offHi, by simp, rfl⟩
  | [] | [_] | [_, _] | [_, _, _] => exact .inl ⟨by simp, rfl⟩
  | _ :: _ :: _ :: _ :: _ :: _ => exact .inl ⟨by simp, rfl⟩

theorem formatB1_cases (f : Addr → Addr → Byte → Instr) (l : List Byte) :
    (l.length ≠ 5 ∧ formatB1 f l = .error .wrongLength) ∨
      ∃ base off d, l = bytesLE base ++ bytesLE off ++ [d] ∧ formatB1 f l = .ok (f base off d) := by
  match l with
  | [baseLo, baseHi, offLo, offHi, d] => exact .inr ⟨u16le baseLo baseHi, u16le offLo offHi, d, by simp, rfl⟩
  | [] | [_] | [_, _] | [_, _, _] | [_, _, _, _] => exact .inl ⟨by simp, rfl⟩
  | _ :: _ :: _ :: _ :: _ :: _ :: _ => exact .inl ⟨by simp, rfl⟩

theorem formatBP_cases (f : Addr → Addr → List Byte → Instr) (l : List Byte) :
    (l.length ≠ 5 + (byteAt l 4).toNat ∧ formatBP f l = .error .wrongLength) ∨
      ∃ base off data, data.length ≤ 255 ∧ l = bytesLE base ++ bytesLE off ++ countByte data :: data ∧
        formatBP f l = .ok (f base off data) := by
  match l with
  | baseLo :: baseHi :: offLo :: offHi :: n :: data =>
    by_cases hn : data.length = n.toNat
    · exact .inr ⟨u16le baseLo baseHi, u16le offLo offHi, data, by omega, by simp [countByte_of_length hn], if_pos hn⟩
    · exact .inl ⟨by simp [byteAt]; omega, if_neg hn⟩
  | [] | [_] | [_, _] | [_, _, _] | [_, _, _, _] => exact .inl ⟨by simp [byteAt], rfl⟩

theorem formatG_cases (f : Byte → Byte → Except DecodeError Instr) (l : List Byte) :
    (l.length ≠ 2 ∧ formatG f l = .error .wrongLength) ∨ ∃ pin ctl, l = [pin, ctl] ∧ formatG f l = f pin ctl := by
  match l with
  | [pin, ctl] => exact .inr ⟨pin, ctl, rfl, rfl⟩
  | [] | [_] => exact .inl ⟨by simp, rfl⟩
  | _ :: _ :: _ :: _ => exact .inl ⟨by simp, rfl⟩

/-! ### The reserved bits -/

/-- R94: `mask[7:2]` non-zero, or the `mask` of an `INVAL`. -/
theorem decodeMask_cases (m : Byte) :
    (4 ≤ m.toNat ∧ decodeMask m = .error .reservedBits) ∨
      m.toNat < 4 ∧ ∃ mask, m = (0 : BitVec 6) ++ mask ∧ decodeMask m = .ok (.inval mask) := by
  revert m
  decide

/-- R91: a byte below 4 is the `ctl` of its bits 1 and 0. -/
theorem controlByte_of_lt (ctl : Byte) (h : ctl.toNat < 4) : ctl = controlByte (ctl.getLsbD 1) (ctl.getLsbD 0) := by
  revert ctl
  decide

theorem reservedClear_eq (b : Byte) : reservedClear b = decide (b.toNat < 4) := by
  revert b
  decide

/-- R94: `ctl[7:2]` non-zero, or the `ctl` of a `GPIO.CFGIN` or a `GPIO.CFGOUT`. -/
theorem decodeConfigure_cases (pin ctl : Byte) :
    (4 ≤ ctl.toNat ∧ decodeConfigure pin ctl = .error .reservedBits) ∨
      ctl.toNat < 4 ∧ ∃ output value, ctl = controlByte output value ∧
        decodeConfigure pin ctl = .ok (if output then .gpioCfgout pin value else .gpioCfgin pin value) := by
  by_cases h : ctl.toNat < 4
  · refine .inr ⟨h, _, _, controlByte_of_lt ctl h, ?_⟩
    conv_lhs => rw [controlByte_of_lt ctl h]
    exact decodeConfigure_encode ..
  · exact .inl ⟨by omega, by simp [decodeConfigure, reservedClear_eq, h]⟩

/-! ### The checks of a frame under a listed opcode -/

/-- R95: the frame of a command has the length that its format requires. -/
theorem length_encode {hasSfp : Bool} {i : Instr} (h : i.wf hasSfp = true) :
    (encode i).length = i.opcode.requiredLength (encode i) := by
  cases i with
  | prsWrblk addr data =>
    exact (Laws.FrameShape.prsWrblk addr data).2.trans (congrArg (4 + ·) (countByte_toNat (of_decide_eq_true h)).symm)
  | prsWrblko base off data =>
    exact (Laws.FrameShape.prsWrblko base off data).2.trans (congrArg (6 + ·) (countByte_toNat (of_decide_eq_true h)).symm)
  | _ => rfl

theorem controlByte_lt (output value : Bool) : (controlByte output value).toNat < 4 := by
  cases output <;> cases value <;> decide

/-- R94: the reserved bits of a command's frame are zero. -/
theorem not_reservedBits_encode (i : Instr) : ¬ i.opcode.ReservedBits (encode i) := by
  cases i with
  | inval mask =>
    rintro (⟨_, h⟩ | ⟨h, _⟩)
    · revert mask
      decide
    · cases h
  | gpioCfgin pin value => exact fun h => h.elim (nomatch ·.1) fun h => (controlByte_lt false value).not_ge h.2
  | gpioCfgout pin value => exact fun h => h.elim (nomatch ·.1) fun h => (controlByte_lt true value).not_ge h.2
  | _ => simp [Instr.opcode]

/-- R94 to R96: what the decoder may answer to a frame whose opcode is `k`: a wrong length, else reserved bits, else the command
of that opcode which the frame encodes. -/
inductive Checked (hasSfp : Bool) (k : Opcode) (frame : List Byte) : Except DecodeError Instr → Prop
  | wrongLength (hlen : frame.length ≠ k.requiredLength frame) : Checked hasSfp k frame (.error .wrongLength)
  | reservedBits (hlen : frame.length = k.requiredLength frame) (hbits : k.ReservedBits frame) :
      Checked hasSfp k frame (.error .reservedBits)
  | command (i : Instr) (hk : i.opcode = k) (hwf : i.wf hasSfp = true) (hframe : encode i = frame) :
      Checked hasSfp k frame (.ok i)

section
variable {hasSfp : Bool} {k : Opcode} {l : List Byte} {d : Except DecodeError Instr}

/-- A format of which the operands take `n` bytes, and have no reserved bits or zero ones. -/
theorem Checked.of_format {n : Nat} (hn : k.requiredLength (k.toByte :: l) = n + 1)
    (h : (l.length ≠ n ∧ d = .error .wrongLength) ∨
      ∃ i : Instr, i.opcode = k ∧ i.wf hasSfp = true ∧ l = encodeOperands i ∧ d = .ok i) :
    Checked hasSfp k (k.toByte :: l) d := by
  rcases h with ⟨hlen, rfl⟩ | ⟨i, rfl, hwf, rfl, rfl⟩
  · exact .wrongLength (by simpa [hn] using hlen)
  · exact .command i rfl hwf rfl

end

/-- R94 to R96, for the operands in the format of each opcode. -/
theorem decodeOperands_checked {hasSfp : Bool} {k : Opcode} (hk : k = .sfpPoll → hasSfp = true) (l : List Byte) :
    Checked hasSfp k (k.toByte :: l) (decodeOperands k l) := by
  cases k with
  | muxSel => exact .of_format rfl ((formatC_cases _ l).imp_right fun ⟨a, hl, he⟩ => ⟨.muxSel a, rfl, rfl, hl, he⟩)
  | muxClose => exact .of_format rfl ((formatZ_cases _ l).imp_right fun ⟨hl, he⟩ => ⟨.muxClose, rfl, rfl, hl, he⟩)
  | inval =>
    rcases formatC_cases decodeMask l with ⟨hlen, he⟩ | ⟨m, rfl, he⟩
    · exact .of_format rfl (.inl ⟨hlen, he⟩)
    · rcases decodeMask_cases m with ⟨hm, hd⟩ | ⟨_, mask, rfl, hd⟩ <;> simp only [decodeOperands, he, hd]
      · exact .reservedBits rfl (.inl ⟨rfl, hm⟩)
      · exact .command (.inval mask) rfl rfl rfl
  | prsEnsure => exact .of_format rfl ((formatZ_cases _ l).imp_right fun ⟨hl, he⟩ => ⟨.prsEnsure, rfl, rfl, hl, he⟩)
  | prsWrb =>
    exact .of_format rfl ((formatA1_cases _ l).imp_right fun ⟨a, d, hl, he⟩ => ⟨.prsWrb a d, rfl, rfl, hl, he⟩)
  | prsRdb => exact .of_format rfl ((formatA0_cases _ l).imp_right fun ⟨a, hl, he⟩ => ⟨.prsRdb a, rfl, rfl, hl, he⟩)
  | prsWrblk =>
    exact .of_format (Nat.add_right_comm 3 1 _) ((formatAP_cases _ l).imp_right fun ⟨a, data, hn, hl, he⟩ =>
      ⟨.prsWrblk a data, rfl, decide_eq_true hn, hl, he⟩)
  | prsRdblk =>
    exact .of_format rfl ((formatA1_cases _ l).imp_right fun ⟨a, d, hl, he⟩ => ⟨.prsRdblk a d, rfl, rfl, hl, he⟩)
  | prsWrbo =>
    exact .of_format rfl ((formatB1_cases _ l).imp_right fun ⟨b, o, d, hl, he⟩ => ⟨.prsWrbo b o d, rfl, rfl, hl, he⟩)
  | prsRdbo =>
    exact .of_format rfl ((formatB0_cases _ l).imp_right fun ⟨b, o, hl, he⟩ => ⟨.prsRdbo b o, rfl, rfl, hl, he⟩)
  | prsWrblko =>
    exact .of_format (Nat.add_right_comm 5 1 _) ((formatBP_cases _ l).imp_right fun ⟨b, o, data, hn, hl, he⟩ =>
      ⟨.prsWrblko b o data, rfl, decide_eq_true hn, hl, he⟩)
  | prsRdblko =>
    exact .of_format rfl ((formatB1_cases _ l).imp_right fun ⟨b, o, d, hl, he⟩ => ⟨.prsRdblko b o d, rfl, rfl, hl, he⟩)
  | gpioCfg =>
    rcases formatG_cases decodeConfigure l with ⟨hlen, he⟩ | ⟨pin, ctl, rfl, he⟩
    · exact .of_format rfl (.inl ⟨hlen, he⟩)
    · rcases decodeConfigure_cases pin ctl with ⟨hctl, hd⟩ | ⟨_, output, value, rfl, hd⟩ <;>
        simp only [decodeOperands, he, hd]
      · exact .reservedBits rfl (.inr ⟨rfl, hctl⟩)
      · cases output
        · exact .command (.gpioCfgin pin value) rfl rfl rfl
        · exact .command (.gpioCfgout pin value) rfl rfl rfl
  | gpioRdmode =>
    exact .of_format rfl ((formatC_cases _ l).imp_right fun ⟨a, hl, he⟩ => ⟨.gpioRdmode a, rfl, rfl, hl, he⟩)
  | sfpPoll =>
    exact .of_format rfl ((formatC_cases _ l).imp_right fun ⟨a, hl, he⟩ => ⟨.sfpPoll a, rfl, hk rfl, hl, he⟩)

/-- R93, R94: the opcode of a frame is the listed one whose byte it begins with. -/
theorem opcodeOf_eq_some_iff {hasSfp : Bool} {b : Byte} {k : Opcode} :
    opcodeOf hasSfp b = some k ↔ Opcode.Listed hasSfp b k := by
  refine ⟨fun h => ⟨(toByte_of_opcodeOf h).symm, ?_⟩, fun ⟨hb, hk⟩ => hb ▸ opcodeOf_toByte hasSfp k hk⟩
  rintro rfl
  obtain rfl := toByte_of_opcodeOf h
  cases hasSfp
  · cases h
  · rfl

/-- R94 to R96, for a frame with a listed opcode. -/
theorem decodeFrame_checked {hasSfp : Bool} {op : Byte} {k : Opcode} (h : Opcode.Listed hasSfp op k) (l : List Byte) :
    Checked hasSfp k (op :: l) (decodeFrame hasSfp (op :: l)) := by
  simp only [decodeFrame, opcodeOf_eq_some_iff.2 h]
  exact h.1 ▸ decodeOperands_checked h.2 l

/-- R94: a frame with no listed opcode. -/
theorem decodeFrame_of_not_listed {hasSfp : Bool} {op : Byte} (h : ∀ k, ¬ Opcode.Listed hasSfp op k) (l : List Byte) :
    decodeFrame hasSfp (op :: l) = .error .reservedOpcode := by
  have hnone : opcodeOf hasSfp op = none := Option.eq_none_iff_forall_ne_some.2 fun k hk => h k (opcodeOf_eq_some_iff.1 hk)
  simp [decodeFrame, hnone]

/-- Settles O2: the decoder answers a command only where the frame is its encoding. -/
theorem encodeOfDecodeGivesTheFrame : Obligations.EncodeOfDecodeGivesTheFrame := by
  intro hasSfp frame i h
  cases frame with
  | nil => cases h
  | cons op l =>
    by_cases hlisted : ∃ k, Opcode.Listed hasSfp op k
    · obtain ⟨k, hk⟩ := hlisted
      have hchecked := decodeFrame_checked hk l
      rw [h] at hchecked
      cases hchecked with
      | command _ _ hwf hframe => exact ⟨hframe, hwf⟩
    · rw [decodeFrame_of_not_listed (not_exists.1 hlisted)] at h
      cases h

/-- Settles O4: each check refuses what the ones before it let pass. -/
theorem checksComeInTheFixedOrder : Obligations.ChecksComeInTheFixedOrder := by
  intro hasSfp frame hne
  obtain ⟨op, l, rfl⟩ := List.exists_cons_of_ne_nil hne
  refine ⟨fun h => decodeFrame_of_not_listed h l, fun k hk => ?_⟩
  have hchecked : Checked hasSfp k (op :: l) (decodeFrame hasSfp (op :: l)) := decodeFrame_checked hk l
  generalize decodeFrame hasSfp (op :: l) = d at hchecked ⊢
  cases hchecked with
  | wrongLength hlen => exact ⟨fun _ => rfl, fun h => absurd h hlen, fun h => absurd h hlen⟩
  | reservedBits hlen hbits => exact ⟨fun h => absurd hlen h, fun _ _ => rfl, fun _ h => absurd hbits h⟩
  | command i hopcode hwf hframe =>
    have hlen := length_encode hwf
    have hbits := not_reservedBits_encode i
    rw [hopcode, hframe] at hlen hbits
    exact ⟨fun h => absurd hlen h, fun _ h => absurd h hbits, fun _ _ => ⟨i, rfl, hopcode⟩⟩

end Sys2Proof
end

section
/-! The opcode table (spec/30_encoding.md section 5): a row's mask and match read byte by byte, the frames that match a row, and
that the decoder accepts these and names the row. -/

namespace Sys2Proof

/-! ### Big-endian numbers, byte by byte -/

theorem bigEndian_concat (bytes : List Byte) (b : Byte) : bigEndian (bytes ++ [b]) = 2 ^ 8 * bigEndian bytes + b.toNat := by
  simp [bigEndian, Nat.mul_comm]

/-- A mask is applied to each byte. -/
theorem bigEndian_land {xs ys : List Byte} (h : xs.length = ys.length) :
    bigEndian xs &&& bigEndian ys = bigEndian (List.zipWith (· &&& ·) xs ys) := by
  induction xs using List.reverseRecOn generalizing ys with
  | nil => simp [bigEndian]
  | append_singleton xs x ih =>
    rcases List.eq_nil_or_concat' ys with rfl | ⟨ys, y, rfl⟩
    · simp at h
    · have hlen : xs.length = ys.length := by simpa using h
      rw [List.zipWith_append hlen, List.zipWith_cons_cons, List.zipWith_nil_left]
      simp only [bigEndian_concat, ← ih hlen, BitVec.toNat_and]
      apply Nat.eq_of_testBit_eq
      intro i
      simp only [Nat.testBit_and, Nat.testBit_two_pow_mul_add _ x.isLt, Nat.testBit_two_pow_mul_add _ y.isLt,
        Nat.testBit_two_pow_mul_add _ (Nat.and_lt_two_pow x.toNat y.isLt)]
      split <;> rfl

/-- Two headers of the same length are the same number only where they are the same bytes. -/
theorem bigEndian_inj {xs ys : List Byte} (h : xs.length = ys.length) : bigEndian xs = bigEndian ys ↔ xs = ys := by
  refine ⟨fun he => ?_, fun he => he ▸ rfl⟩
  induction xs using List.reverseRecOn generalizing ys with
  | nil => exact (List.eq_nil_of_length_eq_zero h.symm).symm
  | append_singleton xs x ih =>
    rcases List.eq_nil_or_concat' ys with rfl | ⟨ys, y, rfl⟩
    · simp at h
    · rw [bigEndian_concat, bigEndian_concat] at he
      have hx := x.isLt
      have hy := y.isLt
      rw [ih (by simpa using h) (by omega), BitVec.eq_of_toNat_eq (by omega : x.toNat = y.toNat)]

/-! ### The frames that match a row -/

/-- A row matches a frame of its length whose header, masked byte by byte, is the row's `match`. -/
theorem OpcodeRow.matches_iff (m k : List Byte) (h : m.length = k.length) {name : String} {payload : Bool}
    {frame : List Byte} :
    OpcodeRow.matches ⟨name, bigEndian m, bigEndian k, m.length, payload⟩ frame = true ↔
      List.zipWith (· &&& ·) (frame.take m.length) k = m ∧
        frame.length = m.length + if payload then (byteAt (frame.take m.length) (m.length - 1)).toNat else 0 := by
  simp only [OpcodeRow.matches, Bool.and_eq_true, beq_iff_eq]
  refine and_congr_left fun hlen => ?_
  have htake : (frame.take m.length).length = k.length := by simp [← h, hlen]
  rw [bigEndian_land htake]
  exact bigEndian_inj (by simp [← h, hlen])

/-- R91, R94: the frames of the commands of an opcode. -/
theorem exists_encode_iff {k : Opcode} {frame : List Byte} :
    (∃ i : Instr, i.opcode = k ∧ i.wf true = true ∧ encode i = frame) ↔
      ∃ l, frame = k.toByte :: l ∧ frame.length = k.requiredLength frame ∧ ¬ k.ReservedBits frame := by
  constructor
  · rintro ⟨i, rfl, hwf, rfl⟩
    exact ⟨_, rfl, length_encode hwf, not_reservedBits_encode i⟩
  · rintro ⟨l, rfl, hlen, hbits⟩
    have hchecked := decodeOperands_checked (hasSfp := true) (k := k) (fun _ => rfl) l
    generalize decodeOperands k l = d at hchecked
    cases hchecked with
    | wrongLength h => exact absurd hlen h
    | reservedBits _ h => exact absurd h hbits
    | command i hk hwf hframe => exact ⟨i, hk, hwf, hframe⟩

/-- A header masked to its first byte. -/
theorem zipWith_opcode_iff {op : Byte} {n : Nat} {header : List Byte} (h : header.length = n + 1) :
    List.zipWith (· &&& ·) header (0xFF :: List.replicate n 0) = op :: List.replicate n 0 ↔ header.head? = some op := by
  obtain ⟨a, l, rfl⟩ := List.exists_cons_of_length_eq_add_one h
  have hop : a &&& 0xFF = a := BitVec.and_allOnes
  have hzero : List.zipWith (· &&& ·) l (List.replicate n 0) = List.replicate n (0 : Byte) := by
    refine List.eq_replicate_iff.2 ⟨by simp at h ⊢; omega, fun b hb => ?_⟩
    obtain ⟨j, hj, rfl⟩ := List.getElem_of_mem hb
    simp
  rw [List.zipWith_cons_cons, hop, hzero]
  simp

theorem byteAt_take (frame : List Byte) (n : Nat) : byteAt (frame.take (n + 1)) n = byteAt frame n := by
  simp [byteAt]

/-- The rows that ask for an opcode and a length only (all but those with reserved bits): the frames that match are those of the
commands of the opcode, which has one mnemonic. -/
theorem OpcodeRow.matches_plain_iff {k : Opcode} {n : Nat} {payload : Bool} {name : String} {frame : List Byte}
    (hlen : ∀ l, k.requiredLength (k.toByte :: l) = n + 1 + if payload then (byteAt (k.toByte :: l) n).toNat else 0)
    (hbits : k ≠ .inval ∧ k ≠ .gpioCfg)
    (hname : ∀ i : Instr, i.mnemonic = name ↔ i.opcode = k := by intro i; cases i <;> simp [Instr.mnemonic, Instr.opcode]) :
    OpcodeRow.matches
        ⟨name, bigEndian (k.toByte :: List.replicate n 0), bigEndian (0xFF :: List.replicate n 0), n + 1, payload⟩
        frame = true ↔
      ∃ i : Instr, i.mnemonic = name ∧ i.wf true = true ∧ encode i = frame := by
  have hiff := OpcodeRow.matches_iff (k.toByte :: List.replicate n 0) (0xFF :: List.replicate n 0) (by simp) (name := name)
    (payload := payload) (frame := frame)
  simp only [List.length_cons, List.length_replicate, Nat.add_sub_cancel, byteAt_take] at hiff
  simp only [hname, exists_encode_iff, Opcode.ReservedBits, hbits, false_and, or_self, not_false_iff, and_true]
  rw [hiff]
  constructor
  · rintro ⟨hhead, hframe⟩
    rw [zipWith_opcode_iff (by rw [List.length_take]; omega), List.head?_take, if_neg n.succ_ne_zero] at hhead
    obtain ⟨l, rfl⟩ := List.head?_eq_some_iff.1 hhead
    exact ⟨l, rfl, hframe.trans (hlen l).symm⟩
  · rintro ⟨l, rfl, hframe⟩
    rw [hlen] at hframe
    exact ⟨(zipWith_opcode_iff (by rw [List.length_take]; omega)).2 rfl, hframe⟩

/-- `INVAL`: its row also asks for zero reserved bits. -/
theorem OpcodeRow.matches_inval_iff {name : String} {frame : List Byte} :
    OpcodeRow.matches ⟨name, 0x0300, 0xFFFC, 2, false⟩ frame = true ↔
      ∃ mask : BitVec 2, frame = [0x03, (0 : BitVec 6) ++ mask] := by
  have hmask : ∀ m : Byte, m &&& 0xFC = 0 ↔ ∃ mask : BitVec 2, m = (0 : BitVec 6) ++ mask := by decide
  refine (OpcodeRow.matches_iff [0x03, 0] [0xFF, 0xFC] rfl).trans ⟨?_, ?_⟩
  · rintro ⟨hheader, hlen⟩
    obtain ⟨op, m, rfl⟩ := List.length_eq_two.1 hlen
    obtain ⟨hop, hm⟩ : op &&& 0xFF = 0x03 ∧ m &&& 0xFC = 0 := by simpa using hheader
    obtain rfl : op = 0x03 := BitVec.and_allOnes.symm.trans hop
    obtain ⟨mask, rfl⟩ := (hmask m).1 hm
    exact ⟨mask, rfl⟩
  · rintro ⟨mask, rfl⟩
    exact ⟨by simpa using (hmask _).2 ⟨mask, rfl⟩, rfl⟩

/-- The two rows of opcode `0x20`: each asks for zero reserved bits and for its `mode`. -/
theorem OpcodeRow.matches_gpioCfg_iff {name : String} {output : Bool} {frame : List Byte} :
    OpcodeRow.matches ⟨name, bigEndian [0x20, 0, controlByte output false], 0xFF00FE, 3, false⟩ frame = true ↔
      ∃ pin value, frame = [0x20, pin, controlByte output value] := by
  have hctl : ∀ ctl : Byte, ctl &&& 0xFE = controlByte output false ↔ ∃ value, ctl = controlByte output value := by
    cases output <;> decide
  refine (OpcodeRow.matches_iff [0x20, 0, controlByte output false] [0xFF, 0, 0xFE] rfl).trans ⟨?_, ?_⟩
  · rintro ⟨hheader, hlen⟩
    obtain ⟨op, pin, ctl, rfl⟩ := List.length_eq_three.1 hlen
    obtain ⟨hop, hc⟩ : op &&& 0xFF = 0x20 ∧ ctl &&& 0xFE = controlByte output false := by simpa using hheader
    obtain rfl : op = 0x20 := BitVec.and_allOnes.symm.trans hop
    obtain ⟨value, rfl⟩ := (hctl ctl).1 hc
    exact ⟨pin, value, rfl⟩
  · rintro ⟨pin, value, rfl⟩
    exact ⟨by simpa using (hctl _).2 ⟨value, rfl⟩, rfl⟩

/-- 30_encoding.md section 5: the frames that match a row are those of the commands with its mnemonic. -/
theorem OpcodeRow.matches_iff_encode {row : OpcodeRow} (h : row ∈ opcodeTable) (frame : List Byte) :
    row.matches frame = true ↔ ∃ i : Instr, i.mnemonic = row.mnemonic ∧ i.wf true = true ∧ encode i = frame := by
  simp only [opcodeTable, List.cons_append, List.nil_append, List.mem_cons, List.not_mem_nil, or_false] at h
  rcases h with rfl | rfl | rfl | rfl | rfl | rfl | rfl | rfl | rfl | rfl | rfl | rfl | rfl | rfl | rfl | rfl
  · exact matches_plain_iff (k := .muxSel) (n := 1) (fun _ => rfl) ⟨nofun, nofun⟩
  · exact matches_plain_iff (k := .muxClose) (n := 0) (fun _ => rfl) ⟨nofun, nofun⟩
  · refine matches_inval_iff.trans ⟨fun ⟨mask, h⟩ => ⟨.inval mask, rfl, rfl, h.symm⟩, fun ⟨i, hi, _, h⟩ => ?_⟩
    cases i with
    | inval mask => exact ⟨mask, h.symm⟩
    | _ => simp [Instr.mnemonic] at hi
  · exact matches_plain_iff (k := .prsEnsure) (n := 0) (fun _ => rfl) ⟨nofun, nofun⟩
  · exact matches_plain_iff (k := .prsWrb) (n := 3) (fun _ => rfl) ⟨nofun, nofun⟩
  · exact matches_plain_iff (k := .prsRdb) (n := 2) (fun _ => rfl) ⟨nofun, nofun⟩
  · exact matches_plain_iff (k := .prsWrblk) (n := 3) (fun _ => rfl) ⟨nofun, nofun⟩
  · exact matches_plain_iff (k := .prsRdblk) (n := 3) (fun _ => rfl) ⟨nofun, nofun⟩
  · exact matches_plain_iff (k := .prsWrbo) (n := 5) (fun _ => rfl) ⟨nofun, nofun⟩
  · exact matches_plain_iff (k := .prsRdbo) (n := 4) (fun _ => rfl) ⟨nofun, nofun⟩
  · exact matches_plain_iff (k := .prsWrblko) (n := 5) (fun _ => rfl) ⟨nofun, nofun⟩
  · exact matches_plain_iff (k := .prsRdblko) (n := 5) (fun _ => rfl) ⟨nofun, nofun⟩
  · refine (matches_gpioCfg_iff (output := false)).trans
      ⟨fun ⟨pin, value, h⟩ => ⟨.gpioCfgin pin value, rfl, rfl, h.symm⟩, fun ⟨i, hi, _, h⟩ => ?_⟩
    cases i with
    | gpioCfgin pin value => exact ⟨pin, value, h.symm⟩
    | _ => simp [Instr.mnemonic] at hi
  · refine (matches_gpioCfg_iff (output := true)).trans
      ⟨fun ⟨pin, value, h⟩ => ⟨.gpioCfgout pin value, rfl, rfl, h.symm⟩, fun ⟨i, hi, _, h⟩ => ?_⟩
    cases i with
    | gpioCfgout pin value => exact ⟨pin, value, h.symm⟩
    | _ => simp [Instr.mnemonic] at hi
  · exact matches_plain_iff (k := .gpioRdmode) (n := 1) (fun _ => rfl) ⟨nofun, nofun⟩
  · exact matches_plain_iff (k := .sfpPoll) (n := 1) (fun _ => rfl) ⟨nofun, nofun⟩

/-! ### The decoder and the table -/

/-- R91, R93: the decoder answers a command exactly where the frame is its encoding. -/
theorem decodeFrame_eq_ok_iff {hasSfp : Bool} {frame : List Byte} {i : Instr} :
    decodeFrame hasSfp frame = .ok i ↔ encode i = frame ∧ i.wf hasSfp = true :=
  ⟨encodeOfDecodeGivesTheFrame hasSfp frame i, fun ⟨h, hwf⟩ => h ▸ decodeOfEncodeGivesTheCommand hasSfp i hwf⟩

/-- `HAS_SFP` conditions `SFP.POLL` only (R91, R93). -/
theorem Instr.wf_iff (hasSfp : Bool) (i : Instr) :
    i.wf hasSfp = true ↔ i.wf true = true ∧ (hasSfp || i.mnemonic != "SFP.POLL") = true := by
  cases i <;> simp [Instr.wf, Instr.mnemonic]

/-- Every command has exactly one row. -/
theorem rows_of_mnemonic (i : Instr) :
    (opcodeTable.filter (·.mnemonic == i.mnemonic)).map (·.mnemonic) = [i.mnemonic] := by
  have hnodup : (opcodeTable.map (·.mnemonic)).Nodup := by decide
  have hmem : i.mnemonic ∈ opcodeTable.map (·.mnemonic) := by cases i <;> simp [Instr.mnemonic, opcodeTable]
  calc (opcodeTable.filter (·.mnemonic == i.mnemonic)).map (·.mnemonic)
    _ = (opcodeTable.map (·.mnemonic)).filter (· == i.mnemonic) := by rw [List.filter_map]; rfl
    _ = [i.mnemonic] := by rw [List.filter_beq, List.count_eq_one_of_mem hnodup hmem, List.replicate_one]

/-- Settles O3: a row matches the frames of the commands with its mnemonic, and a frame is of one command only. -/
theorem decoderAgreesWithTheOpcodeTable : Obligations.DecoderAgreesWithTheOpcodeTable := by
  intro hasSfp frame rows
  refine ⟨fun i hi => ?_, fun e he => List.filter_eq_nil_iff.2 fun row hrow hm => ?_⟩
  · obtain ⟨rfl, hwf⟩ := decodeFrame_eq_ok_iff.1 hi
    obtain ⟨hwf, hsfp⟩ := (Instr.wf_iff hasSfp i).1 hwf
    rw [← rows_of_mnemonic i, List.filter_filter]
    refine congrArg _ (List.filter_congr fun row hrow => Bool.eq_iff_iff.2 ?_)
    rw [Bool.and_eq_true, OpcodeRow.matches_iff_encode hrow, beq_iff_eq]
    refine ⟨fun ⟨⟨j, hj, hwfj, he⟩, _⟩ => ?_, fun h => ⟨⟨i, h.symm, hwf, rfl⟩, h ▸ hsfp⟩⟩
    have hji := decodeFrame_eq_ok_iff.2 ⟨he, hwfj⟩
    rw [decodeFrame_eq_ok_iff.2 ⟨rfl, hwf⟩] at hji
    cases hji
    exact hj.symm
  · obtain ⟨hmem, hsfp⟩ := List.mem_filter.1 hrow
    obtain ⟨i, hi, hwf, henc⟩ := (OpcodeRow.matches_iff_encode hmem frame).1 hm
    rw [decodeFrame_eq_ok_iff.2 ⟨henc, (Instr.wf_iff hasSfp i).2 ⟨hwf, hi ▸ hsfp⟩⟩] at he
    cases he

end Sys2Proof
end

section
/-! The assembler (spec/30_encoding.md rules R100 and R101 and section 4), and `MUX.CLOSE` as a command of its own (R132). -/

namespace Sys2Proof
open Sys2Proof.Machine

/-- Settles O6: each line is read into its tokens and these into the frame. -/
theorem assemblesTheWorkedTexts : Obligations.AssemblesTheWorkedTexts :=
  ⟨by decide, by decide, by decide, by decide, by decide, by decide⟩

/-- R132: the procedure of `MUX.CLOSE` is that of `MUX.SEL` of no channel. -/
theorem exec_muxClose (s : State) : exec .muxClose s = exec (.muxSel 0x00) s := rfl

/-- Settles O7: a pseudo-instruction is replaced by its expansion before anything is assembled, whatever its operands are. -/
theorem pseudoInstructionsExpand : Obligations.PseudoInstructionsExpand := by
  refine ⟨fun pin value => ⟨?input, ?output⟩, ?page, ?mux, ?all, ?close, exec_muxClose⟩
  case input =>
    have : expand [.word "GPIO.CFG", .word pin, .comma, .word "IN", .comma, .word value] =
      [.word "GPIO.CFGIN", .word pin, .comma, .word value] := rfl
    rw [assembleTokens, this]
    rfl
  case output =>
    have : expand [.word "GPIO.CFG", .word pin, .comma, .word "OUT", .comma, .word value] =
      [.word "GPIO.CFGOUT", .word pin, .comma, .word value] := rfl
    rw [assembleTokens, this]
    rfl
  all_goals decide

end Sys2Proof
end

section
/-! The info byte (spec/30_encoding.md rule R97, spec/10_state.md rule R23, spec/60_exceptions.md rules R231 and R233): the
response frame that ends a command, what the latches say of the transactions so far, and that every line keeps it. -/

namespace Sys2Proof.Machine

/-! ### The response that ends a command -/

/-- R97, R231: the response frame with which a command ends whose last `tix` is `tix`. -/
def Work.response (c : Params) (tix : BitVec 8) (w : Work) : List Byte :=
  match w.ending with
  | .respond reply => 0x00 :: tix :: reply.payload c w.bytes
  | .raise (.busError info) => [0x01, info]
  | .raise .invalidArgument => [0x02, 0x00]
  | .raise .illegalCommand => [0x03, 0x00]

theorem State.endCommand_respPort_eq (tix : BitVec 8) (w : Work) (s : State) :
    (s.endCommand tix w).respPort = s.respPort ++ [w.response s.cfg tix] := by
  unfold State.endCommand Work.response
  cases w.ending with
  | respond reply => rfl
  | raise e => cases e <;> rfl

/-! ### The successful transactions of a trace -/

/-- Every transaction of a trace has succeeded. -/
def AllSucceeded (log : List BusRecord) : Prop := ∀ x ∈ log, ∃ bytes, x.completion = .ok bytes

theorem AllSucceeded.concat {log : List BusRecord} (h : AllSucceeded log) (r : BusRequest) (bytes : List Byte) :
    AllSucceeded (log ++ [⟨r, .ok bytes⟩]) :=
  List.forall_mem_append.2 ⟨h, List.forall_mem_singleton.2 ⟨bytes, rfl⟩⟩

theorem AllSucceeded.okCount_eq {log : List BusRecord} (h : AllSucceeded log) : okCount log = log.length := by
  refine List.countP_eq_length.2 fun x hx => ?_
  obtain ⟨bytes, hb⟩ := h x hx
  simp [hb]

theorem okCount_concat_ok (log : List BusRecord) (r : BusRequest) (bytes : List Byte) :
    okCount (log ++ [⟨r, .ok bytes⟩]) = okCount log + 1 := by
  simp [okCount]

theorem okCount_concat_fail (log : List BusRecord) (r : BusRequest) : okCount (log ++ [⟨r, .fail⟩]) = okCount log := by
  simp [okCount]

/-! ### Lines whose failure ends the command -/

/-- R8: where a transaction of the line fails, the command ends at once with its index. -/
def Line.Raises (line : Line) : Prop :=
  ∀ c mux page bytes r, line.request c mux page bytes = some r → ∀ w tix, line.failed w tix = w.raise (.busError tix)

theorem Line.raises_pagedLines {c : Params} {addr : Addr} {data : Line} (hd : data.Raises) :
    ∀ line ∈ pagedLines c addr data, line.Raises := by
  simp only [pagedLines, ensureChannel, List.forall_mem_cons]
  exact ⟨fun _ _ _ _ _ _ _ _ => rfl, fun _ _ _ _ _ _ _ _ => rfl, hd, nofun⟩

/-- R8: only `SFP.POLL` tolerates failures. -/
theorem raises_of_mem {c : Params} {i : Instr} (h : ∀ slot, i ≠ .sfpPoll slot) {line : Line}
    (hl : line ∈ (workOf c i).todo) : line.Raises := by
  have raises : ∀ {line : Line}, (∀ w tix, line.failed w tix = w.raise (.busError tix)) → line.Raises :=
    fun h _ _ _ _ _ _ => h
  have access : ∀ {addr : Addr} {data : Line}, (∀ w tix, data.failed w tix = w.raise (.busError tix)) →
      line ∈ pagedLines c addr data → line.Raises :=
    fun hd => Line.raises_pagedLines (raises hd) line
  cases i with
  | muxSel | muxClose | prsEnsure =>
    obtain rfl := List.mem_singleton.1 hl
    exact raises fun _ _ => rfl
  | inval =>
    obtain rfl := List.mem_singleton.1 hl
    exact fun _ _ _ _ _ hr => nomatch hr
  | prsWrb | prsRdb => exact access (fun _ _ => rfl) hl
  | prsWrblk | prsRdblk => exact access (fun _ _ => rfl) (mem_withBlockCount hl).2
  | prsWrbo | prsRdbo => exact access (fun _ _ => rfl) (mem_withEffective hl).2
  | prsWrblko | prsRdblko => exact access (fun _ _ => rfl) (mem_withEffective (mem_withBlockCount hl).2).2
  | gpioCfgin =>
    obtain ⟨p, _, hl⟩ := mem_withPin hl
    exact access (fun _ _ => rfl) hl
  | gpioCfgout pin value =>
    obtain ⟨p, _, hl⟩ := mem_withPin hl
    exact raises (raisesOnFailure_configureOutput c p value line hl)
  | gpioRdmode =>
    obtain ⟨p, _, hl⟩ := mem_withPin hl
    exact (List.mem_append.1 hl).elim (access fun _ _ => rfl) (access fun _ _ => rfl)
  | sfpPoll slot => exact absurd rfl (h slot)

/-! ### What the latches say of the transactions so far -/

/-- What the ending of a command says of its trace `log`, where each failed transaction raises if `strict`: none has failed
where it is to respond; only the last one has where it is to raise `BusError` (R231), with its index; there is none where an
argument or the frame was refused (R233, R234). -/
def Ending.Tells (strict : Prop) (log : List BusRecord) : Ending → Prop
  | .respond _ => strict → AllSucceeded log
  | .raise (.busError info) =>
    strict → ∃ before r, log = before ++ [⟨r, .fail⟩] ∧ AllSucceeded before ∧ info = BitVec.ofNat 8 before.length
  | .raise .invalidArgument => log = []
  | .raise .illegalCommand => log = []

/-- The ending of a command that still has lines: it is to respond, or failures are tolerated and it is to raise `BusError`
once the multiplexer is released (R208). -/
def Ending.Open (strict : Prop) (e : Ending) : Prop :=
  (∃ reply, e = .respond reply) ∨ ¬ strict ∧ ∃ info, e = .raise (.busError info)

/-- What the core holds of a command agrees with the trace `log` of that command. -/
structure Work.Tells (strict : Prop) (log : List BusRecord) (tix : BitVec 8) (w : Work) : Prop where
  tix : tix = BitVec.ofNat 8 (okCount log)
  ending : w.ending.Tells strict log
  ended : w.todo = [] ∨ w.ending.Open strict
  raises : strict → ∀ line ∈ w.todo, line.Raises

section
variable {strict : Prop} {log : List BusRecord} {tix : BitVec 8} {w : Work} {line : Line} {rest : List Line}

theorem Ending.Open.tells {e : Ending} (h : e.Open strict) (hn : ¬ strict) (log : List BusRecord) : e.Tells strict log := by
  rcases h with ⟨reply, rfl⟩ | ⟨_, info, rfl⟩ <;> exact fun hs => absurd hs hn

theorem Ending.Open.allSucceeded {e : Ending} (h : e.Open strict) (hs : strict) (ht : e.Tells strict log) :
    AllSucceeded log := by
  rcases h with ⟨reply, rfl⟩ | ⟨hn, _⟩
  · exact ht hs
  · exact absurd hs hn

theorem Ending.Open.respond {e : Ending} (h : e.Open strict) (hlog : strict → AllSucceeded log) : e.Tells strict log := by
  rcases h with ⟨reply, rfl⟩ | ⟨hn, info, rfl⟩
  · exact hlog
  · exact fun hs => absurd hs hn

/-- R233, R234: a command that raises at once has no lines. -/
theorem workOf_todo_of_raise {c : Params} {i : Instr} {e : CommandError} (h : (workOf c i).ending = .raise e) :
    (workOf c i).todo = [] := by
  have answering : ∀ {reply lines}, (Work.answering reply lines).ending ≠ .raise e := nofun
  revert h
  cases i with
  | muxSel | muxClose | inval | prsEnsure | prsWrb | prsRdb => exact fun h => absurd h answering
  | prsWrblk | prsRdblk =>
    simp only [workOf, withBlockCount]
    split
    · exact fun h => absurd h answering
    · exact fun _ => rfl
  | prsWrbo | prsRdbo =>
    simp only [workOf, withEffective]
    split
    · exact fun h => absurd h answering
    · exact fun _ => rfl
  | prsWrblko | prsRdblko =>
    simp only [workOf, withBlockCount, withEffective]
    split
    · split
      · exact fun h => absurd h answering
      · exact fun _ => rfl
    · exact fun _ => rfl
  | gpioCfgin | gpioCfgout | gpioRdmode =>
    simp only [workOf, gpioCfginWork, gpioCfgoutWork, gpioRdmodeWork, withPin]
    split <;> exact fun h => absurd h answering
  | sfpPoll =>
    simp only [workOf, sfpPollWork, whenHasSfp, withSlot]
    split
    · split
      · exact fun _ => rfl
      · exact fun h => absurd h answering
    · exact fun _ => rfl

/-- An accepted command has issued nothing, and it is to respond or has been refused. -/
theorem Work.tells_accepted (c : Params) (i : Instr) : (workOf c i).Tells (∀ slot, i ≠ .sfpPoll slot) [] 0 := by
  have hraises : (∀ slot, i ≠ .sfpPoll slot) → ∀ line ∈ (workOf c i).todo, line.Raises := fun hs _ => raises_of_mem hs
  cases he : (workOf c i).ending with
  | respond reply => exact ⟨rfl, he ▸ fun _ => nofun, .inr (.inl ⟨reply, he⟩), hraises⟩
  | raise e =>
    refine ⟨rfl, he ▸ ?_, .inl (workOf_todo_of_raise he), hraises⟩
    cases e with
    | busError info => exact absurd he (workOf_ending_ne_busError c i info)
    | invalidArgument | illegalCommand => rfl

/-- A line that issues nothing. -/
theorem Work.Tells.pass (h : w.Tells strict log tix) (ht : w.todo = line :: rest) :
    ({ w with todo := rest } : Work).Tells strict log tix where
  tix := h.tix
  ending := h.ending
  ended := .inr (h.ended.resolve_left (by simp [ht]))
  raises hs l hl := h.raises hs l (by simp [ht, hl])

/-- R23: a transaction that succeeds is counted. -/
theorem Work.Tells.commit (h : w.Tells strict log tix) (ht : w.todo = line :: rest) (r : BusRequest) (bytes read : List Byte) :
    ({ w with todo := rest, bytes := read } : Work).Tells strict (log ++ [⟨r, .ok bytes⟩]) (tix + 1) := by
  have hopen : w.ending.Open strict := h.ended.resolve_left (by simp [ht])
  refine ⟨?_, hopen.respond fun hs => (hopen.allSucceeded hs h.ending).concat r bytes, .inr hopen, fun hs l hl => ?_⟩
  · rw [h.tix, okCount_concat_ok, BitVec.ofNat_add]
    rfl
  · exact h.raises hs l (by simp [ht, hl])

/-- R231: a transaction that fails is the last one, or its failure is tolerated. -/
theorem Work.Tells.failed (h : w.Tells strict log tix) (ht : w.todo = line :: rest) {c : Params} {mux page : Option Byte}
    {bytes : List Byte} {r : BusRequest} (hr : line.request c mux page bytes = some r) :
    (line.failed { w with todo := rest } tix).Tells strict (log ++ [⟨r, .fail⟩]) tix := by
  have hopen : w.ending.Open strict := h.ended.resolve_left (by simp [ht])
  have htix : tix = BitVec.ofNat 8 (okCount (log ++ [⟨r, .fail⟩])) := by rw [okCount_concat_fail, h.tix]
  by_cases hs : strict
  · rw [h.raises hs line (by simp [ht]) c mux page bytes r hr]
    have hall := hopen.allSucceeded hs h.ending
    exact ⟨htix, fun _ => ⟨log, r, rfl, hall, by rw [h.tix, hall.okCount_eq]⟩, .inl rfl, fun _ => nofun⟩
  · have hopen' : (line.failed { w with todo := rest } tix).ending.Open strict := by
      rcases (Line.failed_cases hr { w with todo := rest } tix).2 with he | he <;> rw [he]
      · exact hopen
      · exact .inr ⟨hs, tix, rfl⟩
    exact ⟨htix, hopen'.tells hs _, .inr hopen', fun h => absurd h hs⟩

end

/-! ### A whole command -/

/-- A command accepted in `s` has got to `t` with the transactions `log`: it is under way, or it is over without a response,
or with the one that its latches gave. -/
def Reports (strict : Prop) (s t : State) (log : List BusRecord) : Prop :=
  (∃ tix w, t.seq = .busy tix (some w) ∧ w.Tells strict log tix ∧ t.respPort = s.respPort) ∨
  (t.linesLeft = 0 ∧ t.respPort = s.respPort) ∨
  (t.linesLeft = 0 ∧ ∃ c tix w, Work.Tells strict log tix w ∧ t.respPort = s.respPort ++ [w.response c tix])

/-- Every line keeps what is told of the trace. -/
theorem Reports.execLine {strict : Prop} {s t : State} {log : List BusRecord} (h : Reports strict s t log) :
    ∃ more, t.execLine.busLog = t.busLog ++ more ∧ Reports strict s t.execLine (log ++ more) := by
  rcases h with ⟨tix, w, hs, hw, hresp⟩ | hrest
  · rcases t.execLine_cases with ⟨hidle, _⟩ | ⟨k, v, hv, hline⟩
    · simp [hs] at hidle
    · obtain ⟨rfl, rfl⟩ : tix = k ∧ w = v := by simpa [hs] using hv
      rcases hline with ⟨_, he⟩ | ⟨line, rest, ht, ⟨_, he⟩ | ⟨r, hr, he⟩⟩ <;> rw [he]
      · refine ⟨[], by simp, .inr (.inr ⟨State.linesLeft_idle (by simp), t.cfg, tix, w, by simpa using hw, ?_⟩)⟩
        rw [t.endCommand_respPort_eq, hresp]
      · exact ⟨[], by simp, .inl ⟨tix, _, rfl, by simpa using hw.pass ht, by simpa using hresp⟩⟩
      · rcases t.transact_cases line r tix { w with todo := rest } with
          ⟨bytes, _, _, he⟩ | ⟨_, he⟩ | ⟨_, he⟩ | ⟨_, he⟩ <;> rw [he]
        · exact ⟨[⟨r, .ok bytes⟩], by simp,
            .inl ⟨_, _, Line.commit_seq _ line, hw.commit ht r bytes _, by simpa using hresp⟩⟩
        · exact ⟨[⟨r, .fail⟩], rfl, .inl ⟨_, _, rfl, hw.failed ht hr, hresp⟩⟩
        · exact ⟨[⟨r, .never⟩], rfl, .inr (.inl ⟨State.linesLeft_hung (State.hang_seq _ _), hresp⟩)⟩
        · exact ⟨[⟨r, .abandoned⟩], rfl, .inr (.inl ⟨State.linesLeft_idle (State.coreReset_seq _), hresp⟩)⟩
  · have hleft : t.linesLeft = 0 := hrest.elim (·.1) (·.1)
    rw [State.execLine_rest hleft]
    exact ⟨[], by simp, by simpa using .inr hrest⟩

/-- R23, R97: the response of a command is the one that its latches give, and these agree with its transactions. -/
theorem exec_response {i : Instr} {s t : State} {frame : List Byte} {log : List BusRecord} (h : exec i s = .next t)
    (hresp : t.respPort = s.respPort ++ [frame]) (hlog : t.busLog = s.busLog ++ log) :
    ∃ c tix w, Work.Tells (∀ slot, i ≠ .sfpPoll slot) log tix w ∧ frame = w.response c tix := by
  obtain ⟨log', hlog', hreports⟩ : ∃ log, t.busLog = s.busLog ++ log ∧ Reports (∀ slot, i ≠ .sfpPoll slot) s t log := by
    refine exec_induct (P := fun u => ∃ log, u.busLog = s.busLog ++ log ∧ Reports _ s u log) h
      ⟨[], by simp, .inl ⟨0, _, rfl, Work.tells_accepted s.cfg i, rfl⟩⟩ ?_
    rintro u ⟨log, hlog, hreports⟩
    obtain ⟨more, hmore, hreports'⟩ := hreports.execLine
    exact ⟨log ++ more, by rw [hmore, hlog, List.append_assoc], hreports'⟩
  obtain rfl : log' = log := List.append_cancel_left (hlog'.symm.trans hlog)
  rcases hreports with ⟨_, _, _, _, hnone⟩ | ⟨_, hnone⟩ | ⟨_, c, tix, w, hw, hframe⟩
  · simp [hresp] at hnone
  · simp [hresp] at hnone
  · exact ⟨c, tix, w, hw, List.singleton_injective (List.append_cancel_left (hresp.symm.trans hframe))⟩

/-- Settles O34: the latches count the successful transactions, and how the command ends says whether the last one failed. -/
theorem infoCountsTheSuccessfulTransactions : Obligations.InfoCountsTheSuccessfulTransactions := by
  intro i s t status info payload log h hresp hlog
  obtain ⟨c, tix, w, hw, hframe⟩ := exec_response h hresp hlog
  have hten : log.length ≤ 10 := noCommandIssuesMoreThanTen i s t log h hlog
  have hcount : okCount log ≤ log.length := List.countP_le_length
  have hending := hw.ending
  rw [Work.response] at hframe
  cases he : w.ending with
  | respond reply =>
    rw [he] at hframe hending
    obtain ⟨rfl, rfl, rfl⟩ : status = 0x00 ∧ info = tix ∧ payload = reply.payload c w.bytes := by simpa using hframe
    refine ⟨fun _ => ?_, by simp, fun hs _ => (hending hs).okCount_eq.symm, by simp⟩
    rw [hw.tix, BitVec.toNat_ofNat]
    omega
  | raise e =>
    cases e with
    | busError k =>
      rw [he] at hframe hending
      obtain ⟨rfl, rfl, rfl⟩ : status = 0x01 ∧ info = k ∧ payload = [] := by simpa using hframe
      have key : (∀ slot, i ≠ .sfpPoll slot) → ∃ before r, log = before ++ [⟨r, .fail⟩] ∧ AllSucceeded before ∧
          before.length = info.toNat := by
        intro hs
        obtain ⟨before, r, rfl, hall, rfl⟩ := hending hs
        refine ⟨before, r, rfl, hall, ?_⟩
        rw [List.length_append, List.length_singleton] at hten
        rw [BitVec.toNat_ofNat]
        omega
      refine ⟨fun hs => ?_, by simp, by simp, fun hs _ => ?_⟩
      · obtain ⟨before, r, rfl, hall, hk⟩ := key (hs.resolve_left (not_not_intro rfl))
        rw [okCount_concat_fail, hall.okCount_eq, hk]
      · obtain ⟨before, r, hb, hall, hk⟩ := key hs
        exact ⟨rfl, before, r, hb, hk, hall⟩
    | invalidArgument | illegalCommand =>
      rw [he] at hframe hending
      cases hframe
      obtain rfl : log = [] := hending
      exact ⟨fun _ => rfl, fun _ => ⟨rfl, rfl⟩, by simp, by simp⟩

end Sys2Proof.Machine
end

section
/-! The multiplexer (spec/40_mux.md rules R130 to R135): `MUX.SEL` and `MUX.CLOSE` through the channel cache, the repeated
`MUX.SEL`, and `INVAL`. -/

namespace Sys2Proof.Machine

/-! ### One `MUX.SEL` -/

/-- R130, R238: where the write of a select fails, the command answers `BUS_ERROR` and neither cache changes. -/
theorem exec_muxSel_fails {chan : Byte} {s : State} {taken : Nat} {rest : List BusEvent} (hw : s.cfg.WellFormed)
    (hmiss : s.mux ≠ some chan) (hscript : s.env.script = .fail taken :: rest) :
    ∃ t, exec (.muxSel chan) s = .next t ∧ Failed s t [] (.wb s.cfg.muxAddr s.cfg.muxReg chan) rest s.mux s.page := by
  have hnone : Runs (s.accept (muxSelWork chan)) [] [] [] (.fail taken :: rest) s.mux s.page := hscript ▸ runs_nil _ _
  exact failed_of_runs (before := []) (line := .muxSelect chan) (after := []) (reply := .empty) hw hnone (if_neg hmiss)
    fun _ _ => rfl

/-- R130: a select of a channel that the cache does not hold, whose one write succeeds. -/
theorem exec_muxSel_miss {chan : Byte} {s : State} {rest : List BusEvent} (hw : s.cfg.WellFormed)
    (hmiss : s.mux ≠ some chan) (hscript : s.env.script = .reply [] :: rest) :
    ∃ t, exec (.muxSel chan) s = .next t ∧
      Completed s t [(.wb s.cfg.muxAddr s.cfg.muxReg chan, [])] rest (some chan) none [] := by
  have htraffic : selectTraffic s.cfg s.mux chan = [(.wb s.cfg.muxAddr s.cfg.muxReg chan, [])] := if_neg hmiss
  have h := exec_muxSel_completes chan (rest := rest) hw (by rw [htraffic]; exact hscript)
  rwa [htraffic, if_neg hmiss] at h

/-- R130: a select of the channel that the cache holds issues nothing. -/
theorem exec_muxSel_hit {chan : Byte} {s : State} (hw : s.cfg.WellFormed) (hhit : s.mux = some chan) :
    ∃ t, exec (.muxSel chan) s = .next t ∧ Completed s t [] s.env.script (some chan) s.page [] := by
  have htraffic : selectTraffic s.cfg s.mux chan = [] := if_pos hhit
  have h := exec_muxSel_completes chan (rest := s.env.script) hw (by rw [htraffic]; rfl)
  rwa [htraffic, if_pos hhit] at h

/-- Settles O18: the procedure is one select, which writes on a miss only and commits nothing when it fails. -/
theorem muxSelWritesOnlyOnChange : Obligations.MuxSelWritesOnlyOnChange :=
  fun chan _ _ hw => ⟨exec_muxSel_completes chan hw, fun _ => exec_muxSel_fails hw⟩

/-- Settles O19: `MUX.CLOSE` is `MUX.SEL` of no channel. -/
theorem muxCloseSelectsNoChannel : Obligations.MuxCloseSelectsNoChannel := by
  intro s rest hw
  rw [exec_muxClose]
  exact muxSelWritesOnlyOnChange 0x00 s rest hw

/-! ### Two `MUX.SEL` of one channel -/

/-- Settles O20: a successful write leaves the channel in the cache, which the second command hits; a failed one leaves the cache
as it was, and the second command misses it again. -/
theorem repeatedSelectWritesOnce : Obligations.RepeatedSelectWritesOnce := by
  intro chan s rest hw hmiss
  refine ⟨fun hscript => ?success, fun taken hscript => ?failure⟩
  case success =>
    obtain ⟨t, ht, hfirst⟩ := exec_muxSel_miss hw hmiss hscript
    obtain ⟨u, hu, hsecond⟩ := exec_muxSel_hit (hfirst.cfg ▸ hw) hfirst.mux
    exact ⟨t, u, ht, hu, hfirst.busLog, hfirst.respPort, by simpa using hsecond.busLog, hsecond.respPort⟩
  case failure =>
    obtain ⟨t, ht, hfirst⟩ := exec_muxSel_fails hw hmiss hscript
    obtain ⟨u, hu, hsecond⟩ := exec_muxSel_miss (hfirst.cfg ▸ hw) (hfirst.mux ▸ hmiss) hfirst.script
    exact ⟨t, u, ht, hu, by simpa using hfirst.busLog, hfirst.cfg ▸ hsecond.busLog⟩

/-! ### `INVAL` -/

/-- Settles O21: the one line of `INVAL` issues nothing and clears the named caches, and the end of the command responds. -/
theorem invalClearsTheNamedCaches : Obligations.InvalClearsTheNamedCaches := by
  intro mask s hw
  have hline : (s.accept (invalWork mask)).execLine = (s.invalidate mask).goOn 0 (.answering .empty []) :=
    State.execLine_pass (State.accept_seq s (invalWork mask)) rfl rfl
  have hend : ((s.invalidate mask).goOn 0 (.answering .empty [])).execLine = (s.invalidate mask).respond .ok 0 [] :=
    State.execLine_end (State.goOn_seq _ 0 (.answering .empty [])) rfl
  exact runCommand_eq (n := 2) hw ((congrArg State.execLine hline).trans hend) rfl

end Sys2Proof.Machine
end

section
/-! The statements about the paged accesses (spec/41_paged.md rules R150 to R165): one command of each address form and each
data transaction, the failure positions of an access, and the window writes of a run of accesses. -/

namespace Sys2Proof.Machine

/-! ### `PRS.ENSURE` -/

/-- R150, R152: the procedure of `PRS.ENSURE` is the select of the DPLL channel. -/
theorem exec_prsEnsure (s : State) : exec .prsEnsure s = exec (.muxSel s.cfg.dpllChannel) s := rfl

/-- Settles O23: `PRS.ENSURE` is `MUX.SEL` of the DPLL channel. -/
theorem prsEnsureSelectsTheDpll : Obligations.PrsEnsureSelectsTheDpll := by
  intro s rest hw
  rw [exec_prsEnsure]
  exact muxSelWritesOnlyOnChange s.cfg.dpllChannel s rest hw

/-! ### The byte commands and the two address forms -/

/-- Settles O24: a byte write is a paged access whose data transaction writes the byte. -/
theorem byteWritesComplete : Obligations.ByteWritesComplete := by
  intro val s rest hw
  refine ⟨fun addr hscript => ?_, fun base off hsum hscript => ?_⟩
  · exact exec_access_completes (i := .prsWrb addr val) hw rfl rfl hscript
  · exact exec_access_completes hw (by simp [Instr.access, effectiveAddr_eq hsum]) rfl hscript

/-- Settles O25: a byte read is a paged access whose data transaction answers the byte. -/
theorem byteReadsComplete : Obligations.ByteReadsComplete := by
  intro v s rest hw
  refine ⟨fun addr hscript => ?_, fun base off hsum hscript => ?_⟩
  · exact exec_access_completes (i := .prsRdb addr) hw rfl rfl hscript
  · exact exec_access_completes hw (by simp [Instr.access, effectiveAddr_eq hsum]) rfl hscript

/-- Settles O29: at a sum that is a logical address, the base-and-offset form has the procedure of the absolute command. -/
theorem addressFormsAgree : Obligations.AddressFormsAgree := by
  intro base off s hsum
  have procedure : ∀ {i j : Instr}, workOf s.cfg i = workOf s.cfg j → exec i s = exec j s := fun h => by
    rw [exec_eq_runCommand, exec_eq_runCommand, h]
  exact ⟨fun _ => procedure (withEffective_eq hsum _), procedure (withEffective_eq hsum _),
    fun _ => procedure (congrArg (withBlockCount s.cfg _) (withEffective_eq hsum _)),
    fun _ => procedure (congrArg (withBlockCount s.cfg _) (withEffective_eq hsum _))⟩

/-! ### The failure positions of a paged access -/

section
variable {i : Instr} {s : State} {addr : Addr} {data : Line} {reply : Reply} {r : BusRequest} {after : List Line}

/-- R162 (a): the mux write fails. -/
theorem failsAt_ensureChannel (hw : s.cfg.WellFormed) (hwork : workOf s.cfg i = .answering reply (ensureChannel s.cfg :: after))
    (hmiss : s.mux ≠ some s.cfg.dpllChannel) :
    FailsAt i s [] (.wb s.cfg.muxAddr s.cfg.muxReg s.cfg.dpllChannel) s.mux s.page := by
  intro taken rest hscript
  rw [exec_eq_runCommand, hwork]
  have hnone : Runs (s.accept (.answering reply (ensureChannel s.cfg :: after))) [] [] [] (.fail taken :: rest) s.mux
      s.page := by
    simpa [hscript] using runs_nil (s.accept (.answering reply (ensureChannel s.cfg :: after))) []
  exact failed_of_runs (before := []) hw hnone (if_neg hmiss) fun _ _ => rfl

/-- R162 (b), (d): the window write fails, behind the select of the DPLL. -/
theorem failsAt_pageSelect (hw : s.cfg.WellFormed)
    (hwork : workOf s.cfg i = .answering reply (ensureChannel s.cfg :: .pageSelect addr :: after))
    (hmiss : pageAfterEnsure s.cfg s.mux s.page ≠ some (upperOf addr)) :
    FailsAt i s (selectTraffic s.cfg s.mux s.cfg.dpllChannel)
      (.wk s.cfg.dpllAddr s.cfg.pageReg [lowerOf addr, upperOf addr, 0x10, 0x20]) (some s.cfg.dpllChannel)
      (pageAfterEnsure s.cfg s.mux s.page) := by
  intro taken rest hscript
  rw [exec_eq_runCommand, hwork]
  exact failed_of_runs (before := [ensureChannel s.cfg]) hw (runs_select (.inl rfl) hscript) (if_neg hmiss) fun _ _ => rfl

/-- R162 (c): the data transaction fails, behind both selects. -/
theorem failsAt_data (hw : s.cfg.WellFormed)
    (hwork : workOf s.cfg i = .answering reply (ensureChannel s.cfg :: .pageSelect addr :: data :: after))
    (hdata : data.Transfers s.cfg addr reply r) :
    FailsAt i s (selectTraffic s.cfg s.mux s.cfg.dpllChannel ++
      windowTraffic s.cfg (pageAfterEnsure s.cfg s.mux s.page) addr) r (some s.cfg.dpllChannel) (some (upperOf addr)) := by
  intro taken rest hscript
  rw [exec_eq_runCommand, hwork]
  exact failed_of_runs (before := [ensureChannel s.cfg, .pageSelect addr]) hw (runs_ensure hscript) (hdata.request _ _ _)
    hdata.failed

end

/-- R162 (c): an access that finds the DPLL selected, at its page, issues its data transaction only. -/
theorem exec_access_completes_again {i : Instr} {s : State} {addr : Addr} {r : BusRequest} {bytes : List Byte}
    {rest : List BusEvent} (hw : s.cfg.WellFormed) (h : i.access s.cfg = some (addr, r)) (hlen : bytes.length = readLength r)
    (hmux : s.mux = some s.cfg.dpllChannel) (hpage : s.page = some (upperOf addr))
    (hscript : s.env.script = .reply bytes :: rest) :
    ∃ t, exec i s = .next t ∧
      Completed s t [(r, bytes)] rest (some s.cfg.dpllChannel) (some (upperOf addr)) bytes := by
  have htraffic : pagedTraffic s.cfg s.mux s.page addr (r, bytes) = [(r, bytes)] := by
    rw [hmux, hpage, pagedTraffic_again]
  rw [← htraffic]
  exact exec_access_completes hw h hlen (by rw [htraffic]; exact hscript)

/-- Settles O28: an access has three lines that can fail, and a failed data transaction leaves caches that the retry hits. -/
theorem failurePositionsOfAPagedAccess : Obligations.FailurePositionsOfAPagedAccess := by
  intro i addr r s taken rest hw haccess chan mux window before
  obtain ⟨data, reply, hwork, hdata⟩ := workOf_access haccess
  refine ⟨fun hmiss hscript => ?_, fun hmiss hscript => ?_, fun hhit hmiss hscript => ?_, fun bytes hlen hscript => ?_⟩
  · exact failsAt_ensureChannel hw hwork hmiss taken rest hscript
  · have hselect : selectTraffic s.cfg s.mux s.cfg.dpllChannel = [mux] := if_neg hmiss
    have hpage : pageAfterEnsure s.cfg s.mux s.page = none := if_neg hmiss
    have hfails := failsAt_pageSelect hw hwork (hpage ▸ nofun)
    rw [hselect, hpage] at hfails
    exact hfails taken rest hscript
  · have hselect : selectTraffic s.cfg s.mux s.cfg.dpllChannel = [] := if_pos hhit
    have hpage : pageAfterEnsure s.cfg s.mux s.page = s.page := if_pos hhit
    have hfails := failsAt_pageSelect hw hwork (by rwa [hpage])
    rw [hselect, hpage, ← hhit] at hfails
    exact hfails taken rest hscript
  · obtain ⟨t, ht, hfirst⟩ := failsAt_data hw hwork hdata taken _ hscript
    obtain ⟨u, hu, hretry⟩ := exec_access_completes_again (hfirst.cfg ▸ hw) (hfirst.cfg ▸ haccess) hlen
      (hfirst.cfg ▸ hfirst.mux) hfirst.page hfirst.script
    rw [hfirst.cfg] at hretry
    exact ⟨t, u, ht, hu, hfirst, hretry⟩

/-! ### The transactions of a paged access that succeeds -/

/-- R52: a line only adds to the trace. -/
theorem State.execLine_busLog (s : State) : s.busLog <+: s.execLine.busLog := by
  obtain ⟨_, _, _, _, hlog⟩ := s.execLine_frame
  exact hlog

theorem State.execLines_busLog (n : Nat) (s : State) : s.busLog <+: (s.execLines n).busLog :=
  State.execLines_induct (P := fun t => s.busLog <+: t.busLog) (fun t ht => ht.trans t.execLine_busLog) n List.prefix_rfl

/-- A trace of successful transactions, cut at a state in between. -/
theorem AllSucceeded.split {s u t : State} {log : List BusRecord} (hall : AllSucceeded log) (hlog : t.busLog = s.busLog ++ log)
    (hsu : s.busLog <+: u.busLog) (hut : u.busLog <+: t.busLog) :
    ∃ log₁ log₂, log = log₁ ++ log₂ ∧ (u.busLog = s.busLog ++ log₁ ∧ AllSucceeded log₁) ∧
      (t.busLog = u.busLog ++ log₂ ∧ AllSucceeded log₂) := by
  obtain ⟨log₁, h₁⟩ := hsu
  obtain ⟨log₂, h₂⟩ := hut
  rw [← h₂, ← h₁, List.append_assoc] at hlog
  obtain rfl := List.append_cancel_left hlog
  obtain ⟨hall₁, hall₂⟩ := List.forall_mem_append.1 hall
  exact ⟨log₁, log₂, rfl, ⟨h₁.symm, hall₁⟩, h₂.symm, hall₂⟩

/-- From `s`, whatever the environment answers, the core executes `lines`; and where their transactions have all succeeded,
these are `requests`, the caches are left as `mux` and `page`, and the core goes on with whatever lines come after them. -/
def Issues (s : State) (lines : List Line) (requests : List BusRequest) (mux page : Option Byte) : Prop :=
  ∀ (k : BitVec 8) (more : List Line) (bytes : List Byte) (ending : Ending) (log : List BusRecord),
    s.seq = .busy k (some ⟨lines ++ more, bytes, ending⟩) → (s.execLines lines.length).busLog = s.busLog ++ log →
      AllSucceeded log →
        log.map (·.request) = requests ∧ (s.execLines lines.length).mux = mux ∧ (s.execLines lines.length).page = page ∧
          ∃ k' bytes', (s.execLines lines.length).seq = .busy k' (some ⟨more, bytes', ending⟩)

theorem issues_append {s : State} {l₁ l₂ : List Line} {r₁ r₂ : List BusRequest} {m₁ p₁ m₂ p₂ : Option Byte}
    (h : Issues s l₁ r₁ m₁ p₁) (h' : ∀ t, t.cfg = s.cfg → t.mux = m₁ → t.page = p₁ → Issues t l₂ r₂ m₂ p₂) :
    Issues s (l₁ ++ l₂) (r₁ ++ r₂) m₂ p₂ := by
  intro k more bytes ending log hs hlog hall
  rw [List.length_append, State.execLines_add] at hlog ⊢
  obtain ⟨log₁, log₂, rfl, ⟨hlog₁, hall₁⟩, hlog₂, hall₂⟩ :=
    hall.split hlog (s.execLines_busLog l₁.length) (State.execLines_busLog l₂.length _)
  obtain ⟨hr₁, hm₁, hp₁, k₁, bytes₁, hs₁⟩ := h k (l₂ ++ more) bytes ending log₁ (by simpa using hs) hlog₁ hall₁
  obtain ⟨hr₂, hend⟩ := h' _ (State.execLines_cfg _ s) hm₁ hp₁ k₁ more bytes₁ ending log₂ hs₁ hlog₂ hall₂
  exact ⟨by rw [List.map_append, hr₁, hr₂], hend⟩

/-- A line that issues a transaction. -/
theorem issues_transact {s : State} {line : Line} {r : BusRequest}
    (hr : ∀ bytes, line.request s.cfg s.mux s.page bytes = some r) :
    Issues s [line] [r] (line.commit s).mux (line.commit s).page := by
  intro k more bytes ending log hs hlog hall
  have hline : s.execLines [line].length = s.transact line r k ⟨more, bytes, ending⟩ :=
    State.execLine_transact hs rfl (hr bytes)
  rw [hline] at hlog ⊢
  have noFailure : ∀ {completion}, log = [⟨r, completion⟩] → ∃ answer, completion = .ok answer := fun h =>
    hall _ (h ▸ List.mem_singleton_self _)
  rcases s.transact_cases line r k ⟨more, bytes, ending⟩ with ⟨answer, _, _, he⟩ | ⟨_, he⟩ | ⟨_, he⟩ | ⟨_, he⟩ <;>
    rw [he] at hlog ⊢
  · obtain rfl : [⟨r, .ok answer⟩] = log := by simpa using hlog
    exact ⟨rfl, line.commit_mux s rfl, line.commit_page s rfl, k + 1, bytes ++ answer, by simp⟩
  all_goals
    obtain ⟨_, h⟩ := noFailure (List.append_cancel_left hlog).symm
    cases h

/-- A line that issues nothing. -/
theorem issues_pass {s : State} {line : Line} (hr : ∀ bytes, line.request s.cfg s.mux s.page bytes = none) :
    Issues s [line] [] (line.pass s).mux (line.pass s).page := by
  intro k more bytes ending log hs hlog _
  have hline : s.execLines [line].length = (line.pass s).goOn k ⟨more, bytes, ending⟩ := State.execLine_pass hs rfl (hr bytes)
  rw [hline] at hlog ⊢
  exact ⟨by simpa using hlog, rfl, rfl, k, bytes, rfl⟩

/-- The requests of a traffic, whatever is answered to them. -/
def requestsOf (x : List Exchange) : List BusRequest := x.map (·.1)

/-- R130, R150: `EnsureChannel()`. -/
theorem issues_ensureChannel (s : State) :
    Issues s [ensureChannel s.cfg] (requestsOf (selectTraffic s.cfg s.mux s.cfg.dpllChannel)) (some s.cfg.dpllChannel)
      (pageAfterEnsure s.cfg s.mux s.page) := by
  by_cases h : s.mux = some s.cfg.dpllChannel
  · have hpass := issues_pass (s := s) (line := ensureChannel s.cfg) fun _ => if_pos h
    simpa [ensureChannel, requestsOf, selectTraffic, pageAfterEnsure, Line.pass, h] using hpass
  · have htransact := issues_transact (s := s) (line := ensureChannel s.cfg) fun _ => if_neg h
    simpa [ensureChannel, requestsOf, selectTraffic, pageAfterEnsure, Line.commit, h] using htransact

/-- R151: `PageSelect`. -/
theorem issues_pageSelect (s : State) (addr : Addr) :
    Issues s [.pageSelect addr] (requestsOf (windowTraffic s.cfg s.page addr)) s.mux (some (upperOf addr)) := by
  by_cases h : s.page = some (upperOf addr)
  · have hpass := issues_pass (s := s) (line := .pageSelect addr) fun _ => if_pos h
    simpa [requestsOf, windowTraffic, Line.pass, h] using hpass
  · have htransact := issues_transact (s := s) (line := .pageSelect addr) fun _ => if_neg h
    simpa [requestsOf, windowTraffic, Line.commit, windowBytes, h] using htransact

/-- R153: a paged access. -/
theorem issues_pagedLines (s : State) {addr : Addr} {data : Line} {reply : Reply} {r : BusRequest}
    (hdata : data.Transfers s.cfg addr reply r) :
    Issues s (pagedLines s.cfg addr data) (requestsOf (pagedTraffic s.cfg s.mux s.page addr (r, []))) (some s.cfg.dpllChannel)
      (some (upperOf addr)) := by
  unfold pagedTraffic requestsOf
  rw [List.map_append, List.map_append, List.append_assoc]
  refine issues_append (l₁ := [ensureChannel s.cfg]) (issues_ensureChannel s) fun t hcfg hmux hpage => ?_
  rw [← hpage, ← hcfg]
  refine issues_append (l₁ := [.pageSelect addr]) (issues_pageSelect t addr) fun u hcfg' hmux' hpage' => ?_
  have h := issues_transact (s := u) (line := data) fun bytes => by rw [hcfg', hcfg]; exact hdata.request _ _ bytes
  rwa [hdata.commit, hmux', hmux, hpage', ← hcfg] at h

/-- The end of a command whose transactions have all succeeded. -/
theorem issued_of_issues {s t : State} {lines : List Line} {reply : Reply} {requests : List BusRequest} {mux page : Option Byte}
    {log : List BusRecord} (h : Issues (s.accept (.answering reply lines)) lines requests mux page)
    (ht : runCommand (.answering reply lines) s = .next t) (hlog : t.busLog = s.busLog ++ log) (hall : AllSucceeded log) :
    log.map (·.request) = requests ∧ t.mux = mux ∧ t.page = page := by
  let u := (s.accept (.answering reply lines)).execLines lines.length
  obtain rfl : t = u.execLine := (runCommand_eq_next ht).2.trans (State.execLines_add lines.length 1 _)
  obtain ⟨log₁, log₂, rfl, ⟨hlog₁, hall₁⟩, hlog₂, _⟩ :=
    hall.split hlog (State.execLines_busLog lines.length (s.accept _)) u.execLine_busLog
  obtain ⟨hrequests, hmux, hpage, k, bytes, hu⟩ :=
    h 0 [] [] (.respond reply) log₁ (by simp [Work.answering]) hlog₁ hall₁
  have hend : u.execLine = u.endCommand k ⟨[], bytes, .respond reply⟩ := State.execLine_end hu rfl
  rw [hend, State.endCommand_busLog] at hlog₂
  rw [hend, State.endCommand_mux, State.endCommand_page, List.self_eq_append_right.1 hlog₂, List.append_nil]
  exact ⟨hrequests, hmux, hpage⟩

/-- R153: whatever the environment, a paged access of which no transaction fails has issued the traffic of R153. -/
theorem exec_access_issues {i : Instr} {s t : State} {addr : Addr} {r : BusRequest} {log : List BusRecord}
    (haccess : i.access s.cfg = some (addr, r)) (h : exec i s = .next t) (hlog : t.busLog = s.busLog ++ log)
    (hall : AllSucceeded log) :
    log.map (·.request) = requestsOf (pagedTraffic s.cfg s.mux s.page addr (r, [])) ∧ t.mux = some s.cfg.dpllChannel ∧
      t.page = some (upperOf addr) := by
  obtain ⟨data, reply, hwork, hdata⟩ := workOf_access haccess
  have hlines := issues_pagedLines (s.accept (.answering reply (pagedLines s.cfg addr data))) hdata
  exact issued_of_issues hlines (by rw [← hwork, ← exec_eq_runCommand, h]) hlog hall

/-! ### The window writes of one access -/

/-- R29: whether a request counts as a window write. -/
def isWindowWrite (c : Params) : BusRequest → Bool
  | .wk dev reg bytes => dev = c.dpllAddr ∧ reg = c.pageReg ∧ bytes.length = 4
  | _ => false

/-- The window writes among the requests of a traffic. -/
def windowCount (c : Params) (requests : List BusRequest) : Nat := requests.countP (isWindowWrite c)

theorem windowWrites_eq_windowCount (c : Params) (log : List BusRecord) :
    windowWrites c log = windowCount c (log.map (·.request)) :=
  (List.countP_map (p := isWindowWrite c) (f := BusRecord.request)).symm

theorem windowWrites_append (c : Params) (x y : List BusRecord) :
    windowWrites c (x ++ y) = windowWrites c x + windowWrites c y := List.countP_append

/-- R28: a mux write is none. -/
theorem windowCount_selectTraffic (c : Params) (mux : Option Byte) (chan : Byte) :
    windowCount c (requestsOf (selectTraffic c mux chan)) = 0 := by
  unfold selectTraffic
  split <;> rfl

/-- R151: a `PageSelect` writes the window on a miss. -/
theorem windowCount_windowTraffic (c : Params) (page : Option Byte) (addr : Addr) :
    windowCount c (requestsOf (windowTraffic c page addr)) = if page = some (upperOf addr) then 0 else 1 := by
  unfold windowTraffic
  split
  · rfl
  · simp [windowCount, requestsOf, isWindowWrite]

/-- R153: so an access whose data transaction is none has at most that of its `PageSelect`. -/
theorem windowCount_pagedTraffic {c : Params} {r : BusRequest} (hr : isWindowWrite c r = false) (mux page : Option Byte)
    (addr : Addr) : windowCount c (requestsOf (pagedTraffic c mux page addr (r, []))) =
      if pageAfterEnsure c mux page = some (upperOf addr) then 0 else 1 := by
  have hdata : windowCount c (requestsOf [(r, [])]) = 0 := by simp [windowCount, requestsOf, hr]
  have happend : ∀ x y, windowCount c (requestsOf (x ++ y)) = windowCount c (requestsOf x) + windowCount c (requestsOf y) :=
    fun x y => by simp [windowCount, requestsOf]
  rw [pagedTraffic, happend, happend, windowCount_selectTraffic, windowCount_windowTraffic, hdata, Nat.zero_add, Nat.add_zero]

/-- R57, R63: a block of four bytes that keeps clear of the paging register does not begin there. -/
theorem not_isWindowWrite_of_blockClear {c : Params} {dev : DevAddr} {reg : Byte} {bytes : List Byte}
    (h : c.BlockClear reg bytes.length) : isWindowWrite c (.wk dev reg bytes) = false := by
  refine decide_eq_false ?_
  rintro ⟨_, rfl, hlen⟩
  have := h.2
  omega

/-- R267: the data transaction of an access that keeps the host's duty is no window write. -/
theorem not_isWindowWrite_of_keepsDuty {c : Params} {i : Instr} {addr : Addr} {r : BusRequest}
    (h : i.access c = some (addr, r)) (hduty : i.KeepsDuty c) : isWindowWrite c r = false := by
  cases i with
  | prsWrb | prsRdb => cases h; rfl
  | prsWrbo | prsRdbo =>
    obtain ⟨a, _, h⟩ := Option.map_eq_some_iff.1 h
    cases h
    rfl
  | prsRdblk =>
    obtain ⟨_, h⟩ := Option.ite_none_right_eq_some.1 h
    cases h
    rfl
  | prsRdblko =>
    obtain ⟨_, h⟩ := Option.ite_none_right_eq_some.1 h
    obtain ⟨a, _, h⟩ := Option.map_eq_some_iff.1 h
    cases h
    rfl
  | prsWrblk a data =>
    obtain ⟨_, h⟩ := Option.ite_none_right_eq_some.1 h
    cases h
    exact not_isWindowWrite_of_blockClear hduty
  | prsWrblko base off data =>
    obtain ⟨_, h⟩ := Option.ite_none_right_eq_some.1 h
    obtain ⟨a, ha, h⟩ := Option.map_eq_some_iff.1 h
    obtain ⟨_, ha⟩ := Option.ite_none_right_eq_some.1 ha
    cases ha
    cases h
    exact not_isWindowWrite_of_blockClear hduty
  | muxSel | muxClose | inval | prsEnsure | gpioCfgin | gpioCfgout | gpioRdmode | sfpPoll => cases h

/-! ### The window writes of a run of accesses -/

/-- The upper bytes of the addresses of a run (R163). -/
def uppersOf (c : Params) (run : List Instr) : List Byte := run.filterMap fun i => (i.access c).map fun a => upperOf a.1

/-- The window writes of accesses at these upper bytes, one after another, where `page` is what the page cache holds before the
first. -/
def windowWritesAt : Option Byte → List Byte → Nat
  | _, [] => 0
  | page, upper :: later => (if page = some upper then 0 else 1) + windowWritesAt (some upper) later

/-- R163: they are the transitions, plus one where the page cache does not hold the first upper byte. -/
theorem windowWritesAt_cons (page : Option Byte) (first : Byte) (later : List Byte) :
    windowWritesAt page (first :: later) = upperTransitions (first :: later) + if page = some first then 0 else 1 := by
  induction later generalizing page first with
  | nil => exact Nat.add_comm _ _
  | cons second later ih =>
    rw [windowWritesAt, ih, upperTransitions]
    simp only [Option.some.injEq]
    omega

theorem execAll_cons_eq_next {i : Instr} {run : List Instr} {s t : State} (h : execAll (i :: run) s = .next t) :
    ∃ u, exec i s = .next u ∧ execAll run u = .next t := by
  unfold execAll at h
  split at h
  · exact ⟨_, ‹_›, h⟩
  · cases h
  · cases h

/-- R163: each access of a run finds the DPLL selected, at the page that the one before it left. -/
theorem execAll_windowWrites {run : List Instr} {s t : State}
    (hrun : ∀ i ∈ run, i.access s.cfg ≠ none ∧ i.KeepsDuty s.cfg) (h : execAll run s = .next t) :
    ∃ log, t.busLog = s.busLog ++ log ∧ (AllSucceeded log →
      windowWrites s.cfg log = windowWritesAt (pageAfterEnsure s.cfg s.mux s.page) (uppersOf s.cfg run)) := by
  induction run generalizing s with
  | nil =>
    cases h
    exact ⟨[], (List.append_nil _).symm, fun _ => rfl⟩
  | cons i run ih =>
    obtain ⟨u, hu, hlater⟩ := execAll_cons_eq_next h
    obtain ⟨hcfg, _, _⟩ := exec_inputs hu
    obtain ⟨⟨haccess, hduty⟩, hrun⟩ := List.forall_mem_cons.1 hrun
    obtain ⟨⟨addr, r⟩, haccess⟩ := Option.ne_none_iff_exists'.1 haccess
    obtain ⟨log₁, hlog₁, _⟩ := exec_progress hu
    obtain ⟨log₂, hlog₂, hcount⟩ := ih (hcfg ▸ hrun) hlater
    refine ⟨log₁ ++ log₂, by rw [hlog₂, hlog₁, List.append_assoc], fun hall => ?_⟩
    obtain ⟨hall₁, hall₂⟩ := List.forall_mem_append.1 hall
    obtain ⟨hrequests, hmux, hpage⟩ := exec_access_issues haccess hu hlog₁ hall₁
    have hfirst : windowWrites s.cfg log₁ = if pageAfterEnsure s.cfg s.mux s.page = some (upperOf addr) then 0 else 1 := by
      rw [windowWrites_eq_windowCount, hrequests, windowCount_pagedTraffic (not_isWindowWrite_of_keepsDuty haccess hduty)]
    have hpage' : pageAfterEnsure s.cfg u.mux u.page = some (upperOf addr) := by rw [hmux, hpage, pageAfterEnsure, if_pos rfl]
    have hsecond := hcount hall₂
    rw [hcfg, hpage'] at hsecond
    have huppers : uppersOf s.cfg (i :: run) = upperOf addr :: uppersOf s.cfg run :=
      List.filterMap_cons_some (by rw [haccess]; rfl)
    rw [windowWrites_append, hfirst, hsecond, huppers, windowWritesAt]

/-- Settles O31: the window writes of a run are those of its accesses, each at the page the one before it left. -/
theorem windowWritesCountUpperTransitions : Obligations.WindowWritesCountUpperTransitions := by
  intro run s t log first later _ hrun huppers h _ hlog hall
  obtain ⟨log', hlog', hcount⟩ := execAll_windowWrites hrun h
  obtain rfl : log' = log := List.append_cancel_left (hlog'.symm.trans hlog)
  rw [hcount hall, uppersOf, huppers, windowWritesAt_cons]

end Sys2Proof.Machine
end

section
/-! Commands that are one paged access after another (spec/41_paged.md rule R153): their lines and their transactions, what they
do when the environment replies to all of them, and what they leave when it fails one. -/

namespace Sys2Proof.Machine

/-! ### Lists of paged accesses -/

/-- R50, R52: the device to which a request goes. -/
def BusRequest.dev : BusRequest → DevAddr
  | .wb dev _ _ => dev
  | .wk dev _ _ => dev
  | .rb dev _ => dev
  | .rk dev _ _ => dev

/-- One paged access of a command: its address, its data line, and the transaction of that line. -/
structure PagedAccess where
  addr : Addr
  data : Line
  exchange : Exchange

/-- With `bytes` read before, the data line issues the transaction of the access, which goes to the DPLL and changes no cache, and
its failure ends the command. -/
structure PagedAccess.Issued (c : Params) (bytes : List Byte) (a : PagedAccess) : Prop where
  request : ∀ mux page, a.data.request c mux page bytes = some a.exchange.1
  length : a.exchange.2.length = readLength a.exchange.1
  commit : ∀ s, a.data.commit s = s
  failed : ∀ w tix, a.data.failed w tix = w.raise (.busError tix)
  isWindow : a.data.isWindow = false
  device : BusRequest.dev a.exchange.1 = c.dpllAddr

/-- Every data line issues the transaction of its access, each with the bytes read before it. -/
def AllIssued (c : Params) : List Byte → List PagedAccess → Prop
  | _, [] => True
  | bytes, a :: later => a.Issued c bytes ∧ AllIssued c (bytes ++ a.exchange.2) later

theorem allIssued_append {c : Params} {bytes : List Byte} {before later : List PagedAccess} :
    AllIssued c bytes (before ++ later) ↔
      AllIssued c bytes before ∧ AllIssued c (bytes ++ answersOf (before.map (·.exchange))) later := by
  induction before generalizing bytes with
  | nil => simp [AllIssued]
  | cons a before ih => simp [AllIssued, ih, and_assoc]

/-- The lines of the accesses (R153). -/
def accessLines (c : Params) (l : List PagedAccess) : List Line := l.flatMap fun a => pagedLines c a.addr a.data

@[simp] theorem accessLines_cons (c : Params) (a : PagedAccess) (l : List PagedAccess) :
    accessLines c (a :: l) = pagedLines c a.addr a.data ++ accessLines c l := rfl

theorem accessLines_append (c : Params) (l l' : List PagedAccess) :
    accessLines c (l ++ l') = accessLines c l ++ accessLines c l' := List.flatMap_append

/-- R130, R151: the caches behind the accesses. -/
def cachesAfter (c : Params) (mux page : Option Byte) : List PagedAccess → Option Byte × Option Byte
  | [] => (mux, page)
  | a :: later => cachesAfter c (some c.dpllChannel) (some (upperOf a.addr)) later

/-- R153: the transactions of the accesses, each finding the caches that the ones before it left. -/
def accessTraffic (c : Params) (mux page : Option Byte) : List PagedAccess → List Exchange
  | [] => []
  | a :: later =>
    pagedTraffic c mux page a.addr a.exchange ++ accessTraffic c (some c.dpllChannel) (some (upperOf a.addr)) later

theorem accessTraffic_append (c : Params) (mux page : Option Byte) (l l' : List PagedAccess) :
    accessTraffic c mux page (l ++ l') =
      accessTraffic c mux page l ++ accessTraffic c (cachesAfter c mux page l).1 (cachesAfter c mux page l).2 l' := by
  induction l generalizing mux page with
  | nil => rfl
  | cons a l ih => simp [accessTraffic, cachesAfter, ih]

theorem cachesAfter_append (c : Params) (mux page : Option Byte) (l l' : List PagedAccess) :
    cachesAfter c mux page (l ++ l') =
      cachesAfter c (cachesAfter c mux page l).1 (cachesAfter c mux page l).2 l' := by
  induction l generalizing mux page with
  | nil => rfl
  | cons a l ih => simp [cachesAfter, ih]

@[simp] theorem answersOf_accessTraffic (c : Params) (mux page : Option Byte) (l : List PagedAccess) :
    answersOf (accessTraffic c mux page l) = answersOf (l.map (·.exchange)) := by
  induction l generalizing mux page with
  | nil => rfl
  | cons a l ih => simp [accessTraffic, ih]

/-- R130, R151: the transactions of the two selects of an access, under the caches given. -/
def ensureTraffic (c : Params) (caches : Option Byte × Option Byte) (addr : Addr) : List Exchange :=
  selectTraffic c caches.1 c.dpllChannel ++ windowTraffic c (pageAfterEnsure c caches.1 caches.2) addr

theorem pagedTraffic_eq (c : Params) (mux page : Option Byte) (addr : Addr) (e : Exchange) :
    pagedTraffic c mux page addr e = ensureTraffic c (mux, page) addr ++ [e] := rfl

@[simp] theorem ensureTraffic_selected (c : Params) (page : Option Byte) (addr : Addr) :
    ensureTraffic c (some c.dpllChannel, page) addr = windowTraffic c page addr := by
  simp [ensureTraffic, selectTraffic, pageAfterEnsure]

@[simp] theorem windowTraffic_again (c : Params) (addr : Addr) : windowTraffic c (some (upperOf addr)) addr = [] := if_pos rfl

section
variable {c : Params} {addr : Addr} {l : List PagedAccess} (h : ∀ a ∈ l, a.addr = addr)
include h

/-- R153: accesses to the page that is already selected issue their data transactions only. -/
theorem accessTraffic_again :
    accessTraffic c (some c.dpllChannel) (some (upperOf addr)) l = l.map (·.exchange) ∧
      cachesAfter c (some c.dpllChannel) (some (upperOf addr)) l = (some c.dpllChannel, some (upperOf addr)) := by
  induction l with
  | nil => exact ⟨rfl, rfl⟩
  | cons a l ih =>
    obtain ⟨rfl, h⟩ := List.forall_mem_cons.1 h
    obtain ⟨htraffic, hcaches⟩ := ih h
    exact ⟨by simp [accessTraffic, pagedTraffic_again, htraffic], hcaches⟩

/-- R153: accesses to one address, followed by the selects of one more, select once. -/
theorem accessTraffic_ensureTraffic (mux page : Option Byte) :
    accessTraffic c mux page l ++ ensureTraffic c (cachesAfter c mux page l) addr =
      ensureTraffic c (mux, page) addr ++ l.map (·.exchange) := by
  cases l with
  | nil => simp [accessTraffic, cachesAfter]
  | cons a l =>
    obtain ⟨rfl, h⟩ := List.forall_mem_cons.1 h
    obtain ⟨htraffic, hcaches⟩ := accessTraffic_again (c := c) h
    simp [accessTraffic, cachesAfter, htraffic, hcaches, pagedTraffic_eq]

/-- R153: as at least one access to that address leaves its page selected. -/
theorem accessTraffic_of_ne_nil (hne : l ≠ []) (mux page : Option Byte) :
    accessTraffic c mux page l = ensureTraffic c (mux, page) addr ++ l.map (·.exchange) ∧
      cachesAfter c mux page l = (some c.dpllChannel, some (upperOf addr)) := by
  obtain ⟨a, l, rfl⟩ := List.exists_cons_of_ne_nil hne
  obtain ⟨rfl, hl⟩ := List.forall_mem_cons.1 h
  have hcaches : cachesAfter c mux page (a :: l) = (some c.dpllChannel, some (upperOf a.addr)) := (accessTraffic_again hl).2
  have htraffic := accessTraffic_ensureTraffic (c := c) h mux page
  rw [hcaches, ensureTraffic_selected, windowTraffic_again, List.append_nil] at htraffic
  exact ⟨htraffic, hcaches⟩

end

/-! ### Every transaction succeeds -/

/-- R153: the accesses, where the environment replies to every transaction. -/
theorem runs_accesses {s : State} {l : List PagedAccess} {bytes : List Byte} {evs : List BusEvent}
    (h : AllIssued s.cfg bytes l) (hscript : s.env.script = repliesOf (accessTraffic s.cfg s.mux s.page l) ++ evs) :
    Runs s (accessLines s.cfg l) bytes (accessTraffic s.cfg s.mux s.page l) evs (cachesAfter s.cfg s.mux s.page l).1
      (cachesAfter s.cfg s.mux s.page l).2 := by
  induction l generalizing s bytes with
  | nil =>
    obtain rfl : s.env.script = evs := hscript
    exact runs_nil s bytes
  | cons a l ih =>
    obtain ⟨ha, hl⟩ := h
    rw [accessTraffic, repliesOf_append, List.append_assoc] at hscript
    refine runs_append (runs_paged hscript ha.request ha.commit ha.length) fun t ht => ?_
    rw [answersOf_pagedTraffic, cachesAfter, ← ht.mux, ← ht.page, ← ht.cfg]
    exact ih (ht.cfg ▸ hl) (by rw [ht.script, ht.cfg, ht.mux, ht.page])

section
variable {i : Instr} {s : State} {reply : Reply} {before after : List PagedAccess} {a : PagedAccess}

/-- R97: a command that consists of paged accesses, of which every transaction succeeds. -/
theorem exec_accesses_completes {l : List PagedAccess} {rest : List BusEvent} (hw : s.cfg.WellFormed)
    (hwork : workOf s.cfg i = .answering reply (accessLines s.cfg l)) (h : AllIssued s.cfg [] l)
    (hscript : s.env.script = repliesOf (accessTraffic s.cfg s.mux s.page l) ++ rest) :
    ∃ t, exec i s = .next t ∧ Completed s t (accessTraffic s.cfg s.mux s.page l) rest (cachesAfter s.cfg s.mux s.page l).1
      (cachesAfter s.cfg s.mux s.page l).2 (reply.payload s.cfg (answersOf (l.map (·.exchange)))) := by
  have hdone := completed_of_runs (reply := reply) hw
    (runs_accesses (s := s.accept (.answering reply (accessLines s.cfg l))) h hscript)
  rw [exec_eq_runCommand, hwork]
  rwa [answersOf_accessTraffic] at hdone

/-! ### One transaction fails -/

/-- R162 (b), (d), R231: the window write of an access fails, behind the accesses before it and the select of the DPLL. -/
theorem failsAt_access_window {mux page : Option Byte} (hw : s.cfg.WellFormed)
    (hwork : workOf s.cfg i = .answering reply (accessLines s.cfg (before ++ a :: after))) (h : AllIssued s.cfg [] before)
    (hcaches : cachesAfter s.cfg s.mux s.page before = (mux, page))
    (hmiss : pageAfterEnsure s.cfg mux page ≠ some (upperOf a.addr)) :
    FailsAt i s (accessTraffic s.cfg s.mux s.page before ++ selectTraffic s.cfg mux s.cfg.dpllChannel)
      (.wk s.cfg.dpllAddr s.cfg.pageReg [lowerOf a.addr, upperOf a.addr, 0x10, 0x20]) (some s.cfg.dpllChannel)
      (pageAfterEnsure s.cfg mux page) := by
  intro taken rest hscript
  have hlines : accessLines s.cfg (before ++ a :: after) =
      (accessLines s.cfg before ++ [ensureChannel s.cfg]) ++ .pageSelect a.addr :: a.data :: accessLines s.cfg after := by
    simp [accessLines_append, pagedLines]
  rw [exec_eq_runCommand, hwork, hlines]
  rw [repliesOf_append, List.append_assoc] at hscript
  have hbefore := runs_accesses (s := s.accept (.answering reply ((accessLines s.cfg before ++ [ensureChannel s.cfg]) ++
    .pageSelect a.addr :: a.data :: accessLines s.cfg after))) h hscript
  simp only [State.accept_cfg, State.accept_mux, State.accept_page, hcaches] at hbefore
  refine failed_of_runs (taken := taken) hw (runs_append hbefore fun t ht => ?_) (if_neg hmiss) fun _ _ => rfl
  have hselect := runs_select (s := t) (chan := s.cfg.dpllChannel) (line := ensureChannel s.cfg) (evs := .fail taken :: rest)
    (bytes := answersOf (accessTraffic s.cfg s.mux s.page before)) (.inl rfl) (by rw [ht.script, ht.cfg, ht.mux]; rfl)
  rw [ht.cfg, ht.mux, ht.page] at hselect
  exact hselect

/-- R162 (c), R231: the data transaction of an access fails, behind the accesses before it and both selects. -/
theorem failsAt_access_data (hw : s.cfg.WellFormed)
    (hwork : workOf s.cfg i = .answering reply (accessLines s.cfg (before ++ a :: after)))
    (h : AllIssued s.cfg [] (before ++ a :: after)) :
    FailsAt i s (accessTraffic s.cfg s.mux s.page before ++ ensureTraffic s.cfg (cachesAfter s.cfg s.mux s.page before) a.addr)
      a.exchange.1 (some s.cfg.dpllChannel) (some (upperOf a.addr)) := by
  intro taken rest hscript
  obtain ⟨hbefore, ha, -⟩ := allIssued_append.1 h
  have hlines : accessLines s.cfg (before ++ a :: after) =
      (accessLines s.cfg before ++ [ensureChannel s.cfg, .pageSelect a.addr]) ++ a.data :: accessLines s.cfg after := by
    simp [accessLines_append, pagedLines]
  rw [exec_eq_runCommand, hwork, hlines]
  rw [repliesOf_append, List.append_assoc] at hscript
  refine failed_of_runs (taken := taken) hw (runs_append (runs_accesses hbefore hscript) fun t ht => ?_) ?_ ha.failed
  · have hensure := runs_ensure (s := t) (addr := a.addr) (evs := .fail taken :: rest)
      (bytes := answersOf (accessTraffic s.cfg s.mux s.page before)) (by rw [ht.script, ht.cfg, ht.mux, ht.page]; rfl)
    rw [ht.cfg, ht.mux, ht.page] at hensure
    exact hensure
  · have hanswers : answersOf (ensureTraffic s.cfg (cachesAfter s.cfg s.mux s.page before) a.addr) = [] := by
      simp [ensureTraffic]
    rw [answersOf_append, answersOf_accessTraffic, hanswers, List.append_nil]
    exact ha.request _ _

/-- R162 (a) to (d), R231: the failure positions of the first access. -/
theorem failsAt_first_access (hw : s.cfg.WellFormed) (hwork : workOf s.cfg i = .answering reply (accessLines s.cfg (a :: after)))
    (h : AllIssued s.cfg [] (a :: after)) :
    (s.mux ≠ some s.cfg.dpllChannel →
      FailsAt i s [] (.wb s.cfg.muxAddr s.cfg.muxReg s.cfg.dpllChannel) s.mux s.page) ∧
    (pageAfterEnsure s.cfg s.mux s.page ≠ some (upperOf a.addr) →
      FailsAt i s (selectTraffic s.cfg s.mux s.cfg.dpllChannel)
        (.wk s.cfg.dpllAddr s.cfg.pageReg [lowerOf a.addr, upperOf a.addr, 0x10, 0x20]) (some s.cfg.dpllChannel)
        (pageAfterEnsure s.cfg s.mux s.page)) ∧
    FailsAt i s (ensureTraffic s.cfg (s.mux, s.page) a.addr) a.exchange.1 (some s.cfg.dpllChannel) (some (upperOf a.addr)) :=
  ⟨failsAt_ensureChannel hw hwork, failsAt_access_window (before := []) hw hwork trivial rfl,
    failsAt_access_data (before := []) hw hwork h⟩

/-- R231: the failure positions of the last access, where the ones before it, with the transactions `x`, left a page selected. -/
theorem failsAt_last_access {x : List Exchange} {upper : Byte} (hw : s.cfg.WellFormed)
    (hwork : workOf s.cfg i = .answering reply (accessLines s.cfg (before ++ [a]))) (h : AllIssued s.cfg [] (before ++ [a]))
    (htraffic : accessTraffic s.cfg s.mux s.page before = x)
    (hcaches : cachesAfter s.cfg s.mux s.page before = (some s.cfg.dpllChannel, some upper)) :
    (upper ≠ upperOf a.addr →
      FailsAt i s x (.wk s.cfg.dpllAddr s.cfg.pageReg [lowerOf a.addr, upperOf a.addr, 0x10, 0x20]) (some s.cfg.dpllChannel)
        (some upper)) ∧
    FailsAt i s (x ++ windowTraffic s.cfg (some upper) a.addr) a.exchange.1 (some s.cfg.dpllChannel) (some (upperOf a.addr)) := by
  have hselect : selectTraffic s.cfg (some s.cfg.dpllChannel) s.cfg.dpllChannel = [] := if_pos rfl
  have hpage : pageAfterEnsure s.cfg (some s.cfg.dpllChannel) (some upper) = some upper := if_pos rfl
  have hdata := failsAt_access_data hw hwork h
  rw [htraffic, hcaches, ensureTraffic_selected] at hdata
  refine ⟨fun hmiss => ?_, hdata⟩
  have hwindow := failsAt_access_window hw hwork (allIssued_append.1 h).1 hcaches
    (by rw [hpage]; exact (Option.some_injective _).ne hmiss)
  rwa [htraffic, hselect, List.append_nil, hpage] at hwindow

end

end Sys2Proof.Machine
end

section
/-! The pin commands (spec/42_gpio.md): what they do when the environment replies to every transaction, what each failure leaves,
that a pin in range causes traffic and any other does not, and the two functions of a byte that they use. -/

namespace Sys2Proof.Machine

/-! ### The accesses of each command -/

/-- A read of one byte, which answers `v`. -/
def readAccess (c : Params) (addr : Addr) (v : Byte) : PagedAccess :=
  ⟨addr, .readByte addr, .rb c.dpllAddr (lowerOf addr), [v]⟩

/-- A write of the byte `v`, by whichever line. -/
def writeAccess (c : Params) (addr : Addr) (line : Line) (v : Byte) : PagedAccess :=
  ⟨addr, line, .wb c.dpllAddr (lowerOf addr) v, []⟩

theorem issued_readAccess (c : Params) (bytes : List Byte) (addr : Addr) (v : Byte) : (readAccess c addr v).Issued c bytes :=
  ⟨fun _ _ => rfl, rfl, fun _ => rfl, fun _ _ => rfl, rfl, rfl⟩

theorem issued_writeByte (c : Params) (bytes : List Byte) (addr : Addr) (v : Byte) :
    (writeAccess c addr (.writeByte addr v) v).Issued c bytes :=
  ⟨fun _ _ => rfl, rfl, fun _ => rfl, fun _ _ => rfl, rfl, rfl⟩

theorem issued_writeModified (c : Params) {bytes : List Byte} {cur : Byte} (h : lastByte bytes = cur) (addr : Addr) (k : Nat)
    (value : Bool) : (writeAccess c addr (.writeModified addr k value) (setBit cur k value)).Issued c bytes :=
  ⟨fun _ _ => by subst h; rfl, rfl, fun _ => rfl, fun _ _ => rfl, rfl, rfl⟩

theorem issued_writeBack (c : Params) {bytes : List Byte} {v : Byte} (h : lastByte bytes = v) (addr : Addr) :
    (writeAccess c addr (.writeBack addr) v).Issued c bytes :=
  ⟨fun _ _ => by subst h; rfl, rfl, fun _ => rfl, fun _ _ => rfl, rfl, rfl⟩

/-- R182: the one access of an input configure. -/
def configureInputAccesses (c : Params) (p : Fin 16) : List PagedAccess :=
  [writeAccess c (c.pinControl p) (.writeByte (c.pinControl p) inputTrigger) inputTrigger]

/-- R183 step 4, R184: the second write of the group register, which held `cur` and reads `again` where it is read again. -/
def relatchAccesses (c : Params) (group : Addr) (k : Nat) (value : Bool) (cur again : Byte) : List PagedAccess :=
  match c.gpioRelatch with
  | .reread => [readAccess c group again, writeAccess c group (.writeBack group) again]
  | .reuse => [writeAccess c group (.writeModified group k value) (setBit cur k value)]

/-- R183 steps 1 to 4: the accesses of an output configure to the group register. -/
def groupAccesses (c : Params) (p : Fin 16) (value : Bool) (cur again : Byte) : List PagedAccess :=
  let group := c.groupOf p
  readAccess c group cur ::
    writeAccess c group (.writeModified group (groupBit p) value) (setBit cur (groupBit p) value) ::
      relatchAccesses c group (groupBit p) value cur again

/-- R183 step 5: the trigger write of an output configure. -/
def commitAccess (c : Params) (p : Fin 16) : PagedAccess :=
  writeAccess c (c.pinControl p) (.writeByte (c.pinControl p) outputTrigger) outputTrigger

/-- R183: the accesses of an output configure. -/
def configureOutputAccesses (c : Params) (p : Fin 16) (value : Bool) (cur again : Byte) : List PagedAccess :=
  groupAccesses c p value cur again ++ [commitAccess c p]

/-- R185: the read of the level register. -/
def levelAccess (c : Params) (lo hi : Byte) : PagedAccess :=
  ⟨c.levelAddr, .readBlock c.levelAddr 2, .rk c.dpllAddr (lowerOf c.levelAddr) 2, [lo, hi]⟩

/-- R185: the accesses of a mode read. -/
def readModeAccesses (c : Params) (p : Fin 16) (ctl lo hi : Byte) : List PagedAccess :=
  [readAccess c (c.pinControl p) ctl, levelAccess c lo hi]

theorem issued_levelAccess (c : Params) (bytes : List Byte) (lo hi : Byte) : (levelAccess c lo hi).Issued c bytes :=
  ⟨fun _ _ => rfl, rfl, fun _ => rfl, fun _ _ => rfl, rfl, rfl⟩

theorem allIssued_configureInput (c : Params) (p : Fin 16) : AllIssued c [] (configureInputAccesses c p) :=
  ⟨issued_writeByte c [] _ _, trivial⟩

theorem allIssued_configureOutput (c : Params) (p : Fin 16) (value : Bool) (cur again : Byte) :
    AllIssued c [] (configureOutputAccesses c p value cur again) := by
  unfold configureOutputAccesses groupAccesses relatchAccesses
  cases c.gpioRelatch with
  | reread =>
    exact ⟨issued_readAccess .., issued_writeModified c rfl .., issued_readAccess .., issued_writeBack c rfl _,
      issued_writeByte .., trivial⟩
  | reuse =>
    exact ⟨issued_readAccess .., issued_writeModified c rfl .., issued_writeModified c rfl .., issued_writeByte .., trivial⟩

theorem allIssued_readMode (c : Params) (p : Fin 16) (ctl lo hi : Byte) : AllIssued c [] (readModeAccesses c p ctl lo hi) :=
  ⟨issued_readAccess .., issued_levelAccess .., trivial⟩

/-- R183: all of the accesses before the trigger write are to the group register. -/
theorem groupAccesses_addr (c : Params) (p : Fin 16) (value : Bool) (cur again : Byte) :
    ∀ a ∈ groupAccesses c p value cur again, a.addr = c.groupOf p := by
  unfold groupAccesses relatchAccesses
  cases c.gpioRelatch <;> simp [readAccess, writeAccess]

section
variable {c : Params} {pin : Byte} {p : Fin 16} (hp : pinOf pin = some p) (value : Bool)
include hp

/-- R182: the procedure of an input configure of a pin in range. -/
theorem workOf_gpioCfgin : workOf c (.gpioCfgin pin value) = .answering .empty (accessLines c (configureInputAccesses c p)) :=
  withPin_eq hp _ _

/-- R183: the procedure of an output configure of a pin in range, whatever the register will read. -/
theorem workOf_gpioCfgout (cur again : Byte) : workOf c (.gpioCfgout pin value) =
    .answering .empty (accessLines c (configureOutputAccesses c p value cur again)) := by
  refine (withPin_eq hp _ _).trans (congrArg (Work.answering .empty) ?_)
  unfold configureOutputLines configureOutputAccesses groupAccesses relatchLines relatchAccesses
  cases c.gpioRelatch <;> rfl

/-- R185: the procedure of a mode read of a pin in range, whatever the registers will read. -/
theorem workOf_gpioRdmode (ctl lo hi : Byte) : workOf c (.gpioRdmode pin) =
    .answering (.pinMode p) (accessLines c (readModeAccesses c p ctl lo hi)) :=
  withPin_eq hp _ _

end

/-! ### The transactions of each command -/

theorem accessTraffic_configureInput (c : Params) (mux page : Option Byte) (p : Fin 16) :
    accessTraffic c mux page (configureInputAccesses c p) =
      pagedTraffic c mux page (c.pinControl p) (.wb c.dpllAddr (lowerOf (c.pinControl p)) 0x00, []) := List.append_nil _

section
variable (c : Params) (mux page : Option Byte) (p : Fin 16) (value : Bool) (cur again : Byte)

/-- R183: the selects of the group register come before its first access only. -/
theorem accessTraffic_group :
    accessTraffic c mux page (groupAccesses c p value cur again) =
        ensureTraffic c (mux, page) (c.groupOf p) ++ (groupAccesses c p value cur again).map (·.exchange) ∧
      cachesAfter c mux page (groupAccesses c p value cur again) = (some c.dpllChannel, some (upperOf (c.groupOf p))) :=
  accessTraffic_of_ne_nil (groupAccesses_addr c p value cur again) (List.cons_ne_nil _ _) mux page

theorem accessTraffic_configureOutput :
    accessTraffic c mux page (configureOutputAccesses c p value cur again) =
      configureTraffic c mux page p cur (setBit cur (p.val % 8) value) again := by
  obtain ⟨htraffic, hcaches⟩ := accessTraffic_group c mux page p value cur again
  rw [configureOutputAccesses, accessTraffic_append, htraffic, hcaches]
  unfold configureTraffic groupAccesses relatchAccesses
  cases c.gpioRelatch <;>
    simp [accessTraffic, pagedTraffic_eq, readAccess, writeAccess, commitAccess, groupBit, outputTrigger]

end

/-! ### Every transaction succeeds -/

/-- Settles O39: an input configure is one access, which writes `0x00`. -/
theorem configureInputCompletes : Obligations.ConfigureInputCompletes := by
  intro pin p value s rest hw hp control x hscript
  have htraffic : accessTraffic s.cfg s.mux s.page (configureInputAccesses s.cfg p) = x :=
    accessTraffic_configureInput s.cfg s.mux s.page p
  rw [← htraffic] at hscript ⊢
  exact exec_accesses_completes hw (workOf_gpioCfgin hp value) (allIssued_configureInput s.cfg p) hscript

/-- Settles O40: the accesses of an output configure issue the transactions of R183. -/
theorem configureOutputCompletes : Obligations.ConfigureOutputCompletes := by
  intro pin p value cur again s rest hw hp x hscript
  have htraffic : accessTraffic s.cfg s.mux s.page (configureOutputAccesses s.cfg p value cur again) = x :=
    accessTraffic_configureOutput s.cfg s.mux s.page p value cur again
  rw [← htraffic] at hscript ⊢
  have hdone := exec_accesses_completes hw (workOf_gpioCfgout hp value cur again)
    (allIssued_configureOutput s.cfg p value cur again) hscript
  rw [configureOutputAccesses, cachesAfter_append] at hdone
  exact hdone

/-- R186, R99: the code of the mode. -/
theorem code_decodeMode (ctl : Byte) :
    (decodeMode ctl).code = if ctl.getLsbD 0 then 0x02 else if ctl.getLsbD 2 then 0x01 else 0x00 := by
  unfold decodeMode
  split
  · rfl
  · split <;> rfl

/-- Settles O41: a mode read has two accesses, and its payload is made of their three bytes. -/
theorem readModeCompletes : Obligations.ReadModeCompletes := by
  intro pin p ctl lo hi s rest hw hp control level x hscript
  have htraffic : accessTraffic s.cfg s.mux s.page (readModeAccesses s.cfg p ctl lo hi) = x := by
    simp [readModeAccesses, accessTraffic, pagedTraffic_eq, readAccess, levelAccess, x, control, level]
  rw [← htraffic] at hscript ⊢
  rw [← code_decodeMode]
  exact exec_accesses_completes hw (workOf_gpioRdmode hp ctl lo hi) (allIssued_readMode s.cfg p ctl lo hi) hscript

/-! ### One transaction fails -/

/-- R183: the transactions at the group register are the data transactions of its accesses, so the one behind `done` is that of
the access behind those of `done`. -/
theorem groupAccesses_split {c : Params} {p : Fin 16} {value : Bool} {cur again : Byte} {done left : List Exchange} {e : Exchange}
    (h : (groupAccesses c p value cur again).map (·.exchange) = done ++ e :: left) :
    ∃ before a after, groupAccesses c p value cur again = before ++ a :: after ∧ before.map (·.exchange) = done ∧
      a.exchange = e := by
  obtain ⟨before, later, hsplit, hbefore, hlater⟩ := List.map_eq_append_iff.1 h
  obtain ⟨a, after, rfl, ha, -⟩ := List.map_eq_cons_iff.1 hlater
  exact ⟨before, a, after, hsplit, hbefore, ha⟩

section
variable {pin : Byte} {p : Fin 16} {s : State} (hw : s.cfg.WellFormed) (hp : pinOf pin = some p)
include hw hp

/-- R231: at a transaction of the group register. -/
theorem failsAt_group (value : Bool) {cur again : Byte} {done left : List Exchange} {e : Exchange}
    (h : (groupAccesses s.cfg p value cur again).map (·.exchange) = done ++ e :: left) :
    FailsAt (.gpioCfgout pin value) s (ensureTraffic s.cfg (s.mux, s.page) (s.cfg.groupOf p) ++ done) e.1
      (some s.cfg.dpllChannel) (some (upperOf (s.cfg.groupOf p))) := by
  obtain ⟨before, a, after, hsplit, rfl, rfl⟩ := groupAccesses_split h
  have haddr := groupAccesses_addr s.cfg p value cur again
  have hlist : configureOutputAccesses s.cfg p value cur again = before ++ a :: (after ++ [commitAccess s.cfg p]) := by
    rw [configureOutputAccesses, hsplit, List.append_assoc, List.cons_append]
  rw [hsplit, List.forall_mem_append, List.forall_mem_cons] at haddr
  obtain ⟨hbefore, ha, -⟩ := haddr
  rw [← ha, ← accessTraffic_ensureTraffic (ha ▸ hbefore)]
  exact failsAt_access_data hw (hlist ▸ workOf_gpioCfgout hp value cur again)
    (hlist ▸ allIssued_configureOutput s.cfg p value cur again)

/-- R231: at the trigger write and its window write. -/
theorem failsAt_commit (value : Bool) (cur again : Byte) :
    let group := s.cfg.groupOf p
    let control := s.cfg.pinControl p
    let before := ensureTraffic s.cfg (s.mux, s.page) group ++ (groupAccesses s.cfg p value cur again).map (·.exchange)
    (upperOf group ≠ upperOf control →
      FailsAt (.gpioCfgout pin value) s before (.wk s.cfg.dpllAddr s.cfg.pageReg [lowerOf control, upperOf control, 0x10, 0x20])
        (some s.cfg.dpllChannel) (some (upperOf group))) ∧
    FailsAt (.gpioCfgout pin value) s (before ++ windowTraffic s.cfg (some (upperOf group)) control)
      (.wb s.cfg.dpllAddr (lowerOf control) 0x04) (some s.cfg.dpllChannel) (some (upperOf control)) := by
  intro group control before
  obtain ⟨htraffic, hcaches⟩ := accessTraffic_group s.cfg s.mux s.page p value cur again
  exact failsAt_last_access (a := commitAccess s.cfg p) hw (workOf_gpioCfgout hp value cur again)
    (allIssued_configureOutput s.cfg p value cur again) htraffic hcaches

/-- R231: at the level read and its window write. -/
theorem failsAt_level (ctl : Byte) :
    let control := s.cfg.pinControl p
    let level := s.cfg.levelAddr
    let before := ensureTraffic s.cfg (s.mux, s.page) control ++ [(.rb s.cfg.dpllAddr (lowerOf control), [ctl])]
    (upperOf control ≠ upperOf level →
      FailsAt (.gpioRdmode pin) s before (.wk s.cfg.dpllAddr s.cfg.pageReg [lowerOf level, upperOf level, 0x10, 0x20])
        (some s.cfg.dpllChannel) (some (upperOf control))) ∧
    FailsAt (.gpioRdmode pin) s (before ++ windowTraffic s.cfg (some (upperOf control)) level)
      (.rk s.cfg.dpllAddr (lowerOf level) 2) (some s.cfg.dpllChannel) (some (upperOf level)) := by
  intro control level before
  exact failsAt_last_access (before := [readAccess s.cfg control ctl]) (a := levelAccess s.cfg 0 0) hw
    (workOf_gpioRdmode hp ctl 0 0) (allIssued_readMode ..) (List.append_nil _) rfl

end

/-- Settles O60: each position is that of a select or of a data transaction of one of the command's accesses. -/
theorem failurePositionsOfThePinCommands : Obligations.FailurePositionsOfThePinCommands := by
  intro pin p s hw hp c select page muxWrite window control group level
  have input := fun value => failsAt_first_access hw (workOf_gpioCfgin (c := c) hp value) (allIssued_configureInput c p)
  have output := fun value cur again =>
    failsAt_first_access hw (workOf_gpioCfgout (c := c) hp value cur again) (allIssued_configureOutput ..)
  have readMode := fun ctl => failsAt_first_access hw (workOf_gpioRdmode (c := c) hp ctl 0 0) (allIssued_readMode ..)
  refine ⟨?mux, fun value => (input value).2, fun value cur again => ?output, fun ctl => ?readMode⟩
  case mux =>
    intro i hi
    simp only [List.mem_cons, List.not_mem_nil, or_false] at hi
    rcases hi with rfl | rfl | rfl | rfl | rfl
    · exact (input false).1
    · exact (input true).1
    · exact (output false 0 0).1
    · exact (output true 0 0).1
    · exact (readMode 0).1
  case output =>
    intro new first body
    have hbody : (groupAccesses c p value cur again).map (·.exchange) = body := by
      simp only [groupAccesses, relatchAccesses, body]
      cases c.gpioRelatch <;> rfl
    have hcommit := failsAt_commit hw hp value cur again
    rw [hbody] at hcommit
    exact ⟨(output value cur again).2.1, fun done r answer left h => failsAt_group hw hp value (hbody.trans h), hcommit⟩
  case readMode =>
    intro first read
    obtain ⟨-, hwindow, hdata⟩ := readMode ctl
    exact ⟨hwindow, hdata, failsAt_level hw hp ctl⟩

/-! ### A pin in range causes traffic -/

/-- R188: whatever the environment, a core that still has to execute a line that always issues a transaction adds to its trace. -/
theorem State.busLog_length_lt {data : Line} (hdata : data.IsData) {s : State} {tix : BitVec 8} {w : Work}
    (hs : s.seq = .busy tix (some w)) (hmem : data ∈ w.todo) : s.busLog.length < (s.execLines w.todo.length).busLog.length := by
  obtain ⟨todo, bytes, ending⟩ := w
  induction todo generalizing s with
  | nil => cases hmem
  | cons line rest ih =>
    cases hr : line.request s.cfg s.mux s.page bytes with
    | none =>
      have hne : data ≠ line := fun h => by simpa [h ▸ hr] using hdata.issues s.cfg s.mux s.page bytes
      have hlater := ih (s := (line.pass s).goOn tix ⟨rest, bytes, ending⟩) rfl (List.mem_of_ne_of_mem hne hmem)
      simpa [State.execLines, State.execLine_pass hs rfl hr] using hlater
    | some r =>
      obtain ⟨record, hrecord⟩ := State.execLine_busLog_of_issuesNext (s := s) (by simp [State.issuesNext, hs, hr])
      have hlater := (State.execLines_busLog rest.length s.execLine).length_le
      rw [hrecord, List.length_append] at hlater
      exact Nat.lt_of_succ_le hlater

/-- R188: so does a command with such a line. -/
theorem exec_busLog_length_lt {data : Line} (hdata : data.IsData) {i : Instr} {s t : State} (h : exec i s = .next t)
    (hmem : data ∈ (workOf s.cfg i).todo) : s.busLog.length < t.busLog.length := by
  obtain ⟨_, rfl⟩ := exec_eq_next h
  rw [State.execLines_add]
  exact (State.busLog_length_lt hdata (State.accept_seq s _) hmem).trans_le (State.execLine_busLog _).length_le

/-- Settles O43: the first access of each command has a data transaction. -/
theorem inRangePinCausesTraffic : Obligations.InRangePinCausesTraffic := by
  intro pin p value s t hp h
  rcases h with h | h | h
  · refine exec_busLog_length_lt (Line.isData_writeByte (s.cfg.pinControl p) inputTrigger) h ?_
    simp [workOf_gpioCfgin hp, configureInputAccesses, writeAccess, Work.answering, pagedLines]
  · refine exec_busLog_length_lt (Line.isData_readByte (s.cfg.groupOf p)) h ?_
    simp [workOf_gpioCfgout hp value 0 0, configureOutputAccesses, groupAccesses, readAccess, Work.answering, pagedLines]
  · refine exec_busLog_length_lt (Line.isData_readByte (s.cfg.pinControl p)) h ?_
    simp [workOf_gpioRdmode hp 0 0 0, readModeAccesses, readAccess, Work.answering, pagedLines]

/-! ### A pin out of range -/

/-- R8: a command without lines ends at once. -/
theorem exec_no_lines {i : Instr} {s : State} {reply : Reply} (hw : s.cfg.WellFormed)
    (hwork : workOf s.cfg i = .answering reply []) : exec i s = .next (s.respond .ok 0 (reply.payload s.cfg [])) := by
  rw [exec_eq_runCommand, hwork]
  exact runCommand_eq (n := 1) hw (State.execLine_end (State.accept_seq s (.answering reply [])) rfl) rfl

/-- Settles O42: the procedure of each command has no lines. -/
theorem outOfRangePinIsANoOp : Obligations.OutOfRangePinIsANoOp := by
  intro pin value s hw hpin
  have hout : pinOf pin = none := dif_neg (by omega)
  exact ⟨exec_no_lines (i := .gpioCfgin pin value) hw (withPin_out hout _ _),
    exec_no_lines (i := .gpioCfgout pin value) hw (withPin_out hout _ _),
    exec_no_lines (i := .gpioRdmode pin) hw (withPin_out hout _ _)⟩

/-! ### The mode and the group byte -/

/-- Settles O44: bit 0 is looked at first, then bit 2. -/
theorem decodeModePriority : Obligations.DecodeModePriority := by
  intro ctl
  unfold decodeMode
  refine ⟨fun h0 => if_pos h0, fun h0 h2 => ?_, fun h0 h2 => ?_⟩
  · rw [h0, h2]; rfl
  · rw [h0, h2]; rfl

/-- R183 step 2: the mask has bit `k` only. -/
theorem getLsbD_bitMask {j k : Nat} (hk : k < 8) : (1#8 <<< k).getLsbD j = decide (j = k) := by
  rw [BitVec.getLsbD_shiftLeft, BitVec.getLsbD_one, Bool.eq_iff_iff]
  simp only [Bool.and_eq_true, Bool.not_eq_true', decide_eq_true_eq, decide_eq_false_iff_not]
  omega

/-- Settles O45: setting the bit is an or with the mask, clearing it an and with its complement. -/
theorem setBitChangesOnlyThePinsBit : Obligations.SetBitChangesOnlyThePinsBit := by
  intro cur k j value hk hj
  cases value with
  | true =>
    rw [setBit, if_pos rfl, BitVec.getLsbD_or, getLsbD_bitMask hk]
    by_cases h : j = k <;> simp [h]
  | false =>
    rw [setBit, if_neg nofun, BitVec.getLsbD_and, BitVec.getLsbD_not, getLsbD_bitMask hk]
    by_cases h : j = k <;> simp [h, hj]

end Sys2Proof.Machine
end

section
/-! The pin commands on the reference devices (spec/20_memory.md rule R70, spec/42_gpio.md rules R190 and R191): what the devices
answer to the accesses of a command, and an output configure followed by a mode read. -/

namespace Sys2Proof.Machine

/-! ### Paged accesses on the reference devices -/

/-- From coherent caches, the devices `d` answer the accesses as their exchanges say, and are then `d'`. -/
def Devices.AnswersAll (c : Params) : Devices → List PagedAccess → Devices → Prop
  | d, [], d' => d' = d
  | d, a :: later, d' =>
    ∃ d₁, Devices.Answers c false a.exchange.1 a.exchange.2 (d.selected c a.addr) d₁ ∧ Devices.AnswersAll c d₁ later d'

theorem Devices.AnswersAll.concat {c : Params} {d d₁ d₂ : Devices} {l : List PagedAccess} {a : PagedAccess}
    (h : Devices.AnswersAll c d l d₁) (ha : Devices.Answers c false a.exchange.1 a.exchange.2 (d₁.selected c a.addr) d₂) :
    Devices.AnswersAll c d (l ++ [a]) d₂ := by
  induction l generalizing d with
  | nil =>
    obtain rfl : d₁ = d := h
    exact ⟨d₂, ha, rfl⟩
  | cons b l ih =>
    obtain ⟨d₀, hb, hl⟩ := h
    exact ⟨d₀, hb, ih hl⟩

section
variable {c : Params} {bytes : List Byte} {d d' : Devices} (hne : c.muxAddr ≠ c.dpllAddr)
include hne

/-- R66: behind an access the devices have the DPLL selected and its window on the page of the address. -/
theorem PagedAccess.Issued.matches {a : PagedAccess} (h : a.Issued c bytes)
    (ha : Devices.Answers c false a.exchange.1 a.exchange.2 (d.selected c a.addr) d') :
    d'.Matches (some c.dpllChannel) (some (upperOf a.addr)) := by
  have hmux : ∀ chan, ¬ c.MuxWrite chan a.exchange.1 := fun chan hr => hne (by rw [← h.device, hr]; rfl)
  exact Devices.Matches.data ⟨fun _ hc => Option.some.inj hc, fun _ hu => Option.some.inj hu⟩ hmux ha.take

/-- R66: so the caches are coherent behind the accesses. -/
theorem Devices.AnswersAll.matches {mux page : Option Byte} {l : List PagedAccess} (ha : Devices.AnswersAll c d l d')
    (h : AllIssued c bytes l) (hm : d.Matches mux page) :
    d'.Matches (cachesAfter c mux page l).1 (cachesAfter c mux page l).2 := by
  induction l generalizing d mux page bytes with
  | nil =>
    obtain rfl : d' = d := ha
    exact hm
  | cons a l ih =>
    obtain ⟨d₁, ha, hl⟩ := ha
    exact ih hl h.2 (h.1.matches hne ha)

end

/-- R153: an access from coherent caches; its data transaction finds the DPLL selected and the page of its address. -/
theorem runsOn_access {s : State} {d d' : Devices} {a : PagedAccess} {bytes : List Byte} (hscript : s.env.script = [])
    (hd : s.env.devices = some d) (hm : d.Matches s.mux s.page) (h : a.Issued s.cfg bytes)
    (ha : Devices.Answers s.cfg false a.exchange.1 a.exchange.2 (d.selected s.cfg a.addr) d') :
    RunsOn s (pagedLines s.cfg a.addr a.data) bytes (pagedTraffic s.cfg s.mux s.page a.addr a.exchange) (some s.cfg.dpllChannel)
      (some (upperOf a.addr)) d' := by
  refine (runsOn_ensure hscript hd hm bytes a.addr).append (l₂ := [a.data]) fun t ht hdt => ?_
  have hdata := runsOn_transact ht.script hdt (line := a.data) (bytes := bytes) (by rw [ht.cfg]; exact h.request _ _)
    (by rw [ht.cfg, h.isWindow]; exact ha)
  rw [h.commit, ht.mux, ht.page] at hdata
  simpa using hdata

/-- R153: the accesses of a command, from coherent caches. -/
theorem runsOn_accesses {s : State} {d d' : Devices} {l : List PagedAccess} {bytes : List Byte}
    (hne : s.cfg.muxAddr ≠ s.cfg.dpllAddr) (hscript : s.env.script = []) (hd : s.env.devices = some d)
    (hm : d.Matches s.mux s.page) (h : AllIssued s.cfg bytes l) (ha : Devices.AnswersAll s.cfg d l d') :
    RunsOn s (accessLines s.cfg l) bytes (accessTraffic s.cfg s.mux s.page l) (cachesAfter s.cfg s.mux s.page l).1
      (cachesAfter s.cfg s.mux s.page l).2 d' := by
  induction l generalizing s d bytes with
  | nil =>
    obtain rfl : d' = d := ha
    intro k more ending hs
    exact ⟨0, s, rfl, hscript ▸ .refl s, hd, by simpa [accessLines, accessTraffic] using hs⟩
  | cons a l ih =>
    obtain ⟨hissued, hlater⟩ := h
    obtain ⟨d₁, ha, hl⟩ := ha
    have hm₁ := hissued.matches hne ha
    refine (runsOn_access hscript hd hm hissued ha).append fun t ht hdt => ?_
    rw [answersOf_pagedTraffic, cachesAfter, ← ht.mux, ← ht.page, ← ht.cfg]
    exact ih (ht.cfg ▸ hne) ht.script hdt (by rwa [ht.mux, ht.page]) (ht.cfg ▸ hlater) (ht.cfg ▸ hl)

/-- R97: a command that consists of paged accesses, on the reference devices, from coherent caches. -/
theorem exec_accesses_on_devices {i : Instr} {s : State} {reply : Reply} {l : List PagedAccess} {d d' : Devices}
    (hw : s.cfg.WellFormed) (hne : s.cfg.muxAddr ≠ s.cfg.dpllAddr) (hscript : s.env.script = []) (hd : s.env.devices = some d)
    (hm : d.Matches s.mux s.page) (hwork : workOf s.cfg i = .answering reply (accessLines s.cfg l)) (h : AllIssued s.cfg [] l)
    (ha : Devices.AnswersAll s.cfg d l d') :
    ∃ t info, exec i s = .next t ∧ t.cfg = s.cfg ∧ t.env.script = [] ∧ t.env.devices = some d' ∧ d'.Matches t.mux t.page ∧
      t.respPort = s.respPort ++ [0x00 :: info :: reply.payload s.cfg (answersOf (l.map (·.exchange)))] := by
  obtain ⟨t, ht, hdone, hdt⟩ := completed_of_runsOn (reply := reply) hw
    (runsOn_accesses (s := s.accept (.answering reply (accessLines s.cfg l))) hne hscript hd hm h ha)
  rw [exec_eq_runCommand, hwork]
  have hmatch := ha.matches hne h hm
  have hresp := hdone.respPort
  rw [answersOf_accessTraffic] at hresp
  exact ⟨t, _, ht, hdone.cfg, hdone.script, hdt, by rw [hdone.mux, hdone.page]; exact hmatch, hresp⟩

/-! ### What the devices answer to each access -/

/-- R63: one register that is not the paging register. -/
theorem blockClear_one {c : Params} {reg : Byte} (h : ¬ c.InPagingRegister reg) : c.BlockClear reg 1 := by
  have := reg.isLt
  omega

/-- R6 (c), (d): the two level bytes are on one page and clear of the paging register. -/
theorem blockClear_level {c : Params} (hw : c.WellFormed) : c.BlockClear (lowerOf c.levelAddr) 2 := by
  obtain ⟨_, _, _, hlower, ⟨_, _, _, hlevel, hlevel'⟩, _⟩ := hw
  have hnext := (addr_add_in_page (addr := c.levelAddr) (j := 1) (by omega)).2.2
  rw [show BitVec.ofNat 16 1 = 1 from rfl] at hnext
  omega

/-- R53: the devices behind a write of the byte `v` at an address. -/
def Devices.stored (c : Params) (addr : Addr) (v : Byte) (d : Devices) : Devices :=
  { d.selected c addr with dpllMem := storeBytes c d.dpllMem addr.toNat [v] }

section
variable {c : Params} {addr : Addr} (d : Devices)

/-- R53, R56: a byte write. -/
theorem Devices.answers_writeAccess (hne : c.muxAddr ≠ c.dpllAddr) (hclear : c.BlockClear (lowerOf addr) 1) (v : Byte) :
    Devices.Answers c false (.wb c.dpllAddr (lowerOf addr) v) [] (d.selected c addr) (d.stored c addr v) := by
  have hcl : (d.selected c addr).classify c false (.wb c.dpllAddr (lowerOf addr) v) = .dpllWrite addr.toNat [v] := by
    rw [Devices.classify, if_neg fun h => hne h.1.symm, if_pos ⟨rfl, rfl⟩, Devices.dpllAccess, if_pos hclear,
      Devices.selected_logical]
  exact ⟨fun log => by simp [Devices.completion, hcl], by simp [Devices.take, hcl, wholeExtent]; rfl⟩

/-- R53: a byte read of a register that is not computed. -/
theorem Devices.answers_readAccess (hclear : c.BlockClear (lowerOf addr) 1) (hlevel : ¬ c.IsLevelAddr addr.toNat) :
    Devices.Answers c false (.rb c.dpllAddr (lowerOf addr)) [Memory.read d.dpllMem addr.toNat] (d.selected c addr)
      (d.selected c addr) := by
  have h := Devices.answers_readByte (d := d.selected c addr) rfl hclear
  have hbyte : (d.selected c addr).dpllByte c addr.toNat = Memory.read d.dpllMem addr.toNat := by
    unfold Devices.dpllByte
    rw [if_neg fun h => hlevel (.inl h), if_neg fun h => hlevel (.inr h)]
    rfl
  rwa [Devices.selected_logical, hbyte] at h

/-- R32, R185: the level read. -/
theorem Devices.answers_levelAccess (hclear : c.BlockClear (lowerOf c.levelAddr) 2) :
    Devices.Answers c false (.rk c.dpllAddr (lowerOf c.levelAddr) 2) [d.levelLow c, d.levelHigh c] (d.selected c c.levelAddr)
      (d.selected c c.levelAddr) := by
  have hcl : (d.selected c c.levelAddr).classify c false (.rk c.dpllAddr (lowerOf c.levelAddr) 2) =
      .dpllRead c.levelAddr.toNat 2 := by
    rw [Devices.classify, Devices.classifyRead, if_pos ⟨rfl, rfl⟩, Devices.dpllAccess, if_pos hclear, Devices.selected_logical]
  have hbytes : bytesFrom ((d.selected c c.levelAddr).dpllByte c) c.levelAddr.toNat 2 = [d.levelLow c, d.levelHigh c] := by
    simp only [bytesFrom, Devices.dpllByte, if_true, Nat.add_eq_left, Nat.one_ne_zero, if_false]
    rfl
  exact ⟨fun log => by simp [Devices.completion, hcl, hbytes], by simp [Devices.take, hcl]⟩

/-- R56: the byte stands at its address. -/
theorem Devices.read_stored_same {d : Devices} (hwf : Memory.wf d.dpllMem) (hlevel : ¬ c.IsLevelAddr addr.toNat) (v : Byte) :
    Memory.read (d.stored c addr v).dpllMem addr.toNat = v :=
  read_storeBytes (j := 0) hwf (Nat.zero_lt_one) hlevel

theorem Devices.read_stored_other {a : Nat} (h : a ≠ addr.toNat) (v : Byte) :
    Memory.read (d.stored c addr v).dpllMem a = Memory.read d.dpllMem a :=
  read_storeBytes_other d.dpllMem [v] (by simp only [List.length_singleton]; omega)

theorem Devices.stored_wf {d : Devices} (hwf : Memory.wf d.dpllMem) (v : Byte) : Memory.wf (d.stored c addr v).dpllMem :=
  storeBytes_wf hwf _ _

end

/-! ### An output configure and a mode read -/

section
variable {c : Params} {p : Fin 16} {d : Devices} (hw : c.WellFormed)
include hw

/-- R183: the group register takes the modified byte, whichever way it is written again. -/
theorem Devices.answersAll_group (hne : c.muxAddr ≠ c.dpllAddr) (hlevel : ¬ c.IsLevelAddr (c.groupOf p).toNat)
    (hwf : Memory.wf d.dpllMem) (value : Bool) :
    let new := setBit (Memory.read d.dpllMem (c.groupOf p).toNat) (groupBit p) value
    ∃ d', Devices.AnswersAll c d (groupAccesses c p value (Memory.read d.dpllMem (c.groupOf p).toNat) new) d' ∧
      Memory.wf d'.dpllMem ∧ Memory.read d'.dpllMem (c.groupOf p).toNat = new := by
  intro new
  obtain ⟨_, _, _, _, ⟨_, hlo, hhi, _⟩, _⟩ := hw
  have hclear : c.BlockClear (lowerOf (c.groupOf p)) 1 := by
    unfold Params.groupOf
    split
    · exact blockClear_one hlo
    · exact blockClear_one hhi
  let once := (d.selected c (c.groupOf p)).stored c (c.groupOf p) new
  have honce : Memory.wf once.dpllMem := Devices.stored_wf hwf new
  have hread : Memory.read once.dpllMem (c.groupOf p).toNat = new := Devices.read_stored_same hwf hlevel new
  have hfirst := d.answers_readAccess hclear hlevel
  have hwrite := (d.selected c (c.groupOf p)).answers_writeAccess hne hclear new
  unfold groupAccesses relatchAccesses
  cases c.gpioRelatch with
  | reread =>
    have hagain := once.answers_readAccess hclear hlevel
    rw [hread] at hagain
    exact ⟨_, ⟨_, hfirst, _, hwrite, _, hagain, _, Devices.answers_writeAccess _ hne hclear new, rfl⟩,
      Devices.stored_wf honce new, Devices.read_stored_same honce hlevel new⟩
  | reuse =>
    exact ⟨_, ⟨_, hfirst, _, hwrite, _, Devices.answers_writeAccess _ hne hclear new, rfl⟩,
      Devices.stored_wf honce new, Devices.read_stored_same honce hlevel new⟩

/-- R183: behind an output configure the control register holds the trigger value and the group register the modified byte. -/
theorem Devices.answersAll_configureOutput (hne : c.muxAddr ≠ c.dpllAddr) (hapart : c.pinControl p ≠ c.groupOf p)
    (hcontrol : ¬ c.IsLevelAddr (c.pinControl p).toNat) (hgroup : ¬ c.IsLevelAddr (c.groupOf p).toNat)
    (hwf : Memory.wf d.dpllMem) (value : Bool) :
    ∃ cur again d', Devices.AnswersAll c d (configureOutputAccesses c p value cur again) d' ∧
      Memory.read d'.dpllMem (c.pinControl p).toNat = outputTrigger ∧
      Memory.read d'.dpllMem (c.groupOf p).toNat = setBit cur (groupBit p) value := by
  obtain ⟨g, hg, hgwf, hgroup⟩ := Devices.answersAll_group hw hne hgroup hwf value
  have hclear : c.BlockClear (lowerOf (c.pinControl p)) 1 := by
    obtain ⟨_, _, _, _, ⟨hpin, _⟩, _⟩ := hw
    exact blockClear_one (hpin p)
  refine ⟨_, _, g.stored c (c.pinControl p) outputTrigger, hg.concat (Devices.answers_writeAccess g hne hclear outputTrigger),
    Devices.read_stored_same hgwf hcontrol outputTrigger, ?_⟩
  rw [Devices.read_stored_other g (fun h => hapart (BitVec.eq_of_toNat_eq h.symm)), hgroup]

/-- R185: a mode read is answered with the control byte and the two level bytes. -/
theorem Devices.answersAll_readMode (hcontrol : ¬ c.IsLevelAddr (c.pinControl p).toNat) :
    ∃ d', Devices.AnswersAll c d
      (readModeAccesses c p (Memory.read d.dpllMem (c.pinControl p).toNat) (d.levelLow c) (d.levelHigh c)) d' := by
  have hclear : c.BlockClear (lowerOf (c.pinControl p)) 1 := by
    obtain ⟨_, _, _, _, ⟨hpin, _⟩, _⟩ := hw
    exact blockClear_one (hpin p)
  exact ⟨_, _, d.answers_readAccess hclear hcontrol, _, Devices.answers_levelAccess (d.selected c _) (blockClear_level hw),
    rfl⟩

end

/-- R32, R185: bit `p` of the two level bytes is the level bit of pin `p`. -/
theorem levelOf_levelBytes (c : Params) (d : Devices) (p : Fin 16) :
    levelOf [d.levelLow c, d.levelHigh c] p = d.levelBit c p := by
  have hlow (k : Nat) : (d.levelLow c).getLsbD k = [d.levelBit c 0, d.levelBit c 1, d.levelBit c 2, d.levelBit c 3,
      d.levelBit c 4, d.levelBit c 5, d.levelBit c 6, d.levelBit c 7].getD k false := BitVec.getLsbD_ofBoolListLE
  have hhigh (k : Nat) : (d.levelHigh c).getLsbD k = [d.levelBit c 8, d.levelBit c 9, d.levelBit c 10, d.levelBit c 11,
      d.levelBit c 12, d.levelBit c 13, d.levelBit c 14, d.levelBit c 15].getD k false := BitVec.getLsbD_ofBoolListLE
  have hbit : levelOf [d.levelLow c, d.levelHigh c] p = (d.levelHigh c ++ d.levelLow c).getLsbD p.val := rfl
  rw [hbit, BitVec.getLsbD_append, hlow, hhigh]
  fin_cases p <;> rfl

/-- R70: the level of a pin whose control register holds the trigger value is its bit of the group register. -/
theorem Devices.levelBit_of_output {c : Params} {d : Devices} {p : Fin 16} {cur : Byte} {value : Bool}
    (hcontrol : Memory.read d.dpllMem (c.pinControl p).toNat = outputTrigger)
    (hgroup : Memory.read d.dpllMem (c.groupOf p).toNat = setBit cur (groupBit p) value) : d.levelBit c p = value := by
  have hbit : groupBit p < 8 := Nat.mod_lt _ (by decide)
  have houtput : (outputTrigger.getLsbD 2 && !outputTrigger.getLsbD 0) = true := rfl
  simp only [Devices.levelBit, hcontrol, hgroup, houtput, if_true]
  rw [setBitChangesOnlyThePinsBit cur _ _ value hbit hbit, if_pos rfl]

/-- Settles O46: the configure leaves the trigger value and the modified byte in the devices, from which the mode read computes
its two answers. -/
theorem configureThenReadModeRoundTrip : Obligations.ConfigureThenReadModeRoundTrip := by
  intro pin p value s d hw hne hp hapart hcontrol hgroup hcoh hd hwf hscript
  obtain ⟨cur, again, d₁, hconfigure, htrigger, hmodified⟩ :=
    Devices.answersAll_configureOutput hw hne hapart hcontrol hgroup hwf.1 value
  obtain ⟨d₂, hread⟩ := Devices.answersAll_readMode (d := d₁) hw hcontrol
  obtain ⟨t, info, ht, hcfg, hscript', hd₁, hm₁, hresp⟩ := exec_accesses_on_devices hw hne hscript hd (coherent_iff.1 hcoh d hd)
    (workOf_gpioCfgout hp value cur again) (allIssued_configureOutput s.cfg p value cur again) hconfigure
  rw [← hcfg] at hw hne hread htrigger hmodified
  obtain ⟨u, info', hu, _, _, _, _, hresp'⟩ := exec_accesses_on_devices hw hne hscript' hd₁ hm₁ (workOf_gpioRdmode hp _ _ _)
    (allIssued_readMode ..) hread
  refine ⟨t, u, info, info', ht, hresp, hu, hresp'.trans ?_⟩
  have hlevel : levelOf [d₁.levelLow t.cfg, d₁.levelHigh t.cfg] p = value := by
    rw [levelOf_levelBytes, Devices.levelBit_of_output htrigger hmodified]
  have hpayload : (Reply.pinMode p).payload t.cfg [outputTrigger, d₁.levelLow t.cfg, d₁.levelHigh t.cfg] =
      [0x01, levelByte value] := by
    have hmode : (decodeMode outputTrigger).code = 0x01 := by decide
    rw [← hlevel, ← hmode]
    rfl
  rw [htrigger]
  exact congrArg (fun payload => t.respPort ++ [0x00 :: info' :: payload]) hpayload

end Sys2Proof.Machine
end

section
/-! What a configure leaves as it was in the reference devices (spec/42_gpio.md rules R182, R183 and R190, spec/20_memory.md rule
R70): each data transaction of a pin command finds the window on the page of its address, so it changes the byte there only. -/

namespace Sys2Proof.Machine

/-! ### Data transactions behind the select of their page -/

/-- The line is the data transaction of a paged access to `addr` that writes one byte at most (R153). -/
structure Line.AccessesByte (c : Params) (addr : Addr) (data : Line) : Prop where
  reg : ∀ {mux page bytes r}, data.request c mux page bytes = some r → BusRequest.reg r = lowerOf addr ∧ r.written.length ≤ 1
  commit : ∀ s, data.commit s = s
  failed : ∀ w tix, data.failed w tix = w.raise (.busError tix)
  isWindow : data.isWindow = false

theorem Line.accessesByte_readByte (c : Params) (addr : Addr) : (Line.readByte addr).AccessesByte c addr :=
  ⟨fun h => by cases h; exact ⟨rfl, Nat.zero_le 1⟩, fun _ => rfl, fun _ _ => rfl, rfl⟩

theorem Line.accessesByte_writeByte (c : Params) (addr : Addr) (v : Byte) : (Line.writeByte addr v).AccessesByte c addr :=
  ⟨fun h => by cases h; exact ⟨rfl, le_rfl⟩, fun _ => rfl, fun _ _ => rfl, rfl⟩

theorem Line.accessesByte_writeModified (c : Params) (addr : Addr) (k : Nat) (value : Bool) :
    (Line.writeModified addr k value).AccessesByte c addr :=
  ⟨fun h => by cases h; exact ⟨rfl, le_rfl⟩, fun _ => rfl, fun _ _ => rfl, rfl⟩

theorem Line.accessesByte_writeBack (c : Params) (addr : Addr) : (Line.writeBack addr).AccessesByte c addr :=
  ⟨fun h => by cases h; exact ⟨rfl, le_rfl⟩, fun _ => rfl, fun _ _ => rfl, rfl⟩

/-- R151, R153: where the page cache holds `page`, the lines are selects and data transactions at addresses among `allowed`, and
each data transaction finds the page of its address in the cache. -/
def AccessesAmong (c : Params) (allowed : List Addr) : Option Byte → List Line → Prop
  | _, [] => True
  | page, line :: rest =>
    (line = ensureChannel c ∧ ∀ page', AccessesAmong c allowed page' rest) ∨
    (∃ addr, line = .pageSelect addr ∧ AccessesAmong c allowed (some (upperOf addr)) rest) ∨
    (∃ addr ∈ allowed, page = some (upperOf addr) ∧ line.AccessesByte c addr) ∧ ∀ page', AccessesAmong c allowed page' rest

/-- R153: a paged access to one of the addresses, with more of them behind it. -/
theorem accessesAmong_paged {c : Params} {allowed : List Addr} {addr : Addr} {data : Line} {rest : List Line}
    (hdata : data.AccessesByte c addr) (hmem : addr ∈ allowed) (hrest : ∀ page, AccessesAmong c allowed page rest)
    (page : Option Byte) : AccessesAmong c allowed page (pagedLines c addr data ++ rest) :=
  .inl ⟨rfl, fun _ => .inr (.inl ⟨addr, rfl, .inr (.inr ⟨⟨addr, hmem, rfl, hdata⟩, hrest⟩)⟩)⟩

/-- R182: an input configure accesses the control register. -/
theorem accessesAmong_configureInput (c : Params) (p : Fin 16) (page : Option Byte) :
    AccessesAmong c [c.pinControl p] page (configureInputLines c p) :=
  accessesAmong_paged (rest := []) (Line.accessesByte_writeByte ..) (by simp) (fun _ => trivial) page

/-- R183: an output configure accesses the group register, then the control register. -/
theorem accessesAmong_configureOutput (c : Params) (p : Fin 16) (value : Bool) (page : Option Byte) :
    AccessesAmong c [c.pinControl p, c.groupOf p] page (configureOutputLines c p value) := by
  have commit : ∀ page, AccessesAmong c [c.pinControl p, c.groupOf p] page
      (pagedLines c (c.pinControl p) (.writeByte (c.pinControl p) outputTrigger)) :=
    accessesAmong_paged (rest := []) (Line.accessesByte_writeByte ..) (by simp) fun _ => trivial
  have group : ∀ {data rest}, data.AccessesByte c (c.groupOf p) →
      (∀ page, AccessesAmong c [c.pinControl p, c.groupOf p] page rest) → ∀ page,
        AccessesAmong c [c.pinControl p, c.groupOf p] page (pagedLines c (c.groupOf p) data ++ rest) :=
    fun hdata => accessesAmong_paged hdata (by simp)
  unfold configureOutputLines relatchLines
  cases c.gpioRelatch with
  | reread =>
    simp only [List.append_assoc]
    exact group (Line.accessesByte_readByte ..) (group (Line.accessesByte_writeModified ..)
      (group (Line.accessesByte_readByte ..) (group (Line.accessesByte_writeBack ..) commit))) page
  | reuse =>
    simp only [List.append_assoc]
    exact group (Line.accessesByte_readByte ..) (group (Line.accessesByte_writeModified ..)
      (group (Line.accessesByte_writeModified ..) commit)) page

/-- What the core still has to execute are such lines. -/
def State.AccessesAmong (allowed : List Addr) (s : State) : Prop :=
  ∀ tix w, s.seq = .busy tix (some w) → Machine.AccessesAmong s.cfg allowed s.page w.todo

/-- R151, R231: what comes behind a line that issues nothing, behind one whose transaction succeeds, and that no failure is
tolerated; a select of a page leaves it in the cache either way. -/
theorem accessesAmong_cons {s : State} {allowed : List Addr} {line : Line} {rest : List Line}
    (h : AccessesAmong s.cfg allowed s.page (line :: rest)) (bytes : List Byte) :
    (line.request s.cfg s.mux s.page bytes = none → AccessesAmong s.cfg allowed (line.pass s).page rest) ∧
      AccessesAmong s.cfg allowed (line.commit s).page rest ∧ ∀ w tix, line.failed w tix = w.raise (.busError tix) := by
  rcases h with ⟨rfl, hrest⟩ | ⟨addr, rfl, hrest⟩ | ⟨⟨addr, -, -, hdata⟩, hrest⟩
  · exact ⟨fun _ => hrest _, hrest _, fun _ _ => rfl⟩
  · refine ⟨fun hr => ?_, hrest, fun _ _ => rfl⟩
    have hpage : s.page = some (upperOf addr) := by simpa [Line.request, windowRequest] using hr
    rw [Line.pass, hpage]
    exact hrest
  · exact ⟨fun _ => hrest _, hrest _, hdata.failed⟩

/-- R8: so the lines left stay such lines. -/
theorem State.AccessesAmong.execLine {allowed : List Addr} {s : State} (h : s.AccessesAmong allowed) :
    s.execLine.AccessesAmong allowed := by
  rcases s.execLine_cases with ⟨_, he⟩ | ⟨tix, w, hs, ⟨_, he⟩ | ⟨line, rest, ht, ⟨hr, he⟩ | ⟨r, _, he⟩⟩⟩ <;> rw [he]
  · exact h
  · exact fun k v hv => by simp at hv
  · intro k v hv
    cases hv
    simpa using (accessesAmong_cons (ht ▸ h tix w hs) w.bytes).1 hr
  · obtain ⟨-, hcommit, hfailed⟩ := accessesAmong_cons (ht ▸ h tix w hs) w.bytes
    rcases s.transact_cases line r tix { w with todo := rest } with ⟨bytes, _, _, he⟩ | ⟨_, he⟩ | ⟨_, he⟩ | ⟨_, he⟩ <;>
      rw [he] <;> intro k v hv
    · obtain ⟨_, rfl⟩ : tix + 1 = k ∧ _ = v := by simpa using hv
      rw [Line.commit_cfg, line.commit_page s]
      · exact hcommit
      · rfl
    · rw [hfailed] at hv
      cases hv
      trivial
    · cases hv
    · cases hv

/-! ### What such a command changes -/

/-- At most the bytes at these addresses of DPLL memory have changed, and no cage. -/
structure ChangedOnlyAt (allowed : List Addr) (d d' : Devices) : Prop where
  memory : ∀ a, (∀ addr ∈ allowed, a ≠ addr.toNat) → Memory.read d'.dpllMem a = Memory.read d.dpllMem a
  cages : d'.cages = d.cages

theorem SameContents.changedOnlyAt {d d' : Devices} (h : SameContents d d') (allowed : List Addr) : ChangedOnlyAt allowed d d' :=
  ⟨fun _ _ => by rw [h.dpllMem], h.cages⟩

theorem ChangedOnlyAt.trans {allowed : List Addr} {d d' d'' : Devices} (h : ChangedOnlyAt allowed d d')
    (h' : ChangedOnlyAt allowed d' d'') : ChangedOnlyAt allowed d d'' :=
  ⟨fun a ha => (h'.memory a ha).trans (h.memory a ha), h'.cages.trans h.cages⟩

/-- R53: with the window on the page of an address, the one byte at its lower byte is the byte at the address. -/
theorem ChangedAtMost.changedOnlyAt {allowed : List Addr} {addr : Addr} {n : Nat} {d d' : Devices}
    (h : ChangedAtMost (lowerOf addr) n d d') (hn : n ≤ 1) (hwin : d'.winUpper = upperOf addr) (hmem : addr ∈ allowed) :
    ChangedOnlyAt allowed d d' := by
  refine ⟨fun a ha => h.memory a ?_, h.cages⟩
  have hlogical : d'.logical (lowerOf addr) = addr.toNat := by
    rw [Devices.logical, hwin, toNat_eq_upper_lower addr]
  have hne := ha addr hmem
  omega

/-- R53, R66: a data transaction that finds coherent caches, with the page of its address, changes the byte there at most. -/
theorem transact_changedOnlyAt {s : State} {allowed : List Addr} {addr : Addr} {line : Line} {r : BusRequest} {bytes : List Byte}
    {tix : BitVec 8} {w : Work} (hf : Faithful s.cfg s) (hne : s.cfg.muxAddr ≠ s.cfg.dpllAddr) (hcoh : Coherent s)
    (hline : line.AccessesByte s.cfg addr) (hmem : addr ∈ allowed) (hpage : s.page = some (upperOf addr))
    (hr : line.request s.cfg s.mux s.page bytes = some r) :
    ∀ x ∈ (s.transact line r tix w).env.devices, ∃ d ∈ s.env.devices, ChangedOnlyAt allowed d x := by
  have unchanged : (∀ x ∈ (s.transact line r tix w).env.devices, ∃ d ∈ s.env.devices, SameBut d x) →
      ∀ x ∈ (s.transact line r tix w).env.devices, ∃ d ∈ s.env.devices, ChangedOnlyAt allowed d x := fun h x hx => by
    obtain ⟨d, hd, hsame⟩ := h x hx
    exact ⟨d, hd, hsame.sameContents.changedOnlyAt allowed⟩
  obtain ⟨-, ⟨_, -, -, -, hdev⟩ | ⟨-, -, -, hdev⟩ | ⟨-, -, -, hdev⟩⟩ :=
    transact_faithful (line := line) (r := r) (tix := tix) (w := w) hf
  · intro x hx
    obtain ⟨d, hd, d₁, hsame, htake⟩ := hdev x hx
    obtain ⟨hreg, hwritten⟩ := hline.reg hr
    have hmatch := Line.commit_matches hne hr (by simp [hline.isWindow]) ((coherent_iff.1 hcoh d hd).sameBut hsame) htake
    rw [hline.commit] at hmatch
    rw [hline.isWindow] at htake
    have hchanged := take_changedAtMost htake
    rw [hreg] at hchanged
    exact ⟨d, hd, (hsame.sameContents.changedOnlyAt allowed).trans
      (hchanged.changedOnlyAt hwritten (hmatch.2 _ hpage) hmem)⟩
  · exact unchanged hdev
  · exact unchanged hdev

/-- So does the next line of such a command, whatever it is. -/
theorem State.AccessesAmong.execLine_changedOnlyAt {allowed : List Addr} {s : State} (h : s.AccessesAmong allowed)
    (hs : Synchronised s) (ho : s.cfg.singleOwner = true) (hne : s.cfg.muxAddr ≠ s.cfg.dpllAddr) :
    ∀ x ∈ s.execLine.env.devices, ∃ d ∈ s.env.devices, ChangedOnlyAt allowed d x := by
  rcases s.execLine_cases with ⟨_, he⟩ | ⟨tix, w, hseq, ⟨_, he⟩ | ⟨line, rest, ht, ⟨_, he⟩ | ⟨r, hr, he⟩⟩⟩ <;> rw [he]
  · exact fun x hx => ⟨x, hx, (SameContents.refl x).changedOnlyAt allowed⟩
  · exact fun x hx => ⟨x, by simpa using hx, (SameContents.refl x).changedOnlyAt allowed⟩
  · exact fun x hx => ⟨x, by simpa using hx, (SameContents.refl x).changedOnlyAt allowed⟩
  · have select : line.stores = false →
        ∀ x ∈ (s.transact line r tix { w with todo := rest }).env.devices, ∃ d ∈ s.env.devices, ChangedOnlyAt allowed d x := by
      intro hstores x hx
      rw [(s.transact_traffic line r tix { w with todo := rest }).1] at hx
      obtain ⟨d, hd, hsame⟩ := BusEnv.after_sameContents ho hstores hr hx
      exact ⟨d, hd, hsame.changedOnlyAt allowed⟩
    have hlines : Machine.AccessesAmong s.cfg allowed s.page (line :: rest) := ht ▸ h tix w hseq
    rcases hlines with ⟨rfl, _⟩ | ⟨addr, rfl, _⟩ | ⟨⟨addr, hmem, hpage, hdata⟩, _⟩
    · exact select rfl
    · exact select rfl
    · exact transact_changedOnlyAt (hs.faithfulEnv ho) hne hs.coherent hdata hmem hpage hr

/-- A command of such lines, in a faithful environment. -/
theorem exec_changedOnlyAt {i : Instr} {s t : State} {d d' : Devices} {allowed : List Addr} (ho : s.cfg.singleOwner = true)
    (hne : s.cfg.muxAddr ≠ s.cfg.dpllAddr) (hcoh : Coherent s) (hf : ∀ e ∈ s.env.script, e.Faithful)
    (hwork : AccessesAmong s.cfg allowed s.page (workOf s.cfg i).todo) (h : exec i s = .next t)
    (hd : s.env.devices = some d) (hd' : t.env.devices = some d') : ChangedOnlyAt allowed d d' := by
  have haccept : Synchronised (s.accept (workOf s.cfg i)) :=
    ⟨hcoh, hf, fun tix w hw => by cases hw; exact workOf_selectsFirst s.cfg i _ rfl⟩
  have hstart : (s.accept (workOf s.cfg i)).AccessesAmong allowed := fun tix w hw => by cases hw; exact hwork
  have hd0 : ∀ x ∈ s.env.devices, ChangedOnlyAt allowed d x := fun x hx =>
    Option.some.inj (hd.symm.trans hx) ▸ (SameContents.refl d).changedOnlyAt allowed
  refine (exec_induct (P := fun u => u.cfg = s.cfg ∧ Synchronised u ∧ u.AccessesAmong allowed ∧
    ∀ x ∈ u.env.devices, ChangedOnlyAt allowed d x) h ⟨rfl, haccept, hstart, hd0⟩ ?_).2.2.2 d' hd'
  intro u ⟨hcfg, hsync, hlines, hall⟩
  have ho' : u.cfg.singleOwner = true := hcfg ▸ ho
  have hne' : u.cfg.muxAddr ≠ u.cfg.dpllAddr := hcfg ▸ hne
  refine ⟨u.execLine_frame.1.trans hcfg, hsync.execLine ho' hne', hlines.execLine, fun x hx => ?_⟩
  obtain ⟨y, hy, hyx⟩ := hlines.execLine_changedOnlyAt hsync ho' hne' x hx
  exact (hall y hy).trans hyx

/-- Settles O37: an input configure accesses the control register only, an output configure that and the group register. -/
theorem configureStoresOnlyThePinsRegisters : Obligations.ConfigureStoresOnlyThePinsRegisters := by
  intro pin p value s d _ ho hne hp hcoh hf hd
  refine ⟨fun t d' h hd' => ?input, fun t d' h hd' => ?output⟩
  case input =>
    have hwork : workOf s.cfg (.gpioCfgin pin value) = .answering .empty (configureInputLines s.cfg p) := withPin_eq hp _ _
    have hchanged := exec_changedOnlyAt ho hne hcoh hf (by rw [hwork]; exact accessesAmong_configureInput ..) h hd hd'
    exact ⟨fun a ha => hchanged.memory a (by simpa using ha), hchanged.cages⟩
  case output =>
    have hwork : workOf s.cfg (.gpioCfgout pin value) = .answering .empty (configureOutputLines s.cfg p value) :=
      withPin_eq hp _ _
    have hchanged := exec_changedOnlyAt ho hne hcoh hf (by rw [hwork]; exact accessesAmong_configureOutput ..) h hd hd'
    exact ⟨fun a hcontrol hgroup => hchanged.memory a (by simpa using ⟨hcontrol, hgroup⟩), hchanged.cages⟩

end Sys2Proof.Machine
end

section
/-! The conversions of a poll's raw integers (spec/43_sfp.md rules R210 to R213): big-endian fields, temperature
and optical power. -/

namespace Sys2Proof.Machine

/-! ### Big-endian fields -/

theorem toNat_u16be (first second : Byte) : (u16be first second).toNat = first.toNat * 256 + second.toNat := by
  rw [u16be, BitVec.toNat_append, ← Nat.shiftLeft_add_eq_or_of_lt second.isLt, Nat.shiftLeft_eq]

/-- R7: the two's complement reading of two bytes. -/
theorem toInt_u16be (first second : Byte) : (u16be first second).toInt =
    ((first.toNat * 256 + second.toNat : ℤ) - if 0x80 ≤ first.toNat then 65536 else 0) := by
  have := second.isLt
  rw [BitVec.toInt_eq_toNat_cond, toNat_u16be]
  split <;> split <;> push_cast <;> omega

/-! ### Temperature -/

/-- Settles O56: the raw value lies in the range of 16-bit two's complement. -/
theorem temperatureIsExact : Obligations.TemperatureIsExact := by
  intro first second
  have hlow : (-32768 : ℚ) ≤ (u16be first second).toInt := by
    exact_mod_cast (BitVec.le_toInt (u16be first second))
  have hhigh : ((u16be first second).toInt : ℚ) ≤ 32767 := by
    exact_mod_cast Int.le_of_lt_add_one (BitVec.toInt_lt (x := u16be first second))
  refine ⟨by rw [temperatureC, toInt_u16be], ?_, ?_⟩ <;> rw [temperatureC] <;> linarith

/-! ### Optical power -/

/-- R212, R213: the power of a raw value, where it is not 0. -/
theorem dbmOf_microWatts (raw : BitVec 16) : dbmOf (microWatts raw) = 10 * Real.logb 10 ((raw.toNat : ℝ) / 10 / 1000) := by
  simp [dbmOf, microWatts]

theorem dbmOf_microWatts_one : dbmOf (microWatts 1) = -40 := by
  have h : ((1 : BitVec 16).toNat : ℝ) / 10 / 1000 = (10 : ℝ) ^ (-4 : ℝ) := by
    rw [Real.rpow_neg (by norm_num), show (1 : BitVec 16).toNat = 1 from rfl]
    norm_num
  rw [dbmOf_microWatts, h, Real.logb_rpow (by norm_num) (by norm_num)]
  norm_num

theorem dbmOf_microWatts_tenThousand : dbmOf (microWatts 10000) = 0 := by
  have h : ((10000 : BitVec 16).toNat : ℝ) / 10 / 1000 = 1 := by
    rw [show (10000 : BitVec 16).toNat = 10000 from rfl]
    norm_num
  rw [dbmOf_microWatts, h, Real.logb_one, mul_zero]

/-- Settles O57: the power of a raw value that is not 0 is ten times the logarithm of its ten-thousandth. -/
theorem transmitPowerInDbm : Obligations.TransmitPowerInDbm := by
  refine ⟨fun raw => by rw [txPowerDbm, dbmOf_microWatts], ?_, ?_⟩
  · rw [txPowerDbm, if_neg (by decide), dbmOf_microWatts_tenThousand]
  · rw [txPowerDbm, if_neg (by decide), dbmOf_microWatts_one]

/-- R213: the floor is the power at raw 1. -/
theorem rxPowerDbm_eq (raw : BitVec 16) :
    rxPowerDbm raw = 10 * Real.logb 10 (((max raw.toNat 1 : ℕ) : ℝ) / 10 / 1000) := by
  unfold rxPowerDbm
  split
  case isTrue h =>
    rw [← dbmOf_microWatts_one, dbmOf_microWatts, h]
    rfl
  case isFalse h =>
    have : raw.toNat ≠ 0 := fun h0 => h (BitVec.eq_of_toNat_eq h0)
    rw [dbmOf_microWatts, max_eq_left (by omega)]

/-- Settles O58: raw 0 has the power of raw 1, and from there the logarithm rises. -/
theorem receivePowerIsMonotone : Obligations.ReceivePowerIsMonotone := by
  refine ⟨fun raw => by rw [rxPowerDbm, dbmOf_microWatts], ?one, ?tenThousand, fun a b hab => ?monotone⟩
  case one => rw [rxPowerDbm, if_neg (by decide), dbmOf_microWatts_one]
  case tenThousand => rw [rxPowerDbm, if_neg (by decide), dbmOf_microWatts_tenThousand]
  case monotone =>
    rw [rxPowerDbm_eq, rxPowerDbm_eq]
    have hle : ((max a.toNat 1 : ℕ) : ℝ) ≤ ((max b.toNat 1 : ℕ) : ℝ) := by exact_mod_cast max_le_max_right 1 hab
    have hlog := Real.logb_le_logb_of_le (b := 10) (by norm_num) (x := ((max a.toNat 1 : ℕ) : ℝ) / 10 / 1000) (by positivity)
      (by gcongr : _ ≤ ((max b.toNat 1 : ℕ) : ℝ) / 10 / 1000)
    linarith

end Sys2Proof.Machine
end

section
/-! The payload of a poll (spec/43_sfp.md rules R209, R210, R214 and R216): trimming, the places of the fields in the regions read
and in the 60 bytes, and that the host gets the partial result back. -/

namespace Sys2Proof.Machine

/-! ### Trimming -/

/-- Settles O55, by induction on the field. -/
theorem trimLenRemovesOnlyTrailingBytes : Obligations.TrimLenRemovesOnlyTrailingBytes := by
  intro trimSet f
  induction f with
  | nil => simp [trimLen]
  | cons b f ih =>
    obtain ⟨hle, htrim, hkeep⟩ := ih
    by_cases h : trimLen trimSet f = 0 ∧ b ∈ trimSet
    · obtain ⟨hzero, hb⟩ := h
      have hall : trimLen trimSet (b :: f) = 0 := if_pos ⟨hzero, hb⟩
      rw [hall]
      refine ⟨Nat.zero_le _, fun j _ hj => ?_, fun h0 => absurd h0 (by omega)⟩
      cases j with
      | zero => exact hb
      | succ j => exact htrim j (by omega) (by simpa using hj)
    · have hmore : trimLen trimSet (b :: f) = trimLen trimSet f + 1 := if_neg h
      rw [hmore]
      refine ⟨by simpa using hle, fun j hj hlen => ?_, fun _ => ?_⟩
      · cases j with
        | zero => omega
        | succ j => exact htrim j (by omega) (by simpa using hlen)
      · cases hn : trimLen trimSet f with
        | zero => exact fun hb => h ⟨hn, hb⟩
        | succ n =>
          have hlast := hkeep (by omega)
          rwa [hn] at hlast

/-! ### Parts of a byte sequence -/

theorem byteAt_append_right {l l' : List Byte} {i : Nat} (h : l.length ≤ i) : byteAt (l ++ l') i = byteAt l' (i - l.length) :=
  List.getD_append_right _ _ _ _ h

theorem byteAt_slice {l : List Byte} {i j n : Nat} (h : j < n) : byteAt (slice l i n) j = byteAt l (i + j) := by
  simp [byteAt, slice, h]

theorem slice_slice {l : List Byte} {i j m n : Nat} (h : j + m ≤ n) : slice (slice l i n) j m = slice l (i + j) m := by
  rw [slice, slice, slice, List.drop_take, List.take_take, List.drop_drop, min_eq_left (by omega)]

/-- The part `l` of a sequence, which begins behind `before`. -/
theorem slice_middle {before l after : List Byte} {i n : Nat} (hi : before.length = i) (hn : l.length = n) :
    slice (before ++ (l ++ after)) i n = l := by
  rw [slice, List.drop_left' hi, List.take_left' hn]

/-! ### The vendor fields of the payload -/

theorem length_textField (trimSet text : List Byte) : (textField trimSet text).length = text.length + 1 := by
  simp [textField]

/-- R214: a text and its trimmed length stand where its field begins. -/
theorem textField_at {trimSet before text after : List Byte} {i : Nat} (hi : before.length = i) (ht : text.length = 16) :
    slice (before ++ (textField trimSet text ++ after)) i 16 = text ∧
      (byteAt (before ++ (textField trimSet text ++ after)) (i + 16)).toNat = trimLen trimSet text := by
  have hle : trimLen trimSet text ≤ 16 := ht ▸ (trimLenRemovesOnlyTrailingBytes trimSet text).1
  rw [textField, List.append_assoc]
  refine ⟨slice_middle hi ht, ?_⟩
  rw [byteAt_append_right (by omega), byteAt_append_right (by omega), show i + 16 - before.length - text.length = 0 by omega]
  exact Nat.mod_eq_of_lt (by omega)

/-- R214: the vendor fields, from payload byte 1 on. -/
theorem vendorPayload_fields {trimSet : List Byte} {v : VendorFields} (hv : v.vendor.length = 16)
    (hp : v.part.length = 16) (hs : v.serial.length = 16) :
    let p := vendorPayload trimSet (some v)
    byteAt p 0 = v.moduleType ∧
      (slice p 1 16 = v.vendor ∧ (byteAt p 17).toNat = trimLen trimSet v.vendor) ∧
      (slice p 18 16 = v.part ∧ (byteAt p 34).toNat = trimLen trimSet v.part) ∧
      (slice p 35 16 = v.serial ∧ (byteAt p 51).toNat = trimLen trimSet v.serial) := by
  have hvendor := textField_at (trimSet := trimSet) (before := [v.moduleType])
    (after := textField trimSet v.part ++ textField trimSet v.serial) rfl hv
  have hpart := textField_at (trimSet := trimSet) (before := v.moduleType :: textField trimSet v.vendor)
    (after := textField trimSet v.serial) (i := 18) (by simp [length_textField, hv]) hp
  have hserial := textField_at (trimSet := trimSet)
    (before := v.moduleType :: (textField trimSet v.vendor ++ textField trimSet v.part)) (after := []) (i := 35)
    (by simp [length_textField, hv, hp]) hs
  simp only [List.cons_append, List.nil_append, List.append_nil, List.append_assoc] at hvendor hpart hserial
  simp only [vendorPayload, List.append_assoc]
  exact ⟨rfl, hvendor, hpart, hserial⟩

/-! ### The regions of the payload -/

/-- R209: the three texts of the vendor fields have 16 bytes each. -/
def PollResult.FullTexts (r : PollResult) : Prop :=
  ∀ v ∈ r.vendor, v.vendor.length = 16 ∧ v.part.length = 16 ∧ v.serial.length = 16

theorem length_diagPayload (d : Option DiagFields) : (diagPayload d).length = 6 := by cases d <;> rfl

theorem length_statusPayload (st : Option Byte) : (statusPayload st).length = 1 := by cases st <;> rfl

/-- A flag that says whether a field is there selects exactly the field. -/
theorem whenFlag_eq {α : Type} {flags : Byte} {bit : Nat} {field : α} {o : Option α} (hbit : flags.getLsbD bit = o.isSome)
    (hfield : ∀ x ∈ o, field = x) : whenFlag flags bit field = o := by
  cases o with
  | none => simp [whenFlag, hbit]
  | some x => simp [whenFlag, hbit, hfield x rfl]

namespace PollResult
variable {r : PollResult} (trimSet : List Byte)

theorem FullTexts.length_vendorPayload (h : r.FullTexts) : (vendorPayload trimSet r.vendor).length = 52 := by
  cases hr : r.vendor with
  | none => rfl
  | some v =>
    obtain ⟨hv, hp, hs⟩ := h v hr
    simp [vendorPayload, length_textField, hv, hp, hs]

theorem FullTexts.length_payload (h : r.FullTexts) : (r.payload trimSet).length = 60 := by
  simp [payload, h.length_vendorPayload, length_diagPayload, length_statusPayload]

theorem FullTexts.slice_vendor (h : r.FullTexts) : slice (r.payload trimSet) 1 52 = vendorPayload trimSet r.vendor := by
  rw [payload, List.append_assoc]
  exact slice_middle (before := [r.flags]) rfl (h.length_vendorPayload trimSet)

theorem FullTexts.slice_diag (h : r.FullTexts) : slice (r.payload trimSet) 53 6 = diagPayload r.diag := by
  rw [payload, List.append_assoc]
  exact slice_middle (before := r.flags :: vendorPayload trimSet r.vendor) (by simp [h.length_vendorPayload])
    (length_diagPayload _)

theorem FullTexts.byteAt_status (h : r.FullTexts) : byteAt (r.payload trimSet) 59 = byteAt (statusPayload r.status) 0 := by
  have hbefore : (r.flags :: (vendorPayload trimSet r.vendor ++ diagPayload r.diag)).length = 59 := by
    simp [h.length_vendorPayload, length_diagPayload]
  rw [payload, ← List.cons_append, byteAt_append_right hbefore.le, hbefore]

/-- R214: the vendor fields in the whole payload. -/
theorem FullTexts.vendor_fields (h : r.FullTexts) {v : VendorFields} (hr : v ∈ r.vendor) :
    let b := r.payload trimSet
    byteAt b 1 = v.moduleType ∧
      (slice b 2 16 = v.vendor ∧ (byteAt b 18).toNat = trimLen trimSet v.vendor) ∧
      (slice b 19 16 = v.part ∧ (byteAt b 35).toNat = trimLen trimSet v.part) ∧
      (slice b 36 16 = v.serial ∧ (byteAt b 52).toNat = trimLen trimSet v.serial) := by
  obtain ⟨hv, hp, hs⟩ := h v hr
  have hfields := vendorPayload_fields (trimSet := trimSet) hv hp hs
  rw [← Option.mem_def.1 hr, ← h.slice_vendor trimSet] at hfields
  simpa [byteAt_slice, slice_slice] using hfields

/-- R214: the integers in the whole payload. -/
theorem FullTexts.diag_fields (h : r.FullTexts) {d : DiagFields} (hr : d ∈ r.diag) :
    let b := r.payload trimSet
    u16le (byteAt b 53) (byteAt b 54) = d.tempRaw ∧ u16le (byteAt b 55) (byteAt b 56) = d.txRaw ∧
      u16le (byteAt b 57) (byteAt b 58) = d.rxRaw := by
  have hslice := h.slice_diag trimSet
  rw [Option.mem_def.1 hr] at hslice
  have hbyte : ∀ j, j < 6 → byteAt (r.payload trimSet) (53 + j) = byteAt (diagPayload (some d)) j := fun j hj => by
    rw [← hslice, byteAt_slice hj]
  refine ⟨?_, ?_, ?_⟩
  · rw [hbyte 0 (by omega), hbyte 1 (by omega)]
    exact u16le_lower_upper _
  · rw [hbyte 2 (by omega), hbyte 3 (by omega)]
    exact u16le_lower_upper _
  · rw [hbyte 4 (by omega), hbyte 5 (by omega)]
    exact u16le_lower_upper _

/-! ### The flags -/

theorem flags_bits (r : PollResult) :
    r.flags.getLsbD 0 = r.vendor.isSome ∧ r.flags.getLsbD 1 = r.diag.isSome ∧ r.flags.getLsbD 2 = r.status.isSome := by
  unfold flags
  generalize r.vendor.isSome = v, r.diag.isSome = d, r.status.isSome = st
  revert v d st
  decide

theorem flags_eq (r : PollResult) :
    r.flags = (if r.vendor.isSome then 1 else 0) + (if r.diag.isSome then 2 else 0) + (if r.status.isSome then 4 else 0) := by
  unfold flags
  generalize r.vendor.isSome = v, r.diag.isSome = d, r.status.isSome = st
  revert v d st
  decide

/-- R214: no status byte without the integers, and no integers without the vendor fields. -/
theorem flags_mem (hstatus : r.status.isSome = true → r.diag.isSome = true)
    (hdiag : r.diag.isSome = true → r.vendor.isSome = true) : r.flags ∈ ([0x00, 0x01, 0x03, 0x07] : List Byte) := by
  rw [flags_eq]
  revert hstatus hdiag
  generalize r.vendor.isSome = v, r.diag.isSome = d, r.status.isSome = st
  revert v d st
  decide

/-- R214, R216: the host gets the partial result back. -/
theorem FullTexts.ofPayload_payload (h : r.FullTexts) : ofPayload (r.payload trimSet) = r := by
  obtain ⟨hbit0, hbit1, hbit2⟩ := r.flags_bits
  have hvendor := whenFlag_eq (field := VendorFields.mk (byteAt (r.payload trimSet) 1) (slice (r.payload trimSet) 2 16)
    (slice (r.payload trimSet) 19 16) (slice (r.payload trimSet) 36 16)) hbit0 fun v hr => by
      obtain ⟨htype, ⟨hv, _⟩, ⟨hp, _⟩, hs, _⟩ := h.vendor_fields trimSet hr
      rw [htype, hv, hp, hs]
  have hdiag := whenFlag_eq (field := DiagFields.mk (u16le (byteAt (r.payload trimSet) 53) (byteAt (r.payload trimSet) 54))
    (u16le (byteAt (r.payload trimSet) 55) (byteAt (r.payload trimSet) 56))
    (u16le (byteAt (r.payload trimSet) 57) (byteAt (r.payload trimSet) 58))) hbit1 fun d hr => by
      obtain ⟨htemp, htx, hrx⟩ := h.diag_fields trimSet hr
      rw [htemp, htx, hrx]
  have hstatus := whenFlag_eq (field := byteAt (r.payload trimSet) 59) hbit2 fun st hr => by
    rw [h.byteAt_status, Option.mem_def.1 hr]
    rfl
  exact congr (congr (congrArg PollResult.mk hvendor) hdiag) hstatus

end PollResult

/-! ### The regions read -/

theorem length_slice {l : List Byte} {i n : Nat} (h : i + n ≤ l.length) : (slice l i n).length = n := by
  simp [slice]
  omega

/-- Settles O54: the payload is the flags and three regions, and each flag says whether its region holds a field. -/
theorem pollPayloadLayout : Obligations.PollPayloadLayout := by
  refine ⟨fun info hinfo => ?vendorInfo, fun diag _ => ?diagnostics, fun trimSet r htexts hstatus hdiag => ?payload⟩
  case vendorInfo =>
    exact ⟨rfl, length_slice (by omega), length_slice (by omega), length_slice (by omega),
      fun j hj => ⟨byteAt_slice hj, byteAt_slice hj, byteAt_slice hj⟩⟩
  case diagnostics => exact ⟨toInt_u16be _ _, toNat_u16be _ _, toNat_u16be _ _⟩
  case payload =>
    have h : r.FullTexts := htexts
    refine ⟨h.length_payload trimSet, h.ofPayload_payload trimSet, r.flags_eq, PollResult.flags_mem hstatus hdiag,
      fun v hr => ?_, fun d hr => h.diag_fields trimSet hr, fun st hr => ?_, fun hr => ?_, fun hr => ?_, fun hr => ?_⟩
    · obtain ⟨htype, ⟨hv, hvlen⟩, ⟨hp, hplen⟩, hs, hslen⟩ := h.vendor_fields trimSet hr
      exact ⟨htype, hv, hvlen, hp, hplen, hs, hslen⟩
    · rw [h.byteAt_status, Option.mem_def.1 hr]
      rfl
    · rw [h.slice_vendor, hr]
      rfl
    · rw [h.slice_diag, hr]
      rfl
    · rw [h.byteAt_status, hr]
      rfl

end Sys2Proof.Machine
end

section
/-! A poll (spec/43_sfp.md rules R200 to R208): the reads whose failure is tolerated, how a poll gets to its close, and how it
ends there. -/

namespace Sys2Proof.Machine

/-! ### The reads of a poll -/

/-- R203 to R206: whatever the caches hold, the line issues the read of `e`; success leaves the caches as they are, and failure
leaves only the close. -/
structure Line.ToleratesRead (c : Params) (line : Line) (e : Exchange) : Prop where
  request : ∀ mux page bytes, line.request c mux page bytes = some e.1
  commit : ∀ s, line.commit s = s
  failed : ∀ w tix, line.failed w tix = w.toClose

/-- Reads that all succeed. -/
theorem runs_tolerated {c : Params} {lines : List Line} {x : List Exchange} {evs : List BusEvent}
    (hl : List.Forall₂ (Line.ToleratesRead c) lines x) (hx : Exact x) {s : State} {bytes : List Byte} (hc : s.cfg = c)
    (hscript : s.env.script = repliesOf x ++ evs) : Runs s lines bytes x evs s.mux s.page := by
  induction hl generalizing s bytes with
  | nil =>
    obtain rfl : s.env.script = evs := hscript
    exact runs_nil s bytes
  | @cons line e lines x hline _ ih =>
    have hfirst : Runs s [line] bytes [e] (repliesOf x ++ evs) s.mux s.page := by
      have h := runs_transact (bytes := bytes) (answer := e.2) (hc ▸ hline.request s.mux s.page bytes) hscript
        (hx e List.mem_cons_self)
      rwa [hline.commit] at h
    refine runs_append hfirst fun t ht => ?_
    have h := ih (fun e he => hx e (List.mem_cons_of_mem _ he)) (bytes := bytes ++ answersOf [e]) (ht.cfg.trans hc) ht.script
    rwa [ht.mux, ht.page] at h

/-- R203, R205, R206: the reads of a poll. -/
def pollReads : List Line := readVendorInfo ++ readDiagnostics ++ [.readStatus]

/-- The reads of a poll with their answers. -/
def pollExchanges (c : Params) (a0 a1 a2 b0 b1 b2 b3 : List Byte) (status : Byte) : List Exchange :=
  infoReads c a0 a1 a2 ++ diagReads c b0 b1 b2 b3 ++ [(.rb c.sfpDiagAddr 110, [status])]

theorem pollLines_eq (i : Fin 4) : pollLines i = .selectSlot (slotChannel i) :: (pollReads ++ [.closeMux]) := rfl

theorem toleratesRead_pollReads (c : Params) (a0 a1 a2 b0 b1 b2 b3 : List Byte) (status : Byte) :
    List.Forall₂ (Line.ToleratesRead c) pollReads (pollExchanges c a0 a1 a2 b0 b1 b2 b3 status) := by
  have info : ∀ reg answer, Line.ToleratesRead c (.readInfo reg) (.rk c.sfpInfoAddr reg 32, answer) :=
    fun _ _ => ⟨fun _ _ _ => rfl, fun _ => rfl, fun _ _ => rfl⟩
  have diag : ∀ reg answer, Line.ToleratesRead c (.readDiag reg) (.rk c.sfpDiagAddr reg 32, answer) :=
    fun _ _ => ⟨fun _ _ _ => rfl, fun _ => rfl, fun _ _ => rfl⟩
  have stat : Line.ToleratesRead c .readStatus (.rb c.sfpDiagAddr 110, [status]) :=
    ⟨fun _ _ _ => rfl, fun _ => rfl, fun _ _ => rfl⟩
  exact .cons (info _ _) (.cons (info _ _) (.cons (info _ _) (.cons (diag _ _) (.cons (diag _ _) (.cons (diag _ _)
    (.cons (diag _ _) (.cons stat .nil)))))))

/-- The reads before one of a poll's reads, its own line, and the lines after it. -/
theorem pollReads_split {c : Params} {done left : List Exchange} {e : Exchange}
    (h : List.Forall₂ (Line.ToleratesRead c) pollReads (done ++ e :: left)) :
    ∃ before line after, pollReads = before ++ line :: after ∧ List.Forall₂ (Line.ToleratesRead c) before done ∧
      line.ToleratesRead c e := by
  have hbefore := List.forall₂_take_append _ _ _ h
  obtain ⟨line, after, hline, _, hdrop⟩ := List.forall₂_cons_right_iff.1 (List.forall₂_drop_append _ _ _ h)
  exact ⟨_, line, after, by rw [← hdrop, List.take_append_drop], hbefore, hline⟩

/-- R203 to R206: of the lines after a failed read, the close is left. -/
theorem todo_toClose {before after : List Line} {line : Line} (h : pollReads = before ++ line :: after) (bytes : List Byte)
    (ending : Ending) : Work.toClose ⟨after ++ [.closeMux], bytes, ending⟩ = ⟨[.closeMux], bytes, ending⟩ := by
  have hreads : ∀ l ∈ pollReads, l ≠ .closeMux := by decide
  have hafter : after.filter (· = .closeMux) = [] := by
    simp only [List.filter_eq_nil_iff, decide_eq_true_eq]
    exact fun l hl => hreads l (by simp [h, hl])
  simp [Work.toClose, hafter]

/-! ### Up to the close -/

theorem okCount_recordsOf (x : List Exchange) : okCount (recordsOf x) = x.length := by
  have hall : AllSucceeded (recordsOf x) := fun r hr => by
    obtain ⟨e, _, rfl⟩ := List.mem_map.1 hr
    exact ⟨e.2, rfl⟩
  rw [hall.okCount_eq, recordsOf_length]

/-- A command accepted in `s` has got to `t` with the transactions `log` and without a response, and its latches hold `w`. -/
structure Reached (s t : State) (mux page : Option Byte) (log : List BusRecord) (w : Work) (evs : List BusEvent) : Prop where
  cfg : t.cfg = s.cfg
  cmdPort : t.cmdPort = s.cmdPort
  resetIn : t.resetIn = s.resetIn
  mux : t.mux = mux
  page : t.page = page
  seq : t.seq = .busy (BitVec.ofNat 8 (okCount log)) (some w)
  respPort : t.respPort = s.respPort
  busLog : t.busLog = s.busLog ++ log
  script : t.env.script = evs

/-- A poll of `slot` accepted in `s` gets to such a state. -/
def PollReaches (slot : Byte) (s : State) (mux page : Option Byte) (log : List BusRecord) (w : Work) (evs : List BusEvent) :
    Prop :=
  ∃ n, Reached s ((s.accept (workOf s.cfg (.sfpPoll slot))).execLines n) mux page log w evs

/-- R23: a poll as it is accepted. -/
theorem pollReaches_accepted (slot : Byte) (s : State) :
    PollReaches slot s s.mux s.page [] (workOf s.cfg (.sfpPoll slot)) s.env.script :=
  ⟨0, rfl, rfl, rfl, rfl, rfl, rfl, rfl, (List.append_nil _).symm, rfl⟩

/-- R202 to R206: a poll of `slot`, the one with index `i`, accepted in `s` gets to where only its close is left: it has selected
the slot and read `bytes`. -/
def PollReachesClose (slot : Byte) (i : Fin 4) (s : State) (log : List BusRecord) (bytes : List Byte) (evs : List BusEvent) :
    Prop :=
  PollReaches slot s (some (slotChannel i)) (if s.mux = some (slotChannel i) then s.page else none) log
    ⟨[.closeMux], bytes, .respond .pollResult⟩ evs

/-- What a line does from where a poll has got to. -/
theorem PollReaches.execLine {slot : Byte} {s : State} {mux page mux' page' : Option Byte} {log log' : List BusRecord}
    {w w' : Work} {evs evs' : List BusEvent} (h : PollReaches slot s mux page log w evs)
    (hline : ∀ t, Reached s t mux page log w evs → Reached s t.execLine mux' page' log' w' evs') :
    PollReaches slot s mux' page' log' w' evs' := by
  obtain ⟨n, hn⟩ := h
  exact ⟨n + 1, by rw [State.execLines_add]; exact hline _ hn⟩

/-- The transaction of the next line fails. -/
theorem PollReaches.line_fails {slot : Byte} {s : State} {mux page : Option Byte} {log : List BusRecord} {line : Line}
    {after : List Line} {bytes : List Byte} {ending : Ending} {taken : Nat} {evs : List BusEvent} {r : BusRequest}
    (h : PollReaches slot s mux page log ⟨line :: after, bytes, ending⟩ (.fail taken :: evs))
    (hr : line.request s.cfg mux page bytes = some r) :
    PollReaches slot s mux page (log ++ [⟨r, .fail⟩])
      (line.failed ⟨after, bytes, ending⟩ (BitVec.ofNat 8 (okCount log))) evs := by
  refine h.execLine fun t ht => ?_
  rw [State.execLine_transact ht.seq rfl (by rw [ht.cfg, ht.mux, ht.page]; exact hr), State.transact_fail ht.script]
  exact ⟨ht.cfg, ht.cmdPort, ht.resetIn, ht.mux, ht.page, by rw [okCount_concat_fail]; rfl, ht.respPort,
    by simp [ht.busLog], rfl⟩

section
variable {slot : Byte} {i : Fin 4} {s : State} {evs : List BusEvent}

/-- R202: the lines of a poll. -/
theorem workOf_sfpPoll {c : Params} (hs : c.hasSfp = true) (hi : slotOf slot = some i) :
    workOf c (.sfpPoll slot) = .answering .pollResult (.selectSlot (slotChannel i) :: (pollReads ++ [.closeMux])) :=
  (sfpPollWork_eq hs hi).trans (by rw [pollLines_eq])

/-- R202: the select and some reads, all successful. -/
theorem pollReaches_of_replies (hs : s.cfg.hasSfp = true) (hi : slotOf slot = some i) {before after : List Line}
    (hlines : pollReads = before ++ after) {x : List Exchange} (hl : List.Forall₂ (Line.ToleratesRead s.cfg) before x)
    (hx : Exact x) (hscript : s.env.script = repliesOf (selectTraffic s.cfg s.mux (slotChannel i) ++ x) ++ evs) :
    PollReaches slot s (some (slotChannel i)) (if s.mux = some (slotChannel i) then s.page else none)
      (recordsOf (selectTraffic s.cfg s.mux (slotChannel i) ++ x))
      ⟨after ++ [.closeMux], answersOf x, .respond .pollResult⟩ evs := by
  rw [repliesOf_append, List.append_assoc] at hscript
  have hruns : Runs (s.accept (workOf s.cfg (.sfpPoll slot))) ([.selectSlot (slotChannel i)] ++ before) []
      (selectTraffic s.cfg s.mux (slotChannel i) ++ x) evs (some (slotChannel i))
      (if s.mux = some (slotChannel i) then s.page else none) := by
    refine runs_append (runs_select (s := s.accept _) (.inr (.inl rfl)) hscript) fun t ht => ?_
    have h := runs_tolerated hl hx (bytes := [] ++ answersOf (selectTraffic s.cfg s.mux (slotChannel i))) ht.cfg ht.script
    rwa [ht.mux, ht.page] at h
  obtain ⟨n, t, hn, hst, ht⟩ := hruns 0 (after ++ [.closeMux]) (.respond .pollResult)
    (by rw [workOf_sfpPoll hs hi, hlines]; simp [Work.answering])
  refine ⟨n, hn ▸ ⟨hst.cfg, hst.cmdPort, hst.resetIn, hst.mux, hst.page, ?_, hst.respPort, hst.busLog, hst.script⟩⟩
  rw [ht, okCount_recordsOf]
  simp

/-- R203, R205, R206: the read `e` fails. -/
theorem pollReachesClose_of_failed_read (hs : s.cfg.hasSfp = true) (hi : slotOf slot = some i) {done left : List Exchange}
    {e : Exchange} (hl : List.Forall₂ (Line.ToleratesRead s.cfg) pollReads (done ++ e :: left)) (hx : Exact done) {lost : Nat}
    (hscript : s.env.script = repliesOf (selectTraffic s.cfg s.mux (slotChannel i) ++ done) ++ .fail lost :: evs) :
    PollReachesClose slot i s (recordsOf (selectTraffic s.cfg s.mux (slotChannel i) ++ done) ++ [⟨e.1, .fail⟩])
      (answersOf done) evs := by
  obtain ⟨before, line, after, hsplit, hbefore, hline⟩ := pollReads_split hl
  have hfail := (pollReaches_of_replies hs hi hsplit hbefore hx hscript).line_fails (hline.request ..)
  rwa [hline.failed, List.append_eq, todo_toClose hsplit] at hfail

/-- R208: the select fails. -/
theorem pollReaches_close_of_failed_select (hs : s.cfg.hasSfp = true) (hi : slotOf slot = some i)
    (hmiss : s.mux ≠ some (slotChannel i)) {taken : Nat} (hscript : s.env.script = .fail taken :: evs) :
    PollReaches slot s s.mux s.page [⟨.wb s.cfg.muxAddr s.cfg.muxReg (slotChannel i), .fail⟩]
      ⟨[.closeMux], [], .raise (.busError 0)⟩ evs := by
  have haccepted := pollReaches_accepted slot s
  rw [workOf_sfpPoll hs hi, hscript] at haccepted
  exact haccepted.line_fails (if_neg hmiss)

end

/-! ### The close and the end of the command -/

section
variable {slot : Byte} {s : State} {mux page : Option Byte} {log : List BusRecord} {bytes : List Byte} {ending : Ending}
  {rest : List BusEvent}

/-- R208: the cache holds the closed multiplexer, and the close issues nothing. -/
theorem PollReaches.close_hit (h : PollReaches slot s mux page log ⟨[.closeMux], bytes, ending⟩ rest)
    (hclosed : mux = some 0x00) : PollReaches slot s mux page log ⟨[], bytes, ending⟩ rest := by
  refine h.execLine fun t ht => ?_
  rw [State.execLine_pass ht.seq rfl (if_pos (ht.mux.trans hclosed))]
  exact ⟨ht.cfg, ht.cmdPort, ht.resetIn, ht.mux, ht.page, rfl, ht.respPort, ht.busLog, ht.script⟩

/-- R207: the closing write succeeds. -/
theorem PollReaches.close_succeeds (h : PollReaches slot s mux page log ⟨[.closeMux], bytes, ending⟩ (.reply [] :: rest))
    (hopen : mux ≠ some 0x00) :
    PollReaches slot s (some 0x00) none (log ++ [⟨closeWrite s.cfg, .ok []⟩]) ⟨[], bytes, ending⟩ rest := by
  refine h.execLine fun t ht => ?_
  rw [State.execLine_transact ht.seq rfl (if_neg (ht.mux ▸ hopen)), State.transact_reply ht.script rfl]
  refine ⟨ht.cfg, ht.cmdPort, ht.resetIn, rfl, rfl, ?_, ht.respPort, ?_, rfl⟩
  · rw [okCount_concat_ok, BitVec.ofNat_add, Line.commit_seq, State.goOn_seq, List.append_nil]
    rfl
  · simp [ht.busLog, ht.cfg, closeWrite, noChannel]

/-- R207, R208: the closing write fails. -/
theorem PollReaches.close_fails {taken : Nat}
    (h : PollReaches slot s mux page log ⟨[.closeMux], bytes, ending⟩ (.fail taken :: rest)) (hopen : mux ≠ some 0x00) :
    PollReaches slot s mux page (log ++ [⟨closeWrite s.cfg, .fail⟩])
      (Work.closeFailed ⟨[], bytes, ending⟩ (BitVec.ofNat 8 (okCount log))) rest :=
  h.line_fails (if_neg hopen)

/-- A command accepted in `s` has ended in `t` with the transactions `log` and the response `frame`. -/
structure Ended (s t : State) (mux page : Option Byte) (log : List BusRecord) (frame : List Byte) (rest : List BusEvent) :
    Prop where
  cfg : t.cfg = s.cfg
  cmdPort : t.cmdPort = s.cmdPort
  resetIn : t.resetIn = s.resetIn
  mux : t.mux = mux
  page : t.page = page
  seq : t.seq = .idle
  respPort : t.respPort = s.respPort ++ [frame]
  busLog : t.busLog = s.busLog ++ log
  script : t.env.script = rest

/-- R8: with no line left the command responds as its ending says. -/
theorem PollReaches.ends (h : PollReaches slot s mux page log ⟨[], bytes, ending⟩ rest) (hw : s.cfg.WellFormed) :
    ∃ t, exec (.sfpPoll slot) s = .next t ∧
      Ended s t mux page log (Work.response s.cfg (BitVec.ofNat 8 (okCount log)) ⟨[], bytes, ending⟩) rest := by
  obtain ⟨n, ht⟩ := h
  have hend := State.execLine_end ht.seq rfl
  refine ⟨_, (exec_eq_runCommand _ s).trans (runCommand_eq (n := n + 1) hw ((State.execLines_add n 1 _).trans hend)
    (State.linesLeft_idle (State.endCommand_seq ..))), ?_⟩
  exact ⟨by simpa using ht.cfg, by simpa using ht.cmdPort, by simpa using ht.resetIn, by simpa using ht.mux,
    by simpa using ht.page, by simp, by rw [State.endCommand_respPort_eq, ht.respPort, ht.cfg], by simpa using ht.busLog,
    by simpa using ht.script⟩

end

theorem slotChannel_ne_closed (i : Fin 4) : some (slotChannel i) ≠ some (0x00 : Byte) := by
  revert i
  decide

section
variable {slot : Byte} {i : Fin 4} {s : State} {log : List BusRecord} {bytes : List Byte} {rest : List BusEvent}

/-- R202, R207: a poll whose closing write succeeds answers what was read before. -/
theorem PollReachesClose.polled (h : PollReachesClose slot i s log bytes (.reply [] :: rest)) (hw : s.cfg.WellFormed) :
    ∃ t, exec (.sfpPoll slot) s = .next t ∧
      Polled s t (log ++ [⟨closeWrite s.cfg, .ok []⟩]) rest ((pollResultOf bytes).payload s.cfg.trimSet) := by
  obtain ⟨t, ht, hend⟩ := (PollReaches.close_succeeds h (slotChannel_ne_closed i)).ends hw
  exact ⟨t, ht, hend.cfg, hend.cmdPort, hend.resetIn, hend.mux, hend.page, hend.seq, hend.respPort, hend.busLog, hend.script⟩

/-- R207: a poll whose closing write fails loses what was read before. -/
theorem PollReachesClose.closeFailed {taken : Nat} (h : PollReachesClose slot i s log bytes (.fail taken :: rest))
    (hw : s.cfg.WellFormed) :
    ∃ t, exec (.sfpPoll slot) s = .next t ∧ CloseFailed s t (slotChannel i) log rest := by
  obtain ⟨t, ht, hend⟩ := (PollReaches.close_fails h (slotChannel_ne_closed i)).ends hw
  exact ⟨t, ht, hend.cfg, hend.cmdPort, hend.resetIn, hend.mux, hend.page, hend.seq, hend.respPort,
    by rw [hend.busLog, List.append_assoc], hend.script⟩

end

/-! ### The slot select -/

/-- Settles O52: the failed select leaves the close only, which uses the unchanged cache, and an ending that the close keeps. -/
theorem failedSlotSelectReleasesTheMux : Obligations.FailedSlotSelectReleasesTheMux := by
  intro slot i taken s rest hw hs hi hmiss
  refine ⟨fun hclosed hscript => ?hit, fun hopen hscript => ?released, fun taken' hopen hscript => ?notReleased⟩
  all_goals have h := pollReaches_close_of_failed_select hs hi hmiss hscript
  case hit =>
    obtain ⟨t, ht, hend⟩ := (h.close_hit hclosed).ends hw
    exact ⟨t, ht, hend.cfg, hend.cmdPort, hend.resetIn, hend.mux, hend.page, hend.seq, hend.respPort, by simpa using hend.busLog,
      hend.script⟩
  case released =>
    obtain ⟨t, ht, hend⟩ := (h.close_succeeds hopen).ends hw
    exact ⟨t, ht, hend.mux, hend.page, hend.seq, hend.respPort, hend.busLog⟩
  case notReleased =>
    obtain ⟨t, ht, hend⟩ := (h.close_fails hopen).ends hw
    exact ⟨t, ht, hend.mux, hend.page, hend.seq, hend.respPort, hend.busLog⟩

/-! ### The reads that can fail -/

theorem Exact.take {x : List Exchange} (h : Exact x) (k : Nat) : Exact (x.take k) := fun e he => h e (List.mem_of_mem_take he)

theorem Exact.concat {x y : List Exchange} (hx : Exact x) (hy : Exact y) : Exact (x ++ y) :=
  fun e he => (List.mem_append.1 he).elim (hx e) (hy e)

section
variable {slot : Byte} {i : Fin 4} {s : State} {a0 a1 a2 b0 b1 b2 b3 : List Byte} {lost : Nat} {evs : List BusEvent}

/-- R203: a vendor-info read fails. -/
theorem pollReachesClose_of_failed_info (hs : s.cfg.hasSfp = true) (hi : slotOf slot = some i)
    (hx : Exact (infoReads s.cfg a0 a1 a2)) (k : Fin 3)
    (hscript : s.env.script =
      repliesOf (selectTraffic s.cfg s.mux (slotChannel i) ++ (infoReads s.cfg a0 a1 a2).take k) ++ .fail lost :: evs) :
    PollReachesClose slot i s
      (recordsOf (selectTraffic s.cfg s.mux (slotChannel i) ++ (infoReads s.cfg a0 a1 a2).take k) ++
        [⟨.rk s.cfg.sfpInfoAddr (BitVec.ofNat 8 (32 * k)) 32, .fail⟩])
      (answersOf ((infoReads s.cfg a0 a1 a2).take k)) evs := by
  obtain ⟨answer, left, hsplit⟩ : ∃ answer left, pollExchanges s.cfg a0 a1 a2 [] [] [] [] 0 =
      (infoReads s.cfg a0 a1 a2).take k ++ (.rk s.cfg.sfpInfoAddr (BitVec.ofNat 8 (32 * k)) 32, answer) :: left := by
    fin_cases k <;> exact ⟨_, _, rfl⟩
  exact pollReachesClose_of_failed_read hs hi (hsplit ▸ toleratesRead_pollReads ..) (hx.take k) hscript

/-- R205: a diagnostics read fails. -/
theorem pollReachesClose_of_failed_diag (hs : s.cfg.hasSfp = true) (hi : slotOf slot = some i)
    (ha : Exact (infoReads s.cfg a0 a1 a2)) (hb : Exact (diagReads s.cfg b0 b1 b2 b3)) (k : Fin 4)
    (hscript : s.env.script = repliesOf (selectTraffic s.cfg s.mux (slotChannel i) ++ infoReads s.cfg a0 a1 a2 ++
      (diagReads s.cfg b0 b1 b2 b3).take k) ++ .fail lost :: evs) :
    PollReachesClose slot i s
      (recordsOf (selectTraffic s.cfg s.mux (slotChannel i) ++ infoReads s.cfg a0 a1 a2 ++
        (diagReads s.cfg b0 b1 b2 b3).take k) ++ [⟨.rk s.cfg.sfpDiagAddr (BitVec.ofNat 8 (32 * k)) 32, .fail⟩])
      (answersOf (infoReads s.cfg a0 a1 a2 ++ (diagReads s.cfg b0 b1 b2 b3).take k)) evs := by
  obtain ⟨answer, left, hsplit⟩ : ∃ answer left, pollExchanges s.cfg a0 a1 a2 b0 b1 b2 b3 0 =
      (infoReads s.cfg a0 a1 a2 ++ (diagReads s.cfg b0 b1 b2 b3).take k) ++
        (.rk s.cfg.sfpDiagAddr (BitVec.ofNat 8 (32 * k)) 32, answer) :: left := by
    fin_cases k <;> exact ⟨_, _, rfl⟩
  rw [List.append_assoc (selectTraffic ..)] at hscript ⊢
  exact pollReachesClose_of_failed_read hs hi (hsplit ▸ toleratesRead_pollReads ..) (ha.concat (hb.take k)) hscript

/-- R206: the status read fails. -/
theorem pollReachesClose_of_failed_status (hs : s.cfg.hasSfp = true) (hi : slotOf slot = some i)
    (ha : Exact (infoReads s.cfg a0 a1 a2)) (hb : Exact (diagReads s.cfg b0 b1 b2 b3))
    (hscript : s.env.script = repliesOf (selectTraffic s.cfg s.mux (slotChannel i) ++ infoReads s.cfg a0 a1 a2 ++
      diagReads s.cfg b0 b1 b2 b3) ++ .fail lost :: evs) :
    PollReachesClose slot i s
      (recordsOf (selectTraffic s.cfg s.mux (slotChannel i) ++ infoReads s.cfg a0 a1 a2 ++ diagReads s.cfg b0 b1 b2 b3) ++
        [⟨.rb s.cfg.sfpDiagAddr 110, .fail⟩])
      (answersOf (infoReads s.cfg a0 a1 a2 ++ diagReads s.cfg b0 b1 b2 b3)) evs := by
  rw [List.append_assoc (selectTraffic ..)] at hscript ⊢
  exact pollReachesClose_of_failed_read hs hi (left := []) (e := (.rb s.cfg.sfpDiagAddr 110, [0]))
    (toleratesRead_pollReads s.cfg a0 a1 a2 b0 b1 b2 b3 0) (ha.concat hb) hscript

/-- R202: no read fails. -/
theorem pollReachesClose_of_reads (hs : s.cfg.hasSfp = true) (hi : slotOf slot = some i)
    (ha : Exact (infoReads s.cfg a0 a1 a2)) (hb : Exact (diagReads s.cfg b0 b1 b2 b3)) (status : Byte)
    (hscript : s.env.script = repliesOf (selectTraffic s.cfg s.mux (slotChannel i) ++ infoReads s.cfg a0 a1 a2 ++
      diagReads s.cfg b0 b1 b2 b3 ++ [(.rb s.cfg.sfpDiagAddr 110, [status])]) ++ evs) :
    PollReachesClose slot i s
      (recordsOf (selectTraffic s.cfg s.mux (slotChannel i) ++ infoReads s.cfg a0 a1 a2 ++ diagReads s.cfg b0 b1 b2 b3 ++
        [(.rb s.cfg.sfpDiagAddr 110, [status])]))
      (answersOf (pollExchanges s.cfg a0 a1 a2 b0 b1 b2 b3 status)) evs := by
  have hx : Exact (pollExchanges s.cfg a0 a1 a2 b0 b1 b2 b3 status) :=
    (ha.concat hb).concat fun e he => by rw [List.mem_singleton.1 he]; rfl
  rw [List.append_assoc (selectTraffic ..), List.append_assoc (selectTraffic ..)] at hscript ⊢
  exact pollReaches_of_replies hs hi (List.append_nil _).symm (toleratesRead_pollReads ..) hx hscript

end

/-! ### What the bytes read stand for -/

/-- The answers of some block reads of 32 bytes. -/
theorem length_answersOf_take {x : List Exchange} (hx : Exact x) (h32 : ∀ e ∈ x, readLength e.1 = 32) {k : Nat}
    (hk : k ≤ x.length) : (answersOf (x.take k)).length = 32 * k := by
  induction x generalizing k with
  | nil => simpa using hk
  | cons e x ih =>
    cases k with
    | zero => simp
    | succ k =>
      have htail := ih (fun e he => hx e (List.mem_cons_of_mem _ he)) (fun e he => h32 e (List.mem_cons_of_mem _ he))
        (Nat.le_of_succ_le_succ hk)
      have hhead := (hx e List.mem_cons_self).trans (h32 e List.mem_cons_self)
      rw [List.take_succ_cons, answersOf_cons, List.length_append, htail, hhead]
      omega

section
variable {c : Params} {a0 a1 a2 b0 b1 b2 b3 : List Byte}

theorem length_infoReads_take (h : Exact (infoReads c a0 a1 a2)) {k : Nat} (hk : k ≤ 3) :
    (answersOf ((infoReads c a0 a1 a2).take k)).length = 32 * k :=
  length_answersOf_take h (by simp [infoReads, readLength]) hk

theorem length_diagReads_take (h : Exact (diagReads c b0 b1 b2 b3)) {k : Nat} (hk : k ≤ 4) :
    (answersOf ((diagReads c b0 b1 b2 b3).take k)).length = 32 * k :=
  length_answersOf_take h (by simp [diagReads, readLength]) hk

theorem answersOf_infoReads : answersOf (infoReads c a0 a1 a2) = a0 ++ a1 ++ a2 := by simp [infoReads]

theorem answersOf_diagReads : answersOf (diagReads c b0 b1 b2 b3) = b0 ++ b1 ++ b2 ++ b3 := by simp [diagReads]

theorem length_info (h : Exact (infoReads c a0 a1 a2)) : (a0 ++ a1 ++ a2).length = 96 :=
  answersOf_infoReads (c := c) ▸ length_infoReads_take h le_rfl

theorem length_diag (h : Exact (diagReads c b0 b1 b2 b3)) : (b0 ++ b1 ++ b2 ++ b3).length = 128 :=
  answersOf_diagReads (c := c) ▸ length_diagReads_take h le_rfl

end

/-- R204: an absent module. -/
theorem pollResultOf_absent {bytes : List Byte} (h : bytes.length < 96) : pollResultOf bytes = ⟨none, none, none⟩ := by
  simp [pollResultOf, show ¬ 96 ≤ bytes.length by omega, show ¬ 224 ≤ bytes.length by omega,
    show ¬ 225 ≤ bytes.length by omega]

section
variable {info diag : List Byte}

theorem slice_info (hi : info.length = 96) (more : List Byte) : slice (info ++ more) 0 96 = info :=
  List.take_left' hi

/-- R205: the vendor fields without the diagnostics. -/
theorem pollResultOf_vendor (hi : info.length = 96) (hd : diag.length < 128) :
    pollResultOf (info ++ diag) = ⟨some (decodeVendor info), none, none⟩ := by
  simp [pollResultOf, slice_info, hi, show ¬ 224 ≤ 96 + diag.length by omega, show ¬ 225 ≤ 96 + diag.length by omega]

/-- R206: everything but the status byte. -/
theorem pollResultOf_diag (hi : info.length = 96) (hd : diag.length = 128) :
    pollResultOf (info ++ diag) = ⟨some (decodeVendor info), some (decodeDiag diag), none⟩ := by
  have hslice := slice_middle hi hd (after := [])
  rw [List.append_nil] at hslice
  simp [pollResultOf, slice_info, hslice, hi, hd]

/-- R202: a whole result. -/
theorem pollResultOf_whole (hi : info.length = 96) (hd : diag.length = 128) (status : Byte) :
    pollResultOf (info ++ (diag ++ [status])) = ⟨some (decodeVendor info), some (decodeDiag diag), some status⟩ := by
  have hstatus : byteAt (info ++ (diag ++ [status])) 224 = status := by
    simp [byteAt, hi, hd]
  simp [pollResultOf, slice_info, slice_middle, hstatus, hi, hd]

end

/-! ### Polls -/

/-- Settles O48: every read succeeds, and so does the close. -/
theorem pollCompletes : Obligations.PollCompletes := by
  intro slot i a0 a1 a2 b0 b1 b2 b3 status s rest hw hs hi ha hb x hscript
  have hreads : x = selectTraffic s.cfg s.mux (slotChannel i) ++ infoReads s.cfg a0 a1 a2 ++ diagReads s.cfg b0 b1 b2 b3 ++
      [(.rb s.cfg.sfpDiagAddr 110, [status])] ++ [(closeWrite s.cfg, [])] := (List.append_assoc _ [_] [_]).symm
  rw [hreads, repliesOf_append, List.append_assoc] at hscript
  have hbytes : answersOf (pollExchanges s.cfg a0 a1 a2 b0 b1 b2 b3 status) =
      (a0 ++ a1 ++ a2) ++ ((b0 ++ b1 ++ b2 ++ b3) ++ [status]) := by
    simp [pollExchanges, answersOf_infoReads, answersOf_diagReads]
  obtain ⟨t, ht, hpolled⟩ := (pollReachesClose_of_reads hs hi ha hb status hscript).polled hw
  rw [hbytes, pollResultOf_whole (length_info ha) (length_diag hb)] at hpolled
  exact ⟨t, ht, by rwa [hreads, recordsOf_append]⟩

/-- Settles O49: fewer than 96 bytes have been read. -/
theorem absentModuleAnswersZeros : Obligations.AbsentModuleAnswersZeros := by
  intro slot i k a0 a1 a2 taken s rest hw hs hi ha x failed hscript
  obtain ⟨t, ht, hpolled⟩ := (pollReachesClose_of_failed_info hs hi ha k hscript).polled hw
  have hshort := length_infoReads_take ha (k := k) (by omega)
  rw [pollResultOf_absent (by omega), List.append_assoc] at hpolled
  exact ⟨t, ht, hpolled⟩

/-- Settles O50: the 96 vendor-info bytes have been read, and fewer than 128 of the diagnostics. -/
theorem diagnosticsFailureKeepsVendorFields : Obligations.DiagnosticsFailureKeepsVendorFields := by
  intro slot i k a0 a1 a2 b0 b1 b2 b3 taken s rest hw hs hi ha hb x failed hscript
  obtain ⟨t, ht, hpolled⟩ := (pollReachesClose_of_failed_diag hs hi ha hb k hscript).polled hw
  have hshort := length_diagReads_take hb (k := k) (by omega)
  rw [answersOf_append, answersOf_infoReads, pollResultOf_vendor (length_info ha) (by omega), List.append_assoc] at hpolled
  exact ⟨t, ht, hpolled⟩

/-- Settles O51: everything but the status byte has been read. -/
theorem statusFailureKeepsDiagnostics : Obligations.StatusFailureKeepsDiagnostics := by
  intro slot i a0 a1 a2 b0 b1 b2 b3 taken s rest hw hs hi ha hb x hscript
  obtain ⟨t, ht, hpolled⟩ := (pollReachesClose_of_failed_status hs hi ha hb hscript).polled hw
  rw [answersOf_append, answersOf_infoReads, answersOf_diagReads, pollResultOf_diag (length_info ha) (length_diag hb),
    List.append_assoc] at hpolled
  exact ⟨t, ht, hpolled⟩

/-- Settles O53: wherever a poll comes to its close from, a failed close leaves its caches and drops its latches. -/
theorem failedCloseDropsTheResult : Obligations.FailedCloseDropsTheResult := by
  intro slot i a0 a1 a2 b0 b1 b2 b3 status taken lost s rest hw hs hi ha hb select info diag stat
  exact ⟨fun hscript => (pollReachesClose_of_reads hs hi ha hb status hscript).closeFailed hw,
    fun k hscript => (pollReachesClose_of_failed_info hs hi ha k hscript).closeFailed hw,
    fun k hscript => (pollReachesClose_of_failed_diag hs hi ha hb k hscript).closeFailed hw,
    fun hscript => (pollReachesClose_of_failed_status hs hi ha hb hscript).closeFailed hw⟩

/-! ### The slots -/

/-- Settles O47: the four slots have their channels, and any other raises at once. -/
theorem slotChannels : Obligations.SlotChannels := by
  refine ⟨by decide, fun slot s hw hs hslot => ?_⟩
  have hout : slotOf slot = none := dif_neg (by omega)
  have hwork : workOf s.cfg (.sfpPoll slot) = .raising .invalidArgument := by
    simp [workOf, sfpPollWork, whenHasSfp, withSlot, hs, hout]
  rw [exec_eq_runCommand, hwork]
  exact runCommand_eq (n := 1) hw (State.execLine_end (State.accept_seq s (.raising .invalidArgument)) rfl) rfl

end Sys2Proof.Machine
end

section
/-! Commands that raise before any bus traffic (spec/60_exceptions.md rules R233 and R234): how they end, the frames that are no
command, and the arguments out of their domain. -/

namespace Sys2Proof.Machine

/-! ### A command that raises at once -/

/-- R231: an error ends the command, whatever its latches are. -/
theorem State.raiseError_accept (w : Work) (e : CommandError) (s : State) : (s.accept w).raiseError e = s.raiseError e := by
  cases e <;> rfl

/-- R231: a command that raises at once does nothing else. -/
theorem exec_raising {i : Instr} {s : State} {e : CommandError} (hw : s.cfg.WellFormed)
    (hwork : workOf s.cfg i = .raising e) : exec i s = .next (s.raiseError e) := by
  rw [exec_eq_runCommand, hwork, ← State.raiseError_accept (.raising e)]
  exact runCommand_eq (n := 1) hw (State.execLine_end (State.accept_seq s (.raising e)) rfl) (State.linesLeft_idle (by simp))

/-- R9, R231: the core's own step of a command that raises at once. -/
theorem State.coreStep_raising {s : State} {tix : BitVec 8} {e : CommandError} (hs : s.seq = .busy tix (some (.raising e))) :
    s.coreStep = s.raiseError e := by
  have hline : s.execLine = s.raiseError e := execLine_end hs rfl
  have hrest : (s.raiseError e).linesLeft = 0 := linesLeft_idle (by simp)
  have hquiet : s.issuesNext = false := by simp [State.issuesNext, hs, Work.raising]
  have hsettle : s.settle = s.raiseError e := by
    simp [State.settle, linesLeft_busy hs, Work.raising, State.settleFor, hquiet, hline]
  rw [State.coreStep, hsettle, execLine_rest hrest, settle_of_rest hrest]

/-- R9, R231: a step of a core whose command raises at once. -/
theorem step_of_raising {s : State} {tix : BitVec 8} {e : CommandError} (hw : s.cfg.WellFormed)
    (hs : s.seq = .busy tix (some (.raising e))) (h : s.resetIn.head? ≠ some true) :
    step s = .next (({ s with resetIn := s.resetIn.tail } : State).raiseError e) := by
  rw [step_of_busy hw hs h, State.coreStep_raising (s := { s with resetIn := s.resetIn.tail }) hs]

/-! ### Frames that are no command -/

/-- R94, R96: one of the three checks refuses an illegal frame. -/
theorem decodeFrame_illegal {hasSfp : Bool} {frame : List Byte} (h : IllegalFrame hasSfp frame) :
    ∃ e, decodeFrame hasSfp frame = .error e := by
  obtain ⟨hne, hillegal⟩ := h
  obtain ⟨hreserved, hchecks⟩ := checksComeInTheFixedOrder hasSfp frame hne
  by_cases hlisted : ∃ k, Opcode.Listed hasSfp (byteAt frame 0) k
  · obtain ⟨k, hk⟩ := hlisted
    obtain ⟨hlength, hbits, _⟩ := hchecks k hk
    by_cases hlen : frame.length = k.requiredLength frame
    · exact ⟨_, hbits hlen ((hillegal k hk).resolve_left (not_not_intro hlen))⟩
    · exact ⟨_, hlength hlen⟩
  · exact ⟨_, hreserved (not_exists.1 hlisted)⟩

/-- R94: the latches of a frame that is no command. -/
theorem frameWork_of_error {c : Params} {frame : List Byte} {e : DecodeError} (h : decodeFrame c.hasSfp frame = .error e) :
    frameWork c frame = .raising .illegalCommand := by
  simp [frameWork, h]

/-- Settles O9: the first step accepts a frame whose latches raise at once, and the second one raises. -/
theorem illegalFramesGetIllegalCommand : Obligations.IllegalFramesGetIllegalCommand := by
  intro s frame later hw hs hr hc hframe
  obtain ⟨hhead, htail⟩ := not_reset_of_take hr
  obtain ⟨e, he⟩ : ∃ e, decodeFrame s.cfg.hasSfp frame = .error e := by
    rcases hframe with hillegal | rfl
    · exact decodeFrame_illegal hillegal
    · exact ⟨.reservedOpcode, rfl⟩
  have haccept := step_of_offered hw hs hc hhead
  rw [frameWork_of_error he] at haccept
  have hraise := step_of_raising (s := ({ s with cmdPort := later, resetIn := s.resetIn.tail } : State).accept
    (.raising .illegalCommand)) hw rfl (not_reset_of_take htail).1
  rw [stepN_succ haccept, stepN_succ hraise]
  simp [stepN, State.accept, State.raiseError, State.respond, Status.code, hs, ← List.drop_one]

/-! ### Arguments out of their domain -/

/-- R233: where `out` holds, the command raises `InvalidArgument` at once; else it begins a procedure that is to respond. -/
def Work.RefusedIff (out : Prop) (w : Work) : Prop :=
  (out ∧ w = .raising .invalidArgument) ∨ (¬ out ∧ ∃ reply lines, w = .answering reply lines)

section
variable {c : Params} {out : Prop} {w : Work}

theorem Work.RefusedIff.answering (reply : Reply) (lines : List Line) : (Work.answering reply lines).RefusedIff False :=
  .inr ⟨not_false, reply, lines, rfl⟩

/-- R54: the sum of a base-and-offset form. -/
theorem Work.RefusedIff.withEffective {f : Addr → Work} (base off : Addr) (h : ∀ addr, (f addr).RefusedIff False) :
    (withEffective base off f).RefusedIff (0xFFFF < base.toNat + off.toNat) := by
  by_cases hle : base.toNat + off.toNat ≤ 0xFFFF
  · rw [withEffective_eq hle]
    exact .inr ⟨by omega, ((h _).resolve_left fun h => h.1).2⟩
  · exact .inl ⟨by omega, withEffective_out (by omega) f⟩

/-- R58: the count of a block command. -/
theorem Work.RefusedIff.withBlockCount (n : Nat) (h : w.RefusedIff out) :
    (withBlockCount c n w).RefusedIff (out ∨ n = 0 ∨ c.maxBlock < n) := by
  by_cases hn : c.BlockCount n
  · obtain ⟨hpos, hmax⟩ := hn
    rw [withBlockCount_eq ⟨hpos, hmax⟩]
    exact h.imp (.imp_left .inl) (.imp_left fun hin => not_or.2 ⟨hin, by omega⟩)
  · exact .inl ⟨.inr (by omega), withBlockCount_out hn w⟩

/-- R181: a pin out of range is no error. -/
theorem Work.RefusedIff.withPin {f : Fin 16 → Work} (pin : Byte) (reply : Reply) (h : ∀ p, (f p).RefusedIff False) :
    (withPin pin reply f).RefusedIff False := by
  cases hp : pinOf pin with
  | none => exact withPin_out hp reply f ▸ .answering reply []
  | some p => exact withPin_eq hp reply f ▸ h p

/-- R201: the slot of a poll. -/
theorem Work.RefusedIff.sfpPoll (hs : c.hasSfp = true) (slot : Byte) :
    (sfpPollWork c slot).RefusedIff (slot.toNat < 1 ∨ 4 < slot.toNat) := by
  by_cases hslot : 1 ≤ slot.toNat ∧ slot.toNat ≤ 4
  · exact .inr ⟨by omega, _, _, sfpPollWork_eq hs (dif_pos hslot)⟩
  · have hnone : slotOf slot = none := dif_neg hslot
    exact .inl ⟨by omega, by simp [sfpPollWork, whenHasSfp, withSlot, hs, hnone]⟩

/-- R233: a command is refused for its arguments exactly where they are out of their domain. -/
theorem workOf_refusedIff {i : Instr} (h : i.wf c.hasSfp = true) : (workOf c i).RefusedIff (i.OutOfDomain c) := by
  cases i with
  | muxSel | muxClose | inval | prsEnsure | prsWrb | prsRdb => exact .answering _ _
  | prsWrblk | prsRdblk =>
    simpa only [Instr.OutOfDomain, workOf, writeBlockWork, readBlockWork, false_or] using (Work.RefusedIff.answering _ _).withBlockCount _
  | prsWrbo | prsRdbo => exact .withEffective _ _ fun _ => .answering _ _
  | prsWrblko | prsRdblko => exact (Work.RefusedIff.withEffective _ _ fun _ => .answering _ _).withBlockCount _
  | gpioCfgin | gpioCfgout | gpioRdmode => exact .withPin _ _ fun _ => .answering _ _
  | sfpPoll slot => exact .sfpPoll h slot

end

/-! ### No other command answers `INVALID_ARGUMENT` -/

/-- R98: only a command that raises `InvalidArgument` answers with its status. -/
theorem Work.response_head_ne {w : Work} (h : w.ending ≠ .raise .invalidArgument) (c : Params) (tix : BitVec 8) :
    (w.response c tix).head? ≠ some 0x02 := by
  unfold Work.response
  cases he : w.ending with
  | respond reply => simp
  | raise e =>
    cases e with
    | busError info => simp
    | invalidArgument => exact absurd he h
    | illegalCommand => simp

/-- A command accepted in `s` has got to `t` with its arguments accepted: it is under way and not to raise `InvalidArgument`, or
it is over, and has not answered so. -/
def ArgumentsAccepted (s t : State) : Prop :=
  (∃ tix w, t.seq = .busy tix (some w) ∧ w.ending ≠ .raise .invalidArgument ∧ t.respPort = s.respPort) ∨
  (t.linesLeft = 0 ∧ ∀ frame, t.respPort = s.respPort ++ [frame] → frame.head? ≠ some 0x02)

/-- R8: no line raises `InvalidArgument`. -/
theorem ArgumentsAccepted.execLine {s t : State} (h : ArgumentsAccepted s t) : ArgumentsAccepted s t.execLine := by
  rcases h with ⟨tix, w, hs, hw, hresp⟩ | ⟨hrest, hframe⟩
  · have silent : ∀ {u : State}, u.respPort = s.respPort →
        ∀ frame, u.respPort = s.respPort ++ [frame] → frame.head? ≠ some 0x02 := fun hu frame hf => by simp [hu] at hf
    rcases t.execLine_cases with ⟨hidle, _⟩ | ⟨k, v, hv, hline⟩
    · simp [hs] at hidle
    · obtain ⟨rfl, rfl⟩ : tix = k ∧ w = v := by simpa [hs] using hv
      rcases hline with ⟨_, he⟩ | ⟨line, rest, _, ⟨_, he⟩ | ⟨r, hr, he⟩⟩ <;> rw [he]
      · refine .inr ⟨State.linesLeft_idle (by simp), fun frame hf => ?_⟩
        rw [t.endCommand_respPort_eq, hresp] at hf
        obtain rfl := List.singleton_injective (List.append_cancel_left hf)
        exact Work.response_head_ne hw _ _
      · exact .inl ⟨tix, _, rfl, hw, by simpa using hresp⟩
      · rcases t.transact_cases line r tix { w with todo := rest } with
          ⟨bytes, _, _, he⟩ | ⟨_, he⟩ | ⟨_, he⟩ | ⟨_, he⟩ <;> rw [he]
        · exact .inl ⟨_, _, Line.commit_seq _ line, hw, by simpa using hresp⟩
        · refine .inl ⟨_, _, rfl, ?_, hresp⟩
          rcases (Line.failed_cases hr { w with todo := rest } tix).2 with he | he <;> rw [he]
          · exact hw
          · nofun
        · exact .inr ⟨State.linesLeft_hung (State.hang_seq _ _), silent hresp⟩
        · exact .inr ⟨State.linesLeft_idle (State.coreReset_seq _), silent hresp⟩
  · rw [State.execLine_rest hrest]
    exact .inr ⟨hrest, hframe⟩

/-- R233: a command whose procedure is to respond never answers `INVALID_ARGUMENT`. -/
theorem exec_answering_head_ne {i : Instr} {s t : State} {reply : Reply} {lines : List Line} {frame : List Byte}
    (hwork : workOf s.cfg i = .answering reply lines) (h : exec i s = .next t) (hresp : t.respPort = s.respPort ++ [frame]) :
    frame.head? ≠ some 0x02 := by
  have hend : ArgumentsAccepted s t :=
    exec_induct h (.inl ⟨0, _, rfl, by rw [hwork]; nofun, rfl⟩) fun _ => ArgumentsAccepted.execLine
  rcases hend with ⟨_, _, _, _, hnone⟩ | ⟨_, hframe⟩
  · simp [hresp] at hnone
  · exact hframe frame hresp

/-- Settles O30: out of its domain a command raises at once, and in its domain it begins a procedure, no line of which raises
`InvalidArgument`. -/
theorem invalidArgumentExactlyOutsideTheDomain : Obligations.InvalidArgumentExactlyOutsideTheDomain := by
  intro i s hw hwf
  rcases workOf_refusedIff hwf with ⟨hout, hwork⟩ | ⟨hin, reply, lines, hwork⟩
  · exact ⟨fun _ => exec_raising hw hwork, fun hin => absurd hout hin⟩
  · exact ⟨fun hout => absurd hout hin, fun _ _ _ => exec_answering_head_ne hwork⟩

end Sys2Proof.Machine
end

section
/-! The reset input and a stale multiplexer cache (spec/70_reset_and_hazards.md rules R260, R261 and R268): reset asserted at any
time, also with a transaction in flight, and a mux write that is reported failed but reached the multiplexer. -/

namespace Sys2Proof.Machine

/-! ### The reset input -/

/-- R260: the reset input comes before whatever the sequencer would do. -/
theorem step_of_reset {s : State} {later : List Bool} (hw : s.cfg.WellFormed) (h : s.resetIn = true :: later) :
    step s = .next ({ s with resetIn := later } : State).coreReset := by
  simp [step_next hw, State.blockStep, h]

theorem State.settleFor_resetIn (n : Nat) (s : State) (l : List Bool) :
    State.settleFor n { s with resetIn := l } = { State.settleFor n s with resetIn := l } := by
  induction n generalizing s with
  | zero => rfl
  | succ n ih =>
    have hissues : ({ s with resetIn := l } : State).issuesNext = s.issuesNext := rfl
    simp only [State.settleFor, hissues, State.execLine_resetIn, ih]
    split <;> rfl

/-- What the core does without a transaction does not look at the coming samples of the reset input. -/
theorem State.settle_resetIn (s : State) (l : List Bool) :
    ({ s with resetIn := l } : State).settle = { s.settle with resetIn := l } :=
  settleFor_resetIn s.linesLeft s l

/-- R260: a transaction in flight when the reset input is asserted is abandoned. -/
theorem State.transact_of_reset_event {s : State} {taken : Nat} (h : (s.env.arrival s.cfg).event = .reset taken)
    (line : Line) (r : BusRequest) (tix : BitVec 8) (w : Work) :
    s.transact line r tix w =
      (s.observe r .abandoned ((s.env.arrival s.cfg).after s.cfg line.isWindow r)).coreReset := by
  simp [State.transact, Arrival.completion, h]

/-- A line that issues a transaction, with the reset input asserted while it is in flight. -/
theorem State.execLine_of_reset_event {s : State} {taken : Nat} (hissues : s.issuesNext = true)
    (h : (s.env.arrival s.cfg).event = .reset taken) :
    ∃ r window, s.execLine = (s.observe r .abandoned ((s.env.arrival s.cfg).after s.cfg window r)).coreReset := by
  rcases s.execLine_cases with ⟨hs | ⟨tix, hs⟩, _⟩ | ⟨tix, w, hs, ⟨ht, _⟩ | ⟨line, rest, ht, ⟨hr, _⟩ | ⟨r, _, he⟩⟩⟩
  · simp [issuesNext, hs] at hissues
  · simp [issuesNext, hs] at hissues
  · simp [issuesNext, hs, ht] at hissues
  · simp [issuesNext, hs, ht, hr] at hissues
  · exact ⟨r, line.isWindow, he.trans (transact_of_reset_event h line r tix _)⟩

/-- The core's own step, with the reset input asserted while its transaction is in flight: nothing is left of what the core did
before the transaction. -/
theorem State.coreStep_of_reset_event {s : State} {taken : Nat} (hissues : s.settle.issuesNext = true)
    (h : (s.env.arrival s.cfg).event = .reset taken) :
    ∃ r window, s.coreStep = (s.observe r .abandoned ((s.env.arrival s.cfg).after s.cfg window r)).coreReset := by
  obtain ⟨hlog, henv, hcfg, hcmd, hreset⟩ := s.settle_quiet
  have hresp := State.settle_respPort hissues
  obtain ⟨r, window, hline⟩ := State.execLine_of_reset_event hissues (by rwa [henv, hcfg])
  refine ⟨r, window, ?_⟩
  rw [State.coreStep, State.settle_of_rest (by rw [hline, State.linesLeft_idle (State.coreReset_seq _)]), hline]
  simp [State.observe, State.coreReset, hlog, henv, hcfg, hcmd, hreset, hresp]

/-- A core that is to issue a transaction in its own step executes a command. -/
theorem State.busy_of_settle_issuesNext {s : State} (h : s.settle.issuesNext = true) : ∃ tix work, s.seq = .busy tix work := by
  cases hs : s.seq with
  | idle =>
    rw [State.settle_of_rest (State.linesLeft_idle hs)] at h
    simp [State.issuesNext, hs] at h
  | busy tix work => exact ⟨tix, work, rfl⟩

/-- Settles O10: the reset input is read before all else; and where it comes in flight, the core's own step has done nothing
before its transaction that outlasts the reset. -/
theorem resetInputForgetsTheCaches : Obligations.ResetInputForgetsTheCaches := by
  intro s hw
  refine ⟨fun later h => step_of_reset hw h, fun taken hhead hissues hevent => ?_⟩
  obtain ⟨tix, work, hs⟩ := State.busy_of_settle_issuesNext hissues
  obtain ⟨r, window, hstep⟩ := State.coreStep_of_reset_event (s := { s with resetIn := s.resetIn.tail })
    (by rw [State.settle_resetIn]; exact hissues) hevent
  exact ⟨r, window, by rw [step_of_busy hw hs hhead, hstep]; rfl⟩

/-! ### A stale multiplexer cache -/

/-- R28, U3: a mux write of which the multiplexer took anything selects its channel. -/
theorem Devices.take_muxWrite_of_pos {extent : Nat} (h : 0 < extent) (c : Params) (window : Bool) (chan : Byte) (d : Devices) :
    d.take c window (.wb c.muxAddr c.muxReg chan) extent = some { d with muxSel := chan } := by
  simp [Devices.take, Devices.classify, h.ne']

/-- R130, R238: a select whose write fails leaves only the response and what the environment made of the write. -/
theorem exec_muxSel_of_fail {chan : Byte} {s : State} {taken : Nat} {rest : List BusEvent} (hw : s.cfg.WellFormed)
    (hmiss : s.mux ≠ some chan) (hscript : s.env.script = .fail taken :: rest) :
    exec (.muxSel chan) s = .next ((s.observe (.wb s.cfg.muxAddr s.cfg.muxReg chan) .fail
      ⟨rest, s.env.devices.bind (Devices.take s.cfg false (.wb s.cfg.muxAddr s.cfg.muxReg chan) taken)⟩).respond
        .busError 0 []) := by
  have hline := (State.execLine_transact (State.accept_seq s (muxSelWork chan)) rfl (if_neg hmiss)).trans
    (State.transact_fail hscript)
  have hend := State.execLine_end (congrArg State.seq hline) rfl
  exact runCommand_eq (n := 2) hw (hend.trans (by rw [hline]; rfl)) rfl

/-- R130: a select of the channel that the cache holds leaves only the response. -/
theorem exec_muxSel_of_hit {chan : Byte} {s : State} (hw : s.cfg.WellFormed) (hhit : s.mux = some chan) :
    exec (.muxSel chan) s = .next (s.respond .ok 0 []) := by
  have hline := State.execLine_pass (State.accept_seq s (muxSelWork chan)) rfl (if_pos hhit)
  have hend := State.execLine_end (congrArg State.seq hline) rfl
  exact runCommand_eq (n := 2) hw (hend.trans (by rw [hline]; rfl)) rfl

/-- A cache that holds another channel than the multiplexer is not coherent. -/
theorem not_coherent_of_stale_mux {s : State} {d : Devices} {old : Byte} (hd : s.env.devices = some d) (hm : s.mux = some old)
    (hne : d.muxSel ≠ old) : ¬ Coherent s := by
  intro h
  obtain ⟨hmux, _⟩ := h d hd
  exact hne (hmux old hm)

/-- Settles O17: the failed write moves the multiplexer and not the cache, so a select of the old channel is a hit; `INVAL` with
mask bit 1 clears the cache. -/
theorem failedMuxWriteLeavesTheCacheStale : Obligations.FailedMuxWriteLeavesTheCacheStale := by
  intro chan old s d taken rest hw hmux hne hd htaken hscript
  have hmiss : s.mux ≠ some chan := by simpa [hmux] using hne
  have hfail := exec_muxSel_of_fail hw hmiss hscript
  rw [hd, Option.bind_some, Devices.take_muxWrite_of_pos htaken] at hfail
  exact ⟨_, _, _, hfail, hmux, ⟨_, rfl, rfl⟩, exec_muxSel_of_hit hw hmux, rfl, rfl,
    not_coherent_of_stale_mux rfl hmux hne.symm, invalClearsTheNamedCaches 2 _ hw, rfl⟩

end Sys2Proof.Machine
end

section
/-! The worked frames of spec/30_encoding.md section 4. -/

namespace Sys2Proof

/-- Settles O5: each frame is the encoding of its command, and the decoder reads every encoding back. -/
theorem decodesTheWorkedEncodings : Obligations.DecodesTheWorkedEncodings := by
  refine ⟨?_, ?_, ?_, ?_, ?_, ?_⟩ <;> exact decodeFrame_eq_ok_iff.2 ⟨by decide, by decide⟩

end Sys2Proof
end
